-- ==== Sys2Proof/Word.lean ====
section
/-! DEFINITION. The word types of the block: the byte, the nibble and the level of a bus line (rule R9). -/

namespace Sys2Proof

/-- An 8-bit unsigned value (rule R9). -/
abbrev Byte := BitVec 8

/-- A 4-bit unsigned value (rule R9): one primitive command's wire value (rule R90). -/
abbrev Nibble := BitVec 4

/-- The level of a bus line, or of one party's drive of it: `true` is 1 (the clock high, the data
line released), `false` is 0 (rule R39). -/
abbrev Level := Bool

end Sys2Proof
end

