-- ==== Sys2Proof/Config.lean ====
section
/-! DEFINITION. What an implementation fixes (the parameters of rule R8, as plain data that State carries
in its field `dev`) and the free values: opaque constants without a body, each applied to plain data. -/

namespace Sys2Proof

/-- The closed alphabet of primitive commands (rule R2), in the order of the source's list. -/
inductive Command where
  | endCmd
  | setAddress
  | clockLow
  | clockHigh
  | dataLow
  | dataHigh
  | reset
  | idle
  | dataLowNoAck
  | dataHighNoAck
  | dataHighRead
  | dataHighAck0
  | dataHighAck1
  deriving DecidableEq, Repr, Inhabited

/-- The parameter `OPC` of rule R8: the wire value of each command (rule R92). -/
structure OpcTable where
  endCmd : Nibble
  setAddress : Nibble
  clockLow : Nibble
  clockHigh : Nibble
  dataLow : Nibble
  dataHigh : Nibble
  reset : Nibble
  idle : Nibble
  dataLowNoAck : Nibble
  dataHighNoAck : Nibble
  dataHighRead : Nibble
  dataHighAck0 : Nibble
  dataHighAck1 : Nibble
  deriving DecidableEq, Repr

/-- A bound on the number of polls of one of the two waits of `flush`: a natural number or `INF`
(rules R8, R222). -/
inductive Bound where
  | finite (n : Nat)
  | inf
  deriving DecidableEq, Repr

/-- The two address windows through which the sequencer reaches the engine (rule R60). -/
inductive Window where
  | command
  | control
  deriving DecidableEq, Repr

/-- The agents of rule R12 that take steps of their own inside the block: the playback engine, and
the sequencer (which runs on the calling thread). -/
inductive Agent where
  | engine
  | sequencer
  deriving DecidableEq, Repr, Inhabited

/-- A non-empty subset of the two acknowledgement-failure bits, as a failed sample sets it (rules R35,
R132, entry U12). -/
inductive AckSubset where
  | first
  | second
  | both
  deriving DecidableEq, Repr, Inhabited

/-- The implementation parameters of rule R8. They are constant while the machine runs; State carries
them so that a statement about every state holds for every value of every parameter.
`STATUS_WIDTH` is `3 + statusUpper`, which builds in the constraint that it is at least 3. The trigger word
format is given by a name, a number: what word a format writes is the free value `Config.triggerWord`
(rule R102, entry N4). -/
structure Params where
  opc : OpcTable
  cbCapacity : Nat
  cbWinBase : Nat
  txBase : Nat
  rbCapacity : Nat
  rbBase : Nat
  rbWindow : Window
  statusUpper : Nat
  statusAddr : Nat
  triggerAddr : Nat
  triggerFormat : Nat
  preWaitBound : Bound
  postWaitBound : Bound
  pollMs : Nat
  nThreads : Nat
  deriving DecidableEq, Repr

/-- `STATUS_WIDTH` of rule R8. -/
def Params.statusWidth (p : Params) : Nat := p.statusUpper + 3

/-! Free values. None has a body: nothing can be proved of any value of theirs. -/

/-- The slave environment's drive of the data line at a sample, once the answers listed in State are
used up: `draw({0, 1})` of rule R135 (entry U13). Applied to State's counter of draws. -/
opaque Config.slaveLevel : Nat → Level

/-- Which of the two acknowledgement-failure bits a failed sample sets: the draw of rules R35 and R132
(entry U12). Applied to State's counter of draws. -/
opaque Config.ackFailure : Nat → AckSubset

/-- The status bits 3 and above at one read: any value at every read (rule R33, entry U11). The first
argument is how many such bits there are, the second State's counter of draws. -/
opaque Config.statusUpperBits (w : Nat) : Nat → BitVec w

/-- Which agent moves when both the engine and the sequencer have an enabled step and State lists no
further choice (rules R12, R226, R322). Applied to State's counter of draws. -/
opaque Config.nextAgent : Nat → Agent

/-- Which waiting thread wins the lock, as a position in State's list of waiting calls (rule R191,
entry U15). Applied to State's counter of draws. -/
opaque Config.nextWaiter : Nat → Nat

/-- The word that a trigger word format writes to the trigger register for "begin execution at offset X"
(rule R102, entry N4). Applied to the name of the format and the offset. -/
opaque Config.triggerWord : Nat → Nat → Nat

/-- What a command-buffer byte holds that nothing has written since reset: any value (rule R30, entry
U9). Applied to the index of the byte. -/
opaque Config.staleCommandByte : Nat → Byte

/-- What a readback byte reads as that the most recent playback did not write: any value (rule R37,
entry U10). Applied to the number of triggers so far and the index of the byte. -/
opaque Config.staleReadbackByte : Nat → Nat → Byte

end Sys2Proof
end

