-- ==== Sys2Proof/Syntax.lean ====
section
/-! DEFINITION. The instructions: one constructor for each row of spec/opcode_table.json. -/

namespace Sys2Proof

/-- One constructor per row of spec/opcode_table.json. The first thirteen are the primitive commands,
which the playback engine fetches and executes (rules R2, R120). The next three are the nibble values
that name no command under the table of rule R92 (rule R94). The last five are the actions of the
Opcode Encoder and the termination, which the sequencer carries out by writing primitive commands
(rules R107, R150, R221). -/
inductive Instr where
  | endCmd
  | setAddress
  | clockLow
  | clockHigh
  | dataLow
  | dataHigh
  | reset
  | idle
  | dataLowNoAck
  | dataHighNoAck
  | dataHighRead
  | dataHighAck0
  | dataHighAck1
  | reserved9
  | reservedA
  | reservedB
  | start
  | byteWrite (b : Byte)
  | byteRead (n : Nat)
  | stop
  | terminate
  deriving DecidableEq, Repr

end Sys2Proof
end

