-- ==== Sys2Proof/WellFormed.lean ====
section
/-! DEFINITION. Well-formedness: of an instruction, of an opcode table, of the parameters. -/

namespace Sys2Proof

/-- Operand checks. The one operand the spec constrains is the count of `ByteRead`, which is at least
one (rules R100, R153). -/
def Instr.wf : Instr → Bool
  | .endCmd => true
  | .setAddress => true
  | .clockLow => true
  | .clockHigh => true
  | .dataLow => true
  | .dataHigh => true
  | .reset => true
  | .idle => true
  | .dataLowNoAck => true
  | .dataHighNoAck => true
  | .dataHighRead => true
  | .dataHighAck0 => true
  | .dataHighAck1 => true
  | .reserved9 => true
  | .reservedA => true
  | .reservedB => true
  | .start => true
  | .byteWrite _ => true
  | .byteRead n => decide (1 ≤ n)
  | .stop => true
  | .terminate => true

/-- The thirteen wire values of a table, in the order of the alphabet. -/
def OpcTable.values (t : OpcTable) : List Nibble :=
  [t.endCmd, t.setAddress, t.clockLow, t.clockHigh, t.dataLow, t.dataHigh, t.reset, t.idle,
   t.dataLowNoAck, t.dataHighNoAck, t.dataHighRead, t.dataHighAck0, t.dataHighAck1]

/-- The constraint of rule R8 on `OPC`: thirteen distinct values. -/
def OpcTable.wf (t : OpcTable) : Bool := decide t.values.Nodup

/-- The nibble `n` names no command of the table `t` (rule R94). -/
def OpcTable.unnamed (t : OpcTable) (n : Nibble) : Bool := decide (n ∉ t.values)

/-- The command buffer and the readback window do not overlap: they are two regions (rules R60, R62,
R63), which matters only when the readback window lies in the command-buffer window. -/
def Params.regionsApart (p : Params) : Bool :=
  match p.rbWindow with
  | .control => true
  | .command =>
    decide (p.cbWinBase + p.cbCapacity ≤ p.rbBase) || decide (p.rbBase + p.rbCapacity ≤ p.cbWinBase)

/-- The constraints of rule R8 on the parameters, and the regions apart. -/
def Params.wf (p : Params) : Bool :=
  p.opc.wf && decide (p.txBase < p.cbCapacity) && decide (1 ≤ p.rbCapacity) &&
    decide (1 ≤ p.nThreads) && p.regionsApart

end Sys2Proof
end

