-- ==== Sys2Proof/Decode.lean ====
section
/-! DEFINITION. Opcode values, packing, the decoder (total, `none` for what names no instruction) and,
after it, the encoder. Two layers are decoded: one nibble as the engine fetches it (rules R90, R120),
and a stream of commands, both as the encoder's actions wrote it (rule R103) and as the bus events it is
(rule R104). -/

namespace Sys2Proof

/-! ### Opcode values -/

/-- The opcode table of rule R92, the value rule R8 gives the parameter `OPC`. -/
def OpcTable.standard : OpcTable where
  endCmd := 0x0#4
  setAddress := 0x1#4
  clockLow := 0x2#4
  clockHigh := 0x3#4
  dataLow := 0x4#4
  dataHigh := 0x5#4
  reset := 0x6#4
  idle := 0x7#4
  dataLowNoAck := 0x8#4
  dataHighNoAck := 0xC#4
  dataHighRead := 0xD#4
  dataHighAck0 := 0xE#4
  dataHighAck1 := 0xF#4

/-- `OPC[c]` of rule R8. -/
def OpcTable.code (t : OpcTable) : Command → Nibble
  | .endCmd => t.endCmd
  | .setAddress => t.setAddress
  | .clockLow => t.clockLow
  | .clockHigh => t.clockHigh
  | .dataLow => t.dataLow
  | .dataHigh => t.dataHigh
  | .reset => t.reset
  | .idle => t.idle
  | .dataLowNoAck => t.dataLowNoAck
  | .dataHighNoAck => t.dataHighNoAck
  | .dataHighRead => t.dataHighRead
  | .dataHighAck0 => t.dataHighAck0
  | .dataHighAck1 => t.dataHighAck1

/-- The alphabet of rule R2 in the order of the source's list. -/
def Command.all : List Command :=
  [.endCmd, .setAddress, .clockLow, .clockHigh, .dataLow, .dataHigh, .reset, .idle, .dataLowNoAck,
   .dataHighNoAck, .dataHighRead, .dataHighAck0, .dataHighAck1]

/-- The instruction that a primitive command is. -/
def Command.toInstr : Command → Instr
  | .endCmd => .endCmd
  | .setAddress => .setAddress
  | .clockLow => .clockLow
  | .clockHigh => .clockHigh
  | .dataLow => .dataLow
  | .dataHigh => .dataHigh
  | .reset => .reset
  | .idle => .idle
  | .dataLowNoAck => .dataLowNoAck
  | .dataHighNoAck => .dataHighNoAck
  | .dataHighRead => .dataHighRead
  | .dataHighAck0 => .dataHighAck0
  | .dataHighAck1 => .dataHighAck1

/-! ### Packing -/

/-- `pack(lo, hi)`: the first command in bits 3:0, the second in bits 7:4 (rules R64, R96). -/
def pack (lo hi : Nibble) : Byte := lo.setWidth 8 ||| (hi.setWidth 8 <<< 4)

/-- Bits 3:0 of a byte: the command that comes first (rules R31, R96). -/
def lowNibble (b : Byte) : Nibble := b.extractLsb' 0 4

/-- Bits 7:4 of a byte: the command that comes second (rules R31, R96). -/
def highNibble (b : Byte) : Nibble := b.extractLsb' 4 4

/-- `unpack` of rule R96. -/
def unpack (b : Byte) : Nibble × Nibble := (lowNibble b, highNibble b)

/-- The nibbles of a byte image in the order the engine fetches them (rules R31, R64). -/
def unpackAll : List Byte → List Nibble
  | [] => []
  | b :: bs => lowNibble b :: highNibble b :: unpackAll bs

/-- A stream packed two commands to a byte, an odd last one with the filler nibble above it (rules R97,
R105). -/
def packAll (filler : Nibble) : List Nibble → List Byte
  | [] => []
  | [n] => [pack n filler]
  | n :: m :: ns => pack n m :: packAll filler ns

/-! ### Decoding one nibble, as the engine does -/

/-- The command with `OPC[c] = n`, if there is one (rule R120). -/
def decodeCommand (t : OpcTable) (n : Nibble) : Option Command :=
  Command.all.find? fun c => t.code c == n

/-- The instruction the engine reads from a nibble. A nibble that names no command is one of the three
reserved instructions of the opcode table, or, under a table that leaves another value unnamed, no
instruction at all (rule R94). -/
def decodeNibble (t : OpcTable) (n : Nibble) : Option Instr :=
  match decodeCommand t n with
  | some c => some c.toInstr
  | none =>
    if n = 0x9#4 then some .reserved9
    else if n = 0xA#4 then some .reservedA
    else if n = 0xB#4 then some .reservedB
    else none

/-! ### Decoding a stream back to the encoder's actions (rules R103, R107) -/

/-- The commands at the head of a stream, up to the first nibble that names none. -/
def namedCommands (t : OpcTable) : List Nibble → List Command
  | [] => []
  | n :: ns =>
    match decodeCommand t n with
    | some c => c :: namedCommands t ns
    | none => []

/-- `((r << 1) | v) & 0xFF`: the shift register that drops the bit shifted out of bit 7 (rules R17, R65,
R131). -/
def shiftIn (r : Byte) (v : Bool) : Byte := (r <<< 1) ||| (BitVec.ofBool v).setWidth 8

/-- Reads `k` bit commands, most significant bit first, High to 1 and Low to 0, into the shift register
`b` (rules R65, R99). -/
def readBits : Nat → Byte → List Command → Option (Byte × List Command)
  | 0, b, cs => some (b, cs)
  | k + 1, b, .dataHighNoAck :: cs => readBits k (shiftIn b true) cs
  | k + 1, b, .dataLowNoAck :: cs => readBits k (shiftIn b false) cs
  | _ + 1, _, _ => none

/-- Nine commands that write a byte, and the byte (rules R99, R104, R152). -/
def readWrite (cs : List Command) : Option (Byte × List Command) :=
  match readBits 8 0#8 cs with
  | some (b, .dataHighAck0 :: rest) => some (b, rest)
  | _ => none

/-- Drops `k` commands `DataHighRead`, if they stand there. -/
def dropReads : Nat → List Command → Option (List Command)
  | 0, cs => some cs
  | k + 1, .dataHighRead :: cs => dropReads k cs
  | _ + 1, _ => none

/-- Counts the bytes of a read: eight `DataHighRead` and `DataLowNoAck` is a byte that more follow,
eight and `DataHighNoAck` the last (rule R153). `fuel` bounds the number of bytes. -/
def readReads : Nat → List Command → Option (Nat × List Command)
  | 0, _ => none
  | fuel + 1, cs =>
    match dropReads 8 cs with
    | some (.dataLowNoAck :: rest) => (readReads fuel rest).map fun p => (p.1 + 1, p.2)
    | some (.dataHighNoAck :: rest) => some (1, rest)
    | _ => none

/-- The encoder's action at the head of a list of commands, and the commands after it (rule R107).
`latchFull` says whether the stream stands at an odd position, on which the termination depends (rule
R221). -/
def readAction (latchFull : Bool) (cs : List Command) : Option (Instr × List Command) :=
  match cs with
  | .dataHigh :: .clockHigh :: .dataLow :: .clockLow :: rest => some (.start, rest)
  | .dataLow :: .clockHigh :: .dataHigh :: rest => some (.stop, rest)
  | .endCmd :: .endCmd :: rest =>
    if latchFull then
      match rest with
      | .endCmd :: rest' => some (.terminate, rest')
      | _ => none
    else some (.terminate, rest)
  | .dataHighRead :: _ => (readReads cs.length cs).map fun p => (.byteRead p.1, p.2)
  | _ => (readWrite cs).map fun p => (.byteWrite p.1, p.2)

/-- The encoder's action at the head of a stream of nibbles, and the nibbles after it. -/
def decodeAction (t : OpcTable) (latchFull : Bool) (ns : List Nibble) :
    Option (Instr × List Nibble) :=
  match readAction latchFull (namedCommands t ns) with
  | some (i, rest) => some (i, ns.drop ((namedCommands t ns).length - rest.length))
  | none => none

/-- The whole of a stream up to and including its termination, as the encoder's actions (rule R103).
`odd` is the parity of the position reached, `fuel` bounds the number of actions. -/
def scanActions (t : OpcTable) : Nat → Bool → List Nibble → Option (List Instr)
  | 0, _, _ => none
  | fuel + 1, odd, ns =>
    match decodeAction t odd ns with
    | some (.terminate, _) => some [.terminate]
    | some (i, rest) =>
      (scanActions t fuel (odd ^^ ((ns.length - rest.length) % 2 == 1)) rest).map (i :: ·)
    | none => none

/-- Decodes a byte image of the command buffer to the actions that wrote it (rule R103). -/
def scanStream (t : OpcTable) (bytes : List Byte) : Option (List Instr) :=
  scanActions t (unpackAll bytes).length false (unpackAll bytes)

/-! ### Decoding a stream back to bus events (rule R104) -/

/-- What rule R104 reads in a stream: a START, a written byte, a byte read that the master acknowledges or
does not, a STOP. -/
inductive StreamEvent where
  | start
  | written (b : Byte)
  | byteRead (acknowledged : Bool)
  | stop
  deriving DecidableEq, Repr

/-- The event at the head of a list of commands, and the commands after it (rule R104). -/
def readEvent (cs : List Command) : Option (StreamEvent × List Command) :=
  match cs with
  | .dataHigh :: .clockHigh :: .dataLow :: .clockLow :: rest => some (.start, rest)
  | .dataLow :: .clockHigh :: .dataHigh :: rest => some (.stop, rest)
  | .dataHighRead :: _ =>
    match dropReads 8 cs with
    | some (.dataLowNoAck :: rest) => some (.byteRead true, rest)
    | some (.dataHighNoAck :: rest) => some (.byteRead false, rest)
    | _ => none
  | _ => (readWrite cs).map fun p => (.written p.1, p.2)

/-- The events of a stream up to its first `End`, which ends it (rule R104); `none` where the commands are
no event, or there is no `End`. `fuel` bounds the number of events. -/
def readEvents : Nat → List Command → Option (List StreamEvent)
  | _, .endCmd :: _ => some []
  | 0, _ => none
  | fuel + 1, cs =>
    match readEvent cs with
    | some (e, rest) => (readEvents fuel rest).map (e :: ·)
    | none => none

/-- Decodes a byte image of the command buffer to its bus events (rule R104). -/
def streamEvents (t : OpcTable) (bytes : List Byte) : Option (List StreamEvent) :=
  readEvents (unpackAll bytes).length (namedCommands t (unpackAll bytes))

/-! ### Both layers -/

/-- Where an instruction is read: by the engine from one nibble, or from the stream an encoder's action
wrote. -/
inductive Layer where
  | engine
  | encoder
  deriving DecidableEq, Repr

/-- The layer an instruction belongs to. -/
def Instr.layer : Instr → Layer
  | .endCmd => .engine
  | .setAddress => .engine
  | .clockLow => .engine
  | .clockHigh => .engine
  | .dataLow => .engine
  | .dataHigh => .engine
  | .reset => .engine
  | .idle => .engine
  | .dataLowNoAck => .engine
  | .dataHighNoAck => .engine
  | .dataHighRead => .engine
  | .dataHighAck0 => .engine
  | .dataHighAck1 => .engine
  | .reserved9 => .engine
  | .reservedA => .engine
  | .reservedB => .engine
  | .start => .encoder
  | .byteWrite _ => .encoder
  | .byteRead _ => .encoder
  | .stop => .encoder
  | .terminate => .encoder

/-- The instruction of a layer at the head of a list of nibbles, and the nibbles after it. -/
def decode (t : OpcTable) (latchFull : Bool) : Layer → List Nibble → Option (Instr × List Nibble)
  | .engine, [] => none
  | .engine, n :: ns => (decodeNibble t n).map fun i => (i, ns)
  | .encoder, ns => decodeAction t latchFull ns

/-- The `k` lowest nibbles of `w`, the most significant first: the order in which the table's patterns
of the encoder's actions list their nibbles. -/
def nibblesOf : Nat → Nat → List Nibble
  | 0, _ => []
  | k + 1, w => BitVec.ofNat 4 (w >>> (4 * k)) :: nibblesOf k w

/-- An action whose nibbles are exactly `ns`. -/
def decodeWhole (ns : List Nibble) : Option Instr :=
  match decodeAction .standard false ns with
  | some (i, []) => some i
  | _ =>
    match decodeAction .standard true ns with
    | some (i, []) => some i
    | _ => none

/-- The instruction of a row of spec/opcode_table.json. A row of at most a byte is one nibble, bits 3:0.
A longer row is an action of the encoder, its nibbles numbered as the table writes them, the one
emitted first most significant; an odd number of nibbles leaves the topmost of the whole bytes 0. -/
def decodeTableWord (nbits w : Nat) : Option Instr :=
  if nbits ≤ 8 then decodeNibble .standard (BitVec.ofNat 4 w)
  else
    match decodeWhole (nibblesOf (nbits / 4) w) with
    | some i => some i
    | none =>
      if w >>> (nbits - 4) = 0 then decodeWhole (nibblesOf (nbits / 4 - 1) w) else none

/-! ### Encoding -/

/-- The command for one bit of a byte to be sent (rules R99, R152). -/
def bitCommand (v : Bool) : Command := if v then .dataHighNoAck else .dataLowNoAck

/-- `Start` (rule R151). -/
def startCommands : List Command := [.dataHigh, .clockHigh, .dataLow, .clockLow]

/-- `ByteWrite b` (rule R152): eight bit commands, most significant bit first, and the acknowledge
sample. -/
def byteWriteCommands (b : Byte) : List Command :=
  [7, 6, 5, 4, 3, 2, 1, 0].map (fun i => bitCommand (b.getLsbD i)) ++ [.dataHighAck0]

/-- Eight `DataHighRead` (rule R153). -/
def readByteCommands : List Command := List.replicate 8 .dataHighRead

/-- `ByteRead N` (rule R153): after each byte but the last the master acknowledges, after the last it
does not. -/
def byteReadCommands : Nat → List Command
  | 0 => []
  | 1 => readByteCommands ++ [.dataHighNoAck]
  | n + 2 => readByteCommands ++ .dataLowNoAck :: byteReadCommands (n + 1)

/-- `Stop` (rule R154). -/
def stopCommands : List Command := [.dataLow, .clockHigh, .dataHigh]

/-- The `End` commands of rule R221 that stand before the padding. -/
def trailingEnds (latchFull : Bool) : List Command :=
  if latchFull then [.endCmd, .endCmd] else [.endCmd]

/-- `Terminate` with its padding (rules R107, R221). -/
def terminateCommands (latchFull : Bool) : List Command := trailingEnds latchFull ++ [.endCmd]

/-- The nibbles of an instruction in emission order. The termination alone depends on where it stands:
`latchFull` says whether the count of commands before it is odd (rule R221). -/
def encode (t : OpcTable) (latchFull : Bool) : Instr → List Nibble
  | .endCmd => [t.code .endCmd]
  | .setAddress => [t.code .setAddress]
  | .clockLow => [t.code .clockLow]
  | .clockHigh => [t.code .clockHigh]
  | .dataLow => [t.code .dataLow]
  | .dataHigh => [t.code .dataHigh]
  | .reset => [t.code .reset]
  | .idle => [t.code .idle]
  | .dataLowNoAck => [t.code .dataLowNoAck]
  | .dataHighNoAck => [t.code .dataHighNoAck]
  | .dataHighRead => [t.code .dataHighRead]
  | .dataHighAck0 => [t.code .dataHighAck0]
  | .dataHighAck1 => [t.code .dataHighAck1]
  | .reserved9 => [0x9#4]
  | .reservedA => [0xA#4]
  | .reservedB => [0xB#4]
  | .start => startCommands.map t.code
  | .byteWrite b => (byteWriteCommands b).map t.code
  | .byteRead n => (byteReadCommands n).map t.code
  | .stop => stopCommands.map t.code
  | .terminate => (terminateCommands latchFull).map t.code

/-- An encoding has its meaning under a table: a reserved nibble value is one the table leaves unnamed
(rule R94). -/
def Instr.encodable (t : OpcTable) : Instr → Bool
  | .endCmd => true
  | .setAddress => true
  | .clockLow => true
  | .clockHigh => true
  | .dataLow => true
  | .dataHigh => true
  | .reset => true
  | .idle => true
  | .dataLowNoAck => true
  | .dataHighNoAck => true
  | .dataHighRead => true
  | .dataHighAck0 => true
  | .dataHighAck1 => true
  | .reserved9 => t.unnamed 0x9#4
  | .reservedA => t.unnamed 0xA#4
  | .reservedB => t.unnamed 0xB#4
  | .start => true
  | .byteWrite _ => true
  | .byteRead _ => true
  | .stop => true
  | .terminate => true

end Sys2Proof
end

