-- ==== Sys2Proof/Machine/State.lean ====
section
/-! DEFINITION. The state of the machine as plain data, the reasons a step can stop, and the state after
reset (file 10_state.md). -/

namespace Sys2Proof.Machine

/-! ### The operands of `transfer` (rules R15, R28, R190) -/

/-- One addressed operation (rule R190). A read carries the caller's result buffer, whose length is the
declared count `N` (rule R28). -/
inductive Message where
  | write (address : BitVec 7) (payload : List Byte)
  | read (address : BitVec 7) (result : List Byte)
  deriving DecidableEq, Repr

/-- A list of messages; that it has one to three is checked by `validate` (rules R190, R194). -/
abbrev Transaction := List Message

/-- A call of `transfer` by a caller thread (rules R12, R190). -/
structure Call where
  thread : Nat
  tx : Transaction
  deriving DecidableEq, Repr

/-- The closed enumeration of error kinds, without payload (rules R280, R285). -/
inductive BusError where
  | unsupportedTransaction
  | ackFailure
  | timeout
  | driverMalfunction
  deriving DecidableEq, Repr

/-- What `execute` returns (rule R190). -/
inductive Result where
  | ok
  | error (e : BusError)
  deriving DecidableEq, Repr

/-- A call that has returned: its result, and its transaction with the result buffers as the caller
finds them (rules R190, R200, R287). -/
structure Return where
  thread : Nat
  result : Result
  tx : Transaction
  deriving DecidableEq, Repr

/-! ### The sequencer half -/

/-- The per-adapter lock (rule R21). -/
inductive Lock where
  | free
  | held (thread : Nat)
  deriving DecidableEq, Repr

/-- The session record (rules R22, R23, R24). `latch` is read only while the count is odd (rule R25). -/
structure Session where
  ncmd : Nat
  latch : Nibble
  deriving DecidableEq, Repr

/-- The sequencer's control state (rule R27). -/
inductive Phase where
  | idle
  | validating
  | encoding (i : Nat)
  | stopping
  | terminating
  | preWait (k : Nat)
  | triggering
  | postWait (k : Nat)
  | decoding
  | readback (i : Nat)
  | done (r : Result)
  deriving DecidableEq, Repr

/-! ### The engine half -/

/-- A bus event (rule R40). -/
inductive BusEvent where
  | start
  | stop
  | wbit (v : Level)
  | rbit (v : Level)
  | acks (v : Level)
  deriving DecidableEq, Repr

/-- The bytes of a window that something has written since reset, by offset, strictly rising. An
unlisted offset holds no value of its own. -/
abbrev Memory := List Host.Cell

/-- The machine. -/
structure State where
  /-- The implementation parameters (rule R8), constant while the machine runs. -/
  dev : Params
  /-- `lock` (rule R21). -/
  lock : Lock
  /-- `session` (rules R22 to R24). -/
  session : Option Session
  /-- `phase` (rule R27). -/
  phase : Phase
  /-- The transaction being executed: the argument of `execute` (rules R13, R28), with the thread that
  called. The model's own field. -/
  call : Option Call
  /-- How many of the encoder's actions of the message in hand have been carried out: the place of
  `execute` within its loop body (rule R193). The model's own field. -/
  actionPos : Nat
  /-- The calls whose threads are at or before `acquire`, each thread's in its program order (rules R12,
  R191). The model's own field. -/
  waiting : List Call
  /-- The calls that have returned, the latest last (rule R190). The model's own field. -/
  returned : List Return
  /-- The command-buffer window, which holds `CB` (rules R30, R60, R62). -/
  commandWin : Memory
  /-- The status and control register window, but for its two registers (rules R36, R60, R63). -/
  controlWin : Memory
  /-- `busy`, status bit 0 (rules R33, R34). -/
  busy : Bool
  /-- `ackf[1:0]`, status bits 2:1 (rules R33, R35). -/
  ackf : BitVec 2
  /-- `fp`, the engine's fetch pointer, in nibbles (rule R31). -/
  fp : Nat
  /-- `rsh` (rule R38). -/
  rsh : Byte
  /-- `rcnt` (rule R38). -/
  rcnt : Fin 8
  /-- `rptr` (rule R38). -/
  rptr : Nat
  /-- `SCL`, the level the engine drives on the clock line (rule R39). -/
  scl : Level
  /-- `SDAm`, the master's drive of the data line (rule R39). -/
  sdam : Level
  /-- `WIRE`, the log of bus events (rule R40). -/
  wire : List BusEvent
  /-- The levels the slave environment will drive at the next samples (rules R12, R135). After them the
  free value `Config.slaveLevel` answers. The model's own field: an input. -/
  slave : List Level
  /-- Which agent moves at the next steps that leave a choice. After them the free value
  `Config.nextAgent` answers. The model's own field: an input. -/
  sched : List Agent
  /-- How many free values have been drawn. The model's own field. -/
  draws : Nat
  /-- How many triggers have been written: which playback is the most recent (rule R37). The model's own
  field. -/
  plays : Nat
  deriving DecidableEq, Repr

/-! ### Why a step stops -/

/-- Faults. The block has no trap to raise (60_exceptions.md, 93_implementation_defined.md): these name
the states in which the pseudocode of the spec reads something that is not there. No run from reset
reaches one. -/
inductive Fault where
  /-- Raised by `emit` and `flush_partial` when there is no session (rule R22). Safe: the machine stops. -/
  | noSession
  /-- Raised by the sequencer in a phase of `execute` with no call in hand (rule R193). Safe: the machine
  stops. -/
  | noCall
  /-- Raised by the sequencer when its place in `execute` names no action or no message (rule R193). Safe:
  the machine stops. -/
  | noAction
  deriving DecidableEq, Repr

/-- Refusals: what the spec gives no meaning (rule R294, 93_implementation_defined.md). Each is safe: the
machine stops where the hardware would go on in some unknown way. -/
inductive Refusal where
  /-- Raised by an arm of `exec` whose instruction has no meaning yet. Safe. -/
  | notModelled (mnemonic : String)
  /-- Raised by the engine on a nibble that names no command (rule R94, entry U1). Safe. -/
  | noCommand (n : Nibble)
  /-- Raised by the engine on a command of which the source gives the name only (rules R126, R127, R128,
  R133, entry U2). Safe. -/
  | nameOnly (c : Command)
  /-- Raised by a write of a command-buffer byte at or beyond `CB_CAPACITY` (rule R29, entry U3). Safe. -/
  | commandBufferFull (index : Nat)
  /-- Raised by the engine's commit of a received byte, and by the readback, at or beyond `RB_CAPACITY`
  (rules R29, R131, entry U4). Safe. -/
  | readbackFull (index : Nat)
  /-- Raised by a write of a command-buffer byte while `busy` is 1 (rule R78, entry U5). Safe. -/
  | writeWhilePlaying
  /-- Raised by a write of the trigger register while `busy` is 1 (rule R70, entry U6). Safe. -/
  | triggerWhileBusy
  /-- Raised by a write of the trigger register that names no byte of the command buffer (rule R70). Safe. -/
  | triggerBeyondBuffer (index : Nat)
  deriving DecidableEq, Repr

/-! ### Reset -/

/-- The parameters of the machine after reset. Rule R8 gives the defaults of `OPC`, `TX_BASE`,
`STATUS_WIDTH` and the two bounds; the other values are chosen (notes/assumptions/2.md). -/
def standardParams : Params where
  opc := .standard
  cbCapacity := 1024
  cbWinBase := 0
  txBase := 0
  rbCapacity := 256
  rbBase := 1024
  rbWindow := .command
  statusUpper := 5
  statusAddr := 0
  triggerAddr := 1
  triggerFormat := 0
  preWaitBound := .inf
  postWaitBound := .inf
  pollMs := 1
  nThreads := 2

/-- The reset state of rule R43 with given parameters. -/
def State.resetWith (p : Params) : State where
  dev := p
  lock := .free
  session := none
  phase := .idle
  call := none
  actionPos := 0
  waiting := []
  returned := []
  commandWin := []
  controlWin := []
  busy := false
  ackf := 0#2
  fp := 0
  rsh := 0#8
  rcnt := 0
  rptr := 0
  scl := true
  sdam := true
  wire := []
  slave := []
  sched := []
  draws := 0
  plays := 0

/-- The machine right after reset (rule R43). -/
def State.reset : State := State.resetWith standardParams

end Sys2Proof.Machine
end

