-- ==== Sys2Proof/Machine/Flags.lean ====
section
/-! DEFINITION. The status word and its decoder (rules R33, R35, R66, R101, R227, R228). -/

namespace Sys2Proof.Machine

/-- What `StatusRead()` returns: the described bits, and the `u` bits above them that the source does not
describe (rule R33). -/
structure StatusWord (u : Nat) where
  busy : Bool
  ackf : BitVec 2
  upper : BitVec u
  deriving DecidableEq, Repr

/-- The layout of rule R33: bit 0 `busy`, bits 2:1 `ackf`, the rest above. -/
def StatusWord.bits {u : Nat} (w : StatusWord u) : BitVec (u + 2 + 1) :=
  w.upper ++ w.ackf ++ BitVec.ofBool w.busy

/-- The fields of a status word that is given as bits (rules R33, R101). -/
def StatusWord.ofBits {u : Nat} (b : BitVec (u + 2 + 1)) : StatusWord u where
  busy := b.getLsbD 0
  ackf := b.extractLsb' 1 2
  upper := b.extractLsb' 3 u

/-- `decode_status` (rules R227, R228): the running bit first, then the two acknowledgement bits
together; the bits above are ignored. -/
def decodeStatus {u : Nat} (w : StatusWord u) : Result :=
  if w.busy then .error .driverMalfunction
  else if w.ackf ≠ 0#2 then .error .ackFailure
  else .ok

/-- The two bits of a non-empty subset: 01, 10 or 11 (rule R132). -/
def ackSubsetBits : AckSubset → BitVec 2
  | .first => 0b01#2
  | .second => 0b10#2
  | .both => 0b11#2

/-- `ackf` after an acknowledge sample of level `v` (rule R132): 1 is a missed acknowledgement, which
adds a non-empty subset of the two bits; nothing is ever cleared (rule R35). -/
def ackAfterSample (v : Level) (subset : AckSubset) (ackf : BitVec 2) : BitVec 2 :=
  if v then ackf ||| ackSubsetBits subset else ackf

/-- A poll of index `k` that still reads `busy = 1` exhausts the bound (rule R222). -/
def boundExhausted : Bound → Nat → Bool
  | .inf, _ => false
  | .finite n, k => decide (n ≤ k)

end Sys2Proof.Machine
end

