-- ==== Sys2Proof/Machine/Memory.lean ====
section
/-! DEFINITION. A window's memory: one byte at an offset, in one canonical form (rules R60, R61). -/

namespace Sys2Proof.Machine

/-- The canonical form: offsets strictly rising. An unlisted offset holds no value, which no byte equals,
so equal memories are equal lists. -/
abbrev Memory.wf (m : Memory) : Prop := m.Pairwise fun a b => a.1 < b.1

/-- What an offset that nothing has written holds: no value of its own (rules R30, R37). -/
def Memory.unlisted : Option Byte := none

/-- The byte at an offset, if something has written it. -/
def Memory.read : Memory → Nat → Option Byte
  | [], _ => Memory.unlisted
  | (a, v) :: m, x => if x = a then some v else Memory.read m x

/-- Writes the byte at an offset, keeping the canonical form. -/
def Memory.write : Memory → Nat → Byte → Memory
  | [], x, v => [(x, v)]
  | (a, u) :: m, x, v =>
    if x < a then (x, v) :: (a, u) :: m
    else if x = a then (x, v) :: m
    else (a, u) :: Memory.write m x v

end Sys2Proof.Machine
end

