-- ==== Sys2Proof/Machine/Operands.lean ====
section
/-! DEFINITION. The operands of a transaction: address bytes, the actions each message expands to, the
lengths and the sizes in closed form (rules R98, R103, R193 to R197, R203). -/

namespace Sys2Proof.Machine

/-- `MAX_MSGS`, the most messages of a transaction (rule R8). -/
def maxMessages : Nat := 3

/-- `abyte = (address << 1) | direction_bit` (rule R98). -/
def addressByte (address : BitVec 7) (readBit : Bool) : Byte :=
  (address.setWidth 8 <<< 1) ||| (BitVec.ofBool readBit).setWidth 8

/-- The message is a read. -/
def Message.isRead : Message → Bool
  | .write _ _ => false
  | .read _ _ => true

/-- The address byte of a message: direction bit 0 for a write, 1 for a read (rule R98). -/
def Message.addressByte : Message → Byte
  | .write a _ => Machine.addressByte a false
  | .read a _ => Machine.addressByte a true

/-- `L` of rule R203: the payload length of a write, the read count of a read. -/
def Message.length : Message → Nat
  | .write _ p => p.length
  | .read _ r => r.length

/-- The bytes the message receives: its read count, or none (rules R200, R203). -/
def Message.readLength : Message → Nat
  | .write _ _ => 0
  | .read _ r => r.length

/-- The encoder's actions for one message, in order (rules R193, R195): every message has its own
`Start` and its own address byte. -/
def Message.actions : Message → List Instr
  | .write a p => .start :: .byteWrite (Machine.addressByte a false) :: p.map .byteWrite
  | .read a r => [.start, .byteWrite (Machine.addressByte a true), .byteRead r.length]

/-- The commands of one message (rules R103, R195). -/
def Message.commands : Message → List Command
  | .write a p =>
    startCommands ++ (byteWriteCommands (Machine.addressByte a false) ++ p.flatMap byteWriteCommands)
  | .read a r =>
    startCommands ++ (byteWriteCommands (Machine.addressByte a true) ++ byteReadCommands r.length)

/-- The commands of a transaction before its termination (rules R103, R193, R196): the messages in
order, then one `Stop`. -/
def streamCommands (tx : Transaction) : List Command :=
  tx.flatMap Message.commands ++ stopCommands

/-- The encoder's actions of a whole transaction, the termination last (rules R103, R193). -/
def streamActions (tx : Transaction) : List Instr :=
  tx.flatMap Message.actions ++ [.stop, .terminate]

/-- `validate(tx)` (rule R194): one to three messages, the first a write, no read of length 0. -/
def validate : Transaction → Bool
  | [] => false
  | m :: ms =>
    decide ((m :: ms).length ≤ maxMessages) && !m.isRead &&
      (m :: ms).all fun x => !x.isRead || decide (1 ≤ x.length)

/-- Commands before termination, in closed form (rule R203). -/
def commandCount (tx : Transaction) : Nat :=
  3 + (tx.map fun m => 13 + 9 * m.length).sum

/-- Buffer bytes a session writes, in closed form (rule R203). -/
def bufferBytes (tx : Transaction) : Nat := (commandCount tx + 1) / 2 + 1

/-- Bytes a transaction receives (rule R203). -/
def readBytes (tx : Transaction) : Nat := (tx.map Message.readLength).sum

/-- The capacity contract of rules R29 and R203. -/
def fits (p : Params) (tx : Transaction) : Bool :=
  decide (p.txBase + (commandCount tx + 1) / 2 < p.cbCapacity) && decide (readBytes tx ≤ p.rbCapacity)

end Sys2Proof.Machine
end

