-- ==== Sys2Proof/Machine/Ops.lean ====
section
/-! DEFINITION. The named operations over the state: window accesses, the two register accesses, the
Sequence Buffer Writer, the bus lines and samples, and raising an error with the exit actions. -/

namespace Sys2Proof.Machine

/-- One step's outcome. -/
abbrev Out := Host.Outcome State Fault Refusal

/-- Goes on with a next state; a fault or a refusal stops. -/
def andThen (o : Out) (f : State → Out) : Out :=
  match o with
  | .next s => f s
  | .fault r => .fault r
  | .refused r => .refused r

/-! ### Windows (rules R60 to R63, R68, R69) -/

/-- The memory of a window. -/
def State.window (s : State) : Window → Memory
  | .command => s.commandWin
  | .control => s.controlWin

/-- `read_byte(offset)` on a window (rule R61). -/
def State.readByte (s : State) (w : Window) (offset : Nat) : Option Byte :=
  (s.window w).read offset

/-- `write_byte(offset, value)` on a window (rule R61): that byte and nothing else (rule R69). -/
def State.writeByte (s : State) (w : Window) (offset : Nat) (v : Byte) : State :=
  match w with
  | .command => { s with commandWin := s.commandWin.write offset v }
  | .control => { s with controlWin := s.controlWin.write offset v }

/-- `CB[i]` (rules R30, R62): a byte nothing has written since reset is any value (entry U9). -/
def State.cbRead (s : State) (i : Nat) : Byte :=
  (s.readByte .command (s.dev.cbWinBase + i)).getD (Config.staleCommandByte i)

/-- `RB[i]` (rules R37, R63): a byte the most recent playback has not written is any value, the same
until the next trigger (rule R69, entry U10). -/
def State.rbRead (s : State) (i : Nat) : Byte :=
  if i < s.rptr then
    (s.readByte s.dev.rbWindow (s.dev.rbBase + i)).getD (Config.staleReadbackByte s.plays i)
  else Config.staleReadbackByte s.plays i

/-- The engine's step is enabled (rules R32, R120). -/
def State.engineEnabled (s : State) : Bool :=
  s.busy && decide (s.fp / 2 < s.dev.cbCapacity)

/-- `MemWrite(CB + i, 1, v)` (rules R29, R62, R78): with `busy = 1` a write has no meaning, wherever the
engine stands (decision D23, entry U5). -/
def cbWrite (i : Nat) (v : Byte) (s : State) : Out :=
  if s.dev.cbCapacity ≤ i then .refused (.commandBufferFull i)
  else if s.busy then .refused .writeWhilePlaying
  else .next (s.writeByte .command (s.dev.cbWinBase + i) v)

/-! ### The two registers (rules R33, R36, R69, R70) -/

/-- An access to a register of the status and control register window, as the source has them: "a "trigger
execution from offset" register write and a "currently running" + "ack-failure bits" status register
read" (rule R36). -/
inductive RegisterAccess where
  | read (offset : Nat)
  | write (offset word : Nat)
  deriving DecidableEq, Repr

/-- The access of `StatusRead()`: `STATUS_ADDR` is read (rule R8, decision D33). -/
def statusAccess (p : Params) : RegisterAccess := .read p.statusAddr

/-- The access of `TriggerWrite(X)`: `TRIGGER_ADDR` is written with the word that the trigger word format
has for the offset `X` (rules R8, R102, decision D33). -/
def triggerAccess (p : Params) (x : Nat) : RegisterAccess :=
  .write p.triggerAddr (Config.triggerWord p.triggerFormat x)

/-- `StatusRead()`: the word read; the bits above bit 2 are any value at every read (rule R33). -/
def State.statusWord (s : State) : StatusWord s.dev.statusUpper where
  busy := s.busy
  ackf := s.ackf
  upper := Config.statusUpperBits s.dev.statusUpper s.draws

/-- The state after a `StatusRead()`: nothing of the hardware changes (rule R69), one free value has been
drawn. -/
def State.afterStatusRead (s : State) : State := { s with draws := s.draws + 1 }

/-- `TriggerWrite(X)` (rules R70, R225). -/
def triggerWrite (x : Nat) (s : State) : Out :=
  if s.busy then .refused .triggerWhileBusy
  else if s.dev.cbCapacity ≤ x then .refused (.triggerBeyondBuffer x)
  else .next { s with
    busy := true, ackf := 0#2, fp := 2 * x, rcnt := 0, rptr := 0, plays := s.plays + 1 }

/-! ### The Sequence Buffer Writer (rules R170 to R177) -/

/-- `latch_full` (rule R25). -/
def Session.latchFull (q : Session) : Bool := q.ncmd % 2 == 1

/-- `cursor` (rule R26). -/
def State.cursor (s : State) (q : Session) : Nat := s.dev.txBase + q.ncmd / 2

/-- A new session (rules R22 to R24, R176). The latch is not meaningful until the first command. -/
def freshSession : Session := { ncmd := 0, latch := 0#4 }

/-- `reset_cursor` (rule R176). -/
def resetCursor (s : State) : State := { s with session := some freshSession }

/-- `write(c)`, written `emit(c)` (rule R171). -/
def emit (c : Command) (s : State) : Out :=
  match s.session with
  | none => .fault .noSession
  | some q =>
    if q.latchFull then
      andThen (cbWrite (s.cursor q) (pack q.latch (s.dev.opc.code c)) s) fun t =>
        .next { t with session := some { q with ncmd := q.ncmd + 1 } }
    else
      .next { s with session := some { ncmd := q.ncmd + 1, latch := s.dev.opc.code c } }

/-- One `emit` per command, in list order (rule R150). -/
def emitAll : List Command → State → Out
  | [], s => .next s
  | c :: cs, s => andThen (emit c s) (emitAll cs)

/-- `flush_partial()` (rule R173). -/
def flushPartial (s : State) : Out :=
  match s.session with
  | none => .fault .noSession
  | some q => if q.latchFull then emit .endCmd s else .next s

/-! ### Bus lines and samples (rules R39, R134, R135) -/

/-- Appends an event to `WIRE` (rule R40). -/
def State.record (s : State) (e : BusEvent) : State := { s with wire := s.wire ++ [e] }

/-- The event that a change of the master's data drive to `v` is (rule R134): a START when it falls, a
STOP when it rises, while the clock is high. -/
def State.edge (s : State) (v : Level) : List BusEvent :=
  match s.scl, s.sdam, v with
  | true, true, false => [.start]
  | true, false, true => [.stop]
  | true, true, true => []
  | true, false, false => []
  | false, _, _ => []

/-- `set_sda(v)` (rule R134). -/
def State.setSda (s : State) (v : Level) : State := { s with sdam := v, wire := s.wire ++ s.edge v }

/-- `set_scl(v)` (rule R134). -/
def State.setScl (s : State) (v : Level) : State := { s with scl := v }

/-- `pulse(v, act)` (rule R134): the data drive at `v`, the clock high, the action, the clock low. -/
def pulse (v : Level) (act : State → Out) (s : State) : Out :=
  andThen (act ((s.setSda v).setScl true)) fun t => .next (t.setScl false)

/-- The slave environment's drive at a sample (rule R135): the next listed answer, or a free value. -/
def State.slaveDrive (s : State) : Level :=
  match s.slave with
  | v :: _ => v
  | [] => Config.slaveLevel s.draws

/-- The level of the data line at a sample, `SDAm & SDAs` (rules R39, R135). -/
def State.sampledLevel (s : State) : Level := s.sdam && s.slaveDrive

/-- The state after a sample: the slave's answer is used up. -/
def State.afterSample (s : State) : State :=
  match s.slave with
  | _ :: rest => { s with slave := rest }
  | [] => { s with draws := s.draws + 1 }

/-- The data bit of `DataHighRead` reaches the read-assembly registers (rules R65, R131): the first of
eight ends up as bit 7, and the eighth commits the byte to `RB[rptr]`. -/
def collectBit (v : Level) (s : State) : Out :=
  if s.rcnt = 7 then
    if s.dev.rbCapacity ≤ s.rptr then .refused (.readbackFull s.rptr)
    else
      .next { s.writeByte s.dev.rbWindow (s.dev.rbBase + s.rptr) (shiftIn s.rsh v) with
        rsh := shiftIn s.rsh v, rcnt := 0, rptr := s.rptr + 1 }
  else .next { s with rsh := shiftIn s.rsh v, rcnt := s.rcnt + 1 }

/-- The acknowledge sample of `DataHighAck0` reaches `ackf` (rule R132). The subset of bits that a
failure sets is a free value. -/
def State.noteAck (s : State) (v : Level) : State :=
  { s with
    ackf := ackAfterSample v (Config.ackFailure s.draws) s.ackf
    draws := if v then s.draws + 1 else s.draws }

/-! ### Raising an error, and leaving `execute` (rules R10, R287) -/

/-- `raise <Error>`: `execute` returns that kind at once, after the exit actions of `leave`. This is all
there is of taking an exception: nothing is saved and no mode changes (rules R287, R292). -/
def raise (e : BusError) (s : State) : State := { s with phase := .done (.error e) }

/-- The exit actions, on success and on every error (rules R192, R287): the session dropped, the lock
released, the phase back to `Idle`, the result delivered to the caller `c`. -/
def leave (c : Call) (r : Result) (s : State) : State :=
  { s with
    session := none
    lock := .free
    phase := .idle
    call := none
    actionPos := 0
    returned := s.returned ++ [{ thread := c.thread, result := r, tx := c.tx }] }

end Sys2Proof.Machine
end

