-- ==== Sys2Proof/Machine/Actions.lean ====
section
/-! DEFINITION. The four actions of the Opcode Encoder and the termination, as the sequencer carries them
out: each emits its commands through the Sequence Buffer Writer (files 41_encoder.md, 44_flush_status.md). -/

namespace Sys2Proof.Machine

/-- `Start` (rule R151). -/
def execStart (s : State) : Out := emitAll startCommands s

/-- `ByteWrite b` (rule R152). -/
def execByteWrite (b : Byte) (s : State) : Out := emitAll (byteWriteCommands b) s

/-- `ByteRead N` (rule R153). -/
def execByteRead (n : Nat) (s : State) : Out := emitAll (byteReadCommands n) s

/-- `Stop` (rule R154). -/
def execStop (s : State) : Out := emitAll stopCommands s

/-- `Terminate` (rule R221): one `End`, or two when the latch is half full, then `flush_partial`. -/
def execTerminate (s : State) : Out :=
  match s.session with
  | none => .fault .noSession
  | some q => andThen (emitAll (trailingEnds q.latchFull) s) flushPartial

end Sys2Proof.Machine
end

