-- ==== Sys2Proof/Machine/Commands.lean ====
section
/-! DEFINITION. The thirteen primitive commands as the engine executes them, and the three nibble values
that name none (file 40_primitives.md, rule R94). Moving `fp` past the command is the engine's step
(rule R120). -/

namespace Sys2Proof.Machine

/-- `End` (rule R121). -/
def execEnd (s : State) : Out := .next { s with busy := false }

/-- `ClockLow` (rule R122). -/
def execClockLow (s : State) : Out := .next (s.setScl false)

/-- `ClockHigh` (rule R123). -/
def execClockHigh (s : State) : Out := .next (s.setScl true)

/-- `DataLow` (rule R124). -/
def execDataLow (s : State) : Out := .next (s.setSda false)

/-- `DataHigh` (rule R125). -/
def execDataHigh (s : State) : Out := .next (s.setSda true)

/-- `DataLowNoAck` (rule R129). -/
def execDataLowNoAck (s : State) : Out :=
  pulse false (fun t => .next (t.record (.wbit false))) s

/-- `DataHighNoAck` (rule R130). -/
def execDataHighNoAck (s : State) : Out :=
  pulse true (fun t => .next (t.record (.wbit true))) s

/-- `DataHighRead` (rule R131). -/
def execDataHighRead (s : State) : Out :=
  pulse true
    (fun t => collectBit t.sampledLevel (t.afterSample.record (.rbit t.sampledLevel))) s

/-- `DataHighAck0` (rule R132). -/
def execDataHighAck0 (s : State) : Out :=
  pulse true
    (fun t => .next ((t.afterSample.record (.acks t.sampledLevel)).noteAck t.sampledLevel)) s

/-! ### Commands of which the source gives the name only (entry U2) -/

/-- `SetAddress` (rule R126): the engine refuses. -/
def execSetAddress (_ : State) : Out := .refused (.nameOnly .setAddress)

/-- `Reset` (rules R127, R312): the engine refuses. -/
def execReset (_ : State) : Out := .refused (.nameOnly .reset)

/-- `Idle` (rule R128): the engine refuses. -/
def execIdle (_ : State) : Out := .refused (.nameOnly .idle)

/-- `DataHighAck1` (rule R133): the engine refuses. -/
def execDataHighAck1 (_ : State) : Out := .refused (.nameOnly .dataHighAck1)

/-! ### Nibble values that name no command (rule R94, entry U1) -/

/-- The nibble 0x9 (rule R94): the engine refuses. -/
def execReserved9 (_ : State) : Out := .refused (.noCommand 0x9#4)

/-- The nibble 0xA (rule R94): the engine refuses. -/
def execReservedA (_ : State) : Out := .refused (.noCommand 0xA#4)

/-- The nibble 0xB (rule R94): the engine refuses. -/
def execReservedB (_ : State) : Out := .refused (.noCommand 0xB#4)

end Sys2Proof.Machine
end

