-- ==== Sys2Proof/Machine/Dispatch.lean ====
section
/-! DEFINITION. From an instruction to its meaning: one arm per constructor. -/

namespace Sys2Proof.Machine

def exec (i : Instr) (s : State) : Host.Outcome State Fault Refusal :=
  match i with
  -- the primitive commands, executed by the engine
  | .endCmd => Sys2Proof.Machine.execEnd s
  | .setAddress => Sys2Proof.Machine.execSetAddress s
  | .clockLow => Sys2Proof.Machine.execClockLow s
  | .clockHigh => Sys2Proof.Machine.execClockHigh s
  | .dataLow => Sys2Proof.Machine.execDataLow s
  | .dataHigh => Sys2Proof.Machine.execDataHigh s
  | .reset => Sys2Proof.Machine.execReset s
  | .idle => Sys2Proof.Machine.execIdle s
  | .dataLowNoAck => Sys2Proof.Machine.execDataLowNoAck s
  | .dataHighNoAck => Sys2Proof.Machine.execDataHighNoAck s
  | .dataHighRead => Sys2Proof.Machine.execDataHighRead s
  | .dataHighAck0 => Sys2Proof.Machine.execDataHighAck0 s
  | .dataHighAck1 => Sys2Proof.Machine.execDataHighAck1 s
  -- nibble values that name no command
  | .reserved9 => Sys2Proof.Machine.execReserved9 s
  | .reservedA => Sys2Proof.Machine.execReservedA s
  | .reservedB => Sys2Proof.Machine.execReservedB s
  -- the actions of the encoder and the termination, carried out by the sequencer
  | .start => Sys2Proof.Machine.execStart s
  | .byteWrite b => Sys2Proof.Machine.execByteWrite b s
  | .byteRead n => Sys2Proof.Machine.execByteRead n s
  | .stop => Sys2Proof.Machine.execStop s
  | .terminate => Sys2Proof.Machine.execTerminate s

end Sys2Proof.Machine
end

