-- ==== Sys2Proof/Machine/Engine.lean ====
section
/-! DEFINITION. The playback engine's step: fetch, move past, execute (rules R31, R120). -/

namespace Sys2Proof.Machine

/-- The nibble at `fp`: the low nibble of its byte when `fp` is even, the high one when it is odd (rules
R31, R120). The byte is read at the moment of execution (rule R76). -/
def State.fetchNibble (s : State) : Nibble :=
  if s.fp % 2 = 0 then lowNibble (s.cbRead (s.fp / 2)) else highNibble (s.cbRead (s.fp / 2))

/-- The command at `fp` has been taken: `fp <- fp + 1` (rule R120). -/
def State.pastFetch (s : State) : State := { s with fp := s.fp + 1 }

/-- One step of the engine (rule R120), taken only when it is enabled. -/
def engineStep (s : State) : Out :=
  match decodeNibble s.dev.opc s.fetchNibble with
  | none => .refused (.noCommand s.fetchNibble)
  | some i => exec i s.pastFetch

end Sys2Proof.Machine
end

