-- ==== Sys2Proof/Machine/Driver.lean ====
section
/-! DEFINITION. The Transaction Driver's own steps: the lock, validation, its place among the encoder's
actions, readback, and the return (file 43_transaction_driver.md). -/

namespace Sys2Proof.Machine

/-! ### The interface to callers (rule R190) -/

/-- A caller thread calls `transfer`: its call waits for the lock (rules R190, R191, R298). A thread that
does not exist calls nothing (rule R8, `N_THREADS`). This is what the outside world does between
steps. -/
def transfer (c : Call) (s : State) : State :=
  if c.thread < s.dev.nThreads then { s with waiting := s.waiting ++ [c] } else s

/-! ### The lock (rules R21, R191, R192) -/

/-- The waiter that wins: the thread of the call at position `k`, with that thread's earliest waiting
call, and the calls left waiting. -/
def winner (k : Nat) (waiting : List Call) : Option (Call × List Call) :=
  match waiting[k % waiting.length]? with
  | none => none
  | some w =>
    match waiting.find? fun c => c.thread == w.thread with
    | none => none
    | some c => some (c, waiting.eraseP fun c => c.thread == w.thread)

/-- `acquire` by the call `c`, the others left waiting (rules R191, R193): the test and the set are one
step, and `execute` goes on to validation. -/
def takeLock (c : Call) (rest : List Call) (s : State) : State :=
  { s with lock := .held c.thread, call := some c, waiting := rest, phase := .validating }

/-- A waiting thread takes the free lock (rule R191). With several waiters, which one is a free value
(entry U15); while the lock is held nobody takes it. -/
def acquire (s : State) : Out :=
  match s.lock, s.waiting with
  | .held _, _ => .next s
  | .free, [] => .next s
  | .free, [c] => .next (takeLock c [] s)
  | .free, c :: d :: cs =>
    match winner (Config.nextWaiter s.draws) (c :: d :: cs) with
    | none => .next s
    | some (w, rest) => .next (takeLock w rest { s with draws := s.draws + 1 })

/-! ### Validation and encoding (rules R193 to R196) -/

/-- `Validating`: `UnsupportedTransaction`, or a new session and the first message (rules R193, R194). -/
def validateStep (s : State) : Out :=
  match s.call with
  | none => .fault .noCall
  | some c =>
    if validate c.tx then .next { resetCursor s with phase := .encoding 0, actionPos := 0 }
    else .next (raise .unsupportedTransaction s)

/-- The message of index `i` of the transaction in hand. -/
def State.message (s : State) (i : Nat) : Option Message :=
  match s.call with
  | none => none
  | some c => c.tx[i]?

/-- The encoder's action the sequencer carries out next (rules R193, R195, R196, R220). -/
def State.nextAction (s : State) : Option Instr :=
  match s.phase with
  | .encoding i =>
    match s.message i with
    | none => none
    | some m => m.actions[s.actionPos]?
  | .stopping => some .stop
  | .terminating => some .terminate
  | .idle => none
  | .validating => none
  | .preWait _ => none
  | .triggering => none
  | .postWait _ => none
  | .decoding => none
  | .readback _ => none
  | .done _ => none

/-- Where the sequencer stands after an action (rule R193): the next action of the message, the next
message, `Stopping`, `Terminating`, the pre-trigger wait. -/
def advance (s : State) : State :=
  match s.phase with
  | .encoding i =>
    match s.message i, s.message (i + 1) with
    | some m, next =>
      if s.actionPos + 1 < m.actions.length then { s with actionPos := s.actionPos + 1 }
      else
        match next with
        | some _ => { s with phase := .encoding (i + 1), actionPos := 0 }
        | none => { s with phase := .stopping, actionPos := 0 }
    | none, _ => s
  | .stopping => { s with phase := .terminating }
  | .terminating => { s with phase := .preWait 0 }
  | .idle => s
  | .validating => s
  | .preWait _ => s
  | .triggering => s
  | .postWait _ => s
  | .decoding => s
  | .readback _ => s
  | .done _ => s

/-! ### Readback (rule R200) -/

/-- The index in `RB` of the first byte of message `i`: the bytes of the read messages before it. -/
def readOffset (tx : Transaction) (i : Nat) : Nat := readBytes (tx.take i)

/-- `n` bytes of the readback window from index `j` (rule R200). -/
def State.rbBytes (s : State) (j n : Nat) : List Byte := (List.range n).map fun k => s.rbRead (j + k)

/-- The message with the received bytes in its result buffer. -/
def Message.withResult (m : Message) (bytes : List Byte) : Message :=
  match m with
  | .write a p => .write a p
  | .read a _ => .read a bytes

/-- The phase after message `i` has been copied out: the next message, or `Done(Ok)` (rule R193). -/
def afterReadback (tx : Transaction) (i : Nat) : Phase :=
  if i + 1 < tx.length then .readback (i + 1) else .done .ok

/-- `Readback(i)`: a read message's result buffer gets its bytes (rule R200); the bytes must lie in the
window (rule R29, entry U4). -/
def readbackStep (i : Nat) (s : State) : Out :=
  match s.call with
  | none => .fault .noCall
  | some c =>
    match c.tx[i]? with
    | none => .fault .noAction
    | some m =>
      if s.dev.rbCapacity < readOffset c.tx i + m.readLength then
        .refused (.readbackFull (readOffset c.tx i + m.readLength))
      else
        .next { s with
          call := some
            { c with
              tx := c.tx.set i
                (m.withResult (s.rbBytes (readOffset c.tx i) m.readLength)) }
          phase := afterReadback c.tx i }

/-! ### The return (rules R192, R193, R287) -/

/-- `Done(r)`: the exit actions, and the result goes to the caller. -/
def doneStep (r : Result) (s : State) : Out :=
  match s.call with
  | none => .fault .noCall
  | some c => .next (leave c r s)

end Sys2Proof.Machine
end

