-- ==== Sys2Proof/Machine/Flush.lean ====
section
/-! DEFINITION. The Flush & Status Controller's steps after the termination: the two waits, the trigger,
the decode (file 44_flush_status.md). Each poll of a wait is one step. -/

namespace Sys2Proof.Machine

/-- The register access that the sequencer's next step performs, with the parameters of rule R8 in place
(rules R36, R102, R220): a poll and the decode read the status word, the trigger is written with
`TX_BASE`; no other step touches a register. -/
def State.registerAccess (s : State) : Option RegisterAccess :=
  match s.phase with
  | .preWait _ => some (statusAccess s.dev)
  | .triggering => some (triggerAccess s.dev s.dev.txBase)
  | .postWait _ => some (statusAccess s.dev)
  | .decoding => some (statusAccess s.dev)
  | .idle => none
  | .validating => none
  | .encoding _ => none
  | .stopping => none
  | .terminating => none
  | .readback _ => none
  | .done _ => none

/-- `PreWait(k)`: one poll of the pre-trigger wait (rules R222, R223). `Sleep` changes no state. -/
def preWaitStep (k : Nat) (s : State) : Out :=
  if s.statusWord.busy then
    if boundExhausted s.dev.preWaitBound k then .next (raise .timeout s.afterStatusRead)
    else .next { s.afterStatusRead with phase := .preWait (k + 1) }
  else .next { s.afterStatusRead with phase := .triggering }

/-- `Triggering`: `TriggerWrite(TX_BASE)` (rules R220, R225). -/
def triggerStep (s : State) : Out :=
  andThen (triggerWrite s.dev.txBase s) fun t => .next { t with phase := .postWait 0 }

/-- `PostWait(k)`: one poll of the post-trigger wait, whose result is not tested (rules R222, R226). -/
def postWaitStep (k : Nat) (s : State) : Out :=
  if s.statusWord.busy && !boundExhausted s.dev.postWaitBound k then
    .next { s.afterStatusRead with phase := .postWait (k + 1) }
  else .next { s.afterStatusRead with phase := .decoding }

/-- `Decoding`: the status is read once more and decoded (rules R220, R227). -/
def decodeStep (s : State) : Out :=
  match decodeStatus s.statusWord with
  | .ok => .next { s.afterStatusRead with phase := .readback 0 }
  | .error e => .next (raise e s.afterStatusRead)

end Sys2Proof.Machine
end

