-- ==== Sys2Proof/Machine/Sequencer.lean ====
section
/-! DEFINITION. The sequencer's step, by phase (rules R27, R193, R220). -/

namespace Sys2Proof.Machine

/-- The sequencer has a step: it is inside `execute`, or a thread waits and the lock is free (rules R191,
R193, R313). -/
def State.sequencerEnabled (s : State) : Bool :=
  match s.phase with
  | .idle => decide (s.lock = .free) && !s.waiting.isEmpty
  | .validating => true
  | .encoding _ => true
  | .stopping => true
  | .terminating => true
  | .preWait _ => true
  | .triggering => true
  | .postWait _ => true
  | .decoding => true
  | .readback _ => true
  | .done _ => true

/-- The encoder's next action is carried out, and the sequencer moves on (rule R193). -/
def actionStep (s : State) : Out :=
  match s.nextAction with
  | none => .fault .noAction
  | some i => andThen (exec i s) fun t => .next (advance t)

/-- One step of the sequencer (rules R193, R220). -/
def sequencerStep (s : State) : Out :=
  match s.phase with
  | .idle => acquire s
  | .validating => validateStep s
  | .encoding _ => actionStep s
  | .stopping => actionStep s
  | .terminating => actionStep s
  | .preWait k => preWaitStep k s
  | .triggering => triggerStep s
  | .postWait k => postWaitStep k s
  | .decoding => decodeStep s
  | .readback i => readbackStep i s
  | .done r => doneStep r s

end Sys2Proof.Machine
end

