-- ==== Sys2Proof/Machine/Scheduler.lean ====
section
/-! DEFINITION. Which agent moves, and how an instruction is placed where the next step fetches it. -/

namespace Sys2Proof.Machine

/-- The agent whose step is next, and the state in which it takes it; none when nobody has a step (rules
R12, R226, R327). Only when both the engine and the sequencer could move is there a choice, and the
choice is free: the next one State lists, or a free value. -/
def State.turn (s : State) : Option (Agent × State) :=
  match s.engineEnabled, s.sequencerEnabled with
  | false, false => none
  | true, false => some (.engine, s)
  | false, true => some (.sequencer, s)
  | true, true =>
    match s.sched with
    | a :: rest => some (a, { s with sched := rest })
    | [] => some (Config.nextAgent s.draws, { s with draws := s.draws + 1 })

/-- The step of the agent whose turn it is. With nobody enabled the state stays as it is: the system is
quiescent (rule R327) or the engine is stuck for ever (rule R32). -/
def turnStep (s : State) : Out :=
  match s.turn with
  | none => .next s
  | some (.engine, t) => engineStep t
  | some (.sequencer, t) => sequencerStep t

/-! ### Placing an instruction -/

/-- The next choice, if there is one to make, falls on `a`. -/
def State.letNext (a : Agent) (s : State) : State :=
  if s.engineEnabled && s.sequencerEnabled then { s with sched := a :: s.sched } else s

/-- A byte placed at the engine's fetch pointer, the engine running and next to move: with `fp` at a low
nibble the whole byte, at a high nibble its low nibble there. A fetch pointer outside the buffer first
goes where a playback starts (rules R31, R70). -/
def State.placeCommand (s : State) (b : Byte) : State :=
  let p : State :=
    if s.fp / 2 < s.dev.cbCapacity then { s with busy := true }
    else { s with busy := true, fp := 2 * s.dev.txBase }
  let v : Byte := if p.fp % 2 = 0 then b else pack (lowNibble (p.cbRead (p.fp / 2))) (lowNibble b)
  (p.writeByte .command (p.dev.cbWinBase + p.fp / 2) v).letNext .engine

/-- The sequencer inside `execute` of `tx`, at the given phase and place, with the engine idle, and next to
move. -/
def State.placeAction (s : State) (tx : Transaction) (ph : Phase) (pos : Nat) : State :=
  ({ s with
    lock := .held 0
    call := some { thread := 0, tx := tx }
    session := some (s.session.getD freshSession)
    busy := false
    phase := ph
    actionPos := pos } : State).letNext .sequencer

/-- The instruction `i`, whose row stands in the bits of `w`, placed where the next step fetches it: a
command in the command buffer, an encoder's action as the next one of a transaction whose encoding
calls for it. -/
def State.placeInstr (s : State) (w : Nat) : Instr → State
  | .endCmd => s.placeCommand (BitVec.ofNat 8 w)
  | .setAddress => s.placeCommand (BitVec.ofNat 8 w)
  | .clockLow => s.placeCommand (BitVec.ofNat 8 w)
  | .clockHigh => s.placeCommand (BitVec.ofNat 8 w)
  | .dataLow => s.placeCommand (BitVec.ofNat 8 w)
  | .dataHigh => s.placeCommand (BitVec.ofNat 8 w)
  | .reset => s.placeCommand (BitVec.ofNat 8 w)
  | .idle => s.placeCommand (BitVec.ofNat 8 w)
  | .dataLowNoAck => s.placeCommand (BitVec.ofNat 8 w)
  | .dataHighNoAck => s.placeCommand (BitVec.ofNat 8 w)
  | .dataHighRead => s.placeCommand (BitVec.ofNat 8 w)
  | .dataHighAck0 => s.placeCommand (BitVec.ofNat 8 w)
  | .dataHighAck1 => s.placeCommand (BitVec.ofNat 8 w)
  | .reserved9 => s.placeCommand (BitVec.ofNat 8 w)
  | .reservedA => s.placeCommand (BitVec.ofNat 8 w)
  | .reservedB => s.placeCommand (BitVec.ofNat 8 w)
  | .start => s.placeAction [.write 0#7 []] (.encoding 0) 0
  | .byteWrite b => s.placeAction [.write 0#7 [b]] (.encoding 0) 2
  | .byteRead n => s.placeAction [.write 0#7 [], .read 0#7 (List.replicate n 0#8)] (.encoding 1) 2
  | .stop => s.placeAction [.write 0#7 []] .stopping 0
  | .terminate => s.placeAction [.write 0#7 []] .terminating 0

end Sys2Proof.Machine
end

