-- ==== Sys2Proof/Machine/Step.lean ====
section
/-! DEFINITION. One step of the machine, and the placing of an instruction where it fetches. -/

namespace Sys2Proof.Machine

/-- One step: the agent whose turn it is takes its step. -/
def step (s : State) : Host.Outcome State Fault Refusal := turnStep s

/-- The instruction whose bits are `w`, stored where `step` fetches its next instruction
(notes/assumptions/20.md). -/
def State.withFetchWord (s : State) (nbits w : Nat) : State :=
  match decodeTableWord nbits w with
  | none => s
  | some i => s.placeInstr w i

end Sys2Proof.Machine
end

