-- ==== Sys2Proof/Machine/Tuner.lean ====
section
/-! DEFINITION. The Tuner Frequency Programmer, a client of the block and outside its boundary (rule R5,
file 45_tuner_client.md): it is no part of State and reaches the block only through `transfer`. -/

namespace Sys2Proof.Machine

/-! ### The frequency word (rules R252, R253) -/

/-- One of the six iterations of rule R252 on the word, the remainder and the divisor: doubling the word,
halving the divisor, subtracting it where it goes. -/
def freqIteration (f rem div : Nat) : Nat × Nat × Nat :=
  if div / 2 ≤ rem then (2 * f + 1, rem - div / 2, div / 2) else (2 * f, rem, div / 2)

/-- `n` iterations. -/
def freqIterations : Nat → Nat × Nat × Nat → Nat × Nat × Nat
  | 0, q => q
  | n + 1, (f, rem, div) => freqIterations n (freqIteration f rem div)

/-- The rounding bump: a leftover above 7812 adds one (rule R252). -/
def freqBump : Nat × Nat × Nat → Nat
  | (f, rem, _) => if 7812 < rem then f + 1 else f

/-- `freq_word(target_hz)` (rule R252). -/
def freqWord (targetHz : BitVec 32) : Nat :=
  freqBump (freqIterations 6 (targetHz.toNat / 1000000, targetHz.toNat % 1000000, 1000000))

/-! ### Spur avoidance (rule R255) -/

/-- A spur-shift byte pair (rule R255). -/
structure SpurShift where
  value : Byte
  direction : Byte
  deriving DecidableEq, Repr

/-- An entry of `SPUR_TABLE` (rule R255). -/
structure SpurEntry where
  center : Nat
  tolerance : Nat
  shift : SpurShift
  deriving DecidableEq, Repr

/-- The target lies within the entry's tolerance of its center, the boundary included (decision D31). -/
def SpurEntry.covers (e : SpurEntry) (target : Nat) : Bool :=
  decide (target ≤ e.center + e.tolerance) && decide (e.center ≤ target + e.tolerance)

/-- `spur_lookup(target_hz)`: the first entry that covers the target, or the inert default (rule R255). -/
def spurLookup (table : List SpurEntry) (inert : SpurShift) (target : Nat) : SpurShift :=
  match table.find? fun e => e.covers target with
  | some e => e.shift
  | none => inert

/-! ### The register program (rules R254, R256) -/

/-- A write to a register of the tuner (rules R256, R258): the chip's address, then the register and at
least one value. The data is not in the source (entry N11). -/
structure RegisterWrite where
  address : BitVec 7
  register : Byte
  value : Byte
  more : List Byte
  deriving DecidableEq, Repr

/-- The bytes of a register write. -/
def RegisterWrite.payload (w : RegisterWrite) : List Byte := w.register :: w.value :: w.more

/-- The message of a register write. -/
def RegisterWrite.message (w : RegisterWrite) : Message := .write w.address w.payload

/-- A register of the tuner that is read (rule R257): the chip's address and the bytes that name the
register. The data is not in the source (entry N11). -/
structure RegisterRead where
  address : BitVec 7
  register : Byte
  more : List Byte
  deriving DecidableEq, Repr

/-- The one write-then-read transaction that reads the register, with `b` in its result buffer (rule
R257). -/
def RegisterRead.transaction (r : RegisterRead) (b : Byte) : Transaction :=
  [.write r.address (r.register :: r.more), .read r.address [b]]

/-- Which bit of the frequency word each bit of one byte carries, bit 0 of the byte first (rule R254). -/
abbrev ByteLayout := Vector (Fin 16) 8

/-- The byte that carries those bits of the frequency word `f`. -/
def layoutByte (l : ByteLayout) (f : Nat) : Byte :=
  (BitVec.ofBoolListLE (l.toList.map fun k => f.testBit k.val)).setWidth 8

/-- How the two bytes are sent (rule R254): in one message, or each in its own; the register and the bytes
beside them are not in the source (entry N11). -/
inductive SplitWrite where
  | together (address : BitVec 7) (register : Byte) (before between after : List Byte)
  | apart (address : BitVec 7) (register : Byte) (before after : List Byte)
      (address' : BitVec 7) (register' : Byte) (before' after' : List Byte)
  deriving DecidableEq, Repr

/-- The messages that carry the two bytes `b` and `c`, with the messages `gap` between two that are apart
(rule R254). -/
def SplitWrite.messages (b c : Byte) (gap : List Message) : SplitWrite → List Message
  | .together a r before between after => [.write a (r :: before ++ b :: between ++ c :: after)]
  | .apart a r before after a' r' before' after' =>
    .write a (r :: before ++ b :: after) :: gap ++ [.write a' (r' :: before' ++ c :: after')]

/-- The tuner's data that the source does not give (entry N11): `SPUR_TABLE`, `INERT`, the writes of the
register program, the lock-status register, `LOCK_MASK`, the write of automatic gain control. -/
structure TunerDevice where
  spurTable : List SpurEntry
  inert : SpurShift
  abortTune : RegisterWrite
  bandwidth : RegisterWrite
  frequencyFirst : ByteLayout
  frequencySecond : ByteLayout
  frequency : SplitWrite
  startTune : RegisterWrite
  lockStatus : RegisterRead
  lockMask : Byte
  gainControl : RegisterWrite
  deriving DecidableEq, Repr

/-- The two layouts together carry every bit of a word that two bytes can hold: the word is written split
across them and is not cut to fourteen bits (rule R254, conflict C7, decision D31). -/
def TunerDevice.carriesWord (dev : TunerDevice) : Bool :=
  (List.finRange 16).all fun k => decide (k ∈ dev.frequencyFirst.toList ++ dev.frequencySecond.toList)

/-- `LOCK_MASK` has exactly the two specific bits of rule R257. -/
def TunerDevice.masksTwoBits (dev : TunerDevice) : Bool :=
  (List.range 8).countP (fun k => dev.lockMask.getLsbD k) == 2

/-- The constraints on the tuner's data. -/
def TunerDevice.wf (dev : TunerDevice) : Bool := dev.carriesWord && dev.masksTwoBits

/-- The two bytes of a word that two bytes cannot hold, as targets from 1024 MHz on have: the word is not
cut (decision D31) and the spec does not say how it is split, so they are a free value. -/
opaque Config.wideWordBytes : Nat → Byte × Byte

/-- The two bytes across which the frequency word `f` is written split (rule R254). -/
def frequencyBytes (dev : TunerDevice) (f : Nat) : Byte × Byte :=
  if f < 2 ^ 16 then (layoutByte dev.frequencyFirst f, layoutByte dev.frequencySecond f)
  else Config.wideWordBytes f

/-- The register writes that apply a spur shift (rules R15, R255) at one of the four places between the
writes of rule R256: where they stand and what they write is not in the source (entry N11), so they are
a free value, and there may be none. -/
opaque Config.spurWrites : SpurShift → Nat → List RegisterWrite

/-- Their messages. -/
def spurMessages (shift : SpurShift) (place : Nat) : List Message :=
  (Config.spurWrites shift place).map RegisterWrite.message

/-- There is a settling pause after the write of this place in the register program for a frequency word
and a spur shift (rule R256): which places have one is not in the source (entry N11). -/
opaque Config.pauseAfter : Nat → SpurShift → Nat → Bool

/-- The messages of the register program in order (rule R256): abort-tune, bandwidth, the frequency word
`f` split across two bytes, start-tune. -/
def programMessages (dev : TunerDevice) (f : Nat) (shift : SpurShift) : List Message :=
  dev.abortTune.message :: spurMessages shift 0 ++
    dev.bandwidth.message :: spurMessages shift 1 ++
    dev.frequency.messages (frequencyBytes dev f).1 (frequencyBytes dev f).2 (spurMessages shift 2) ++
    spurMessages shift 3 ++ [dev.startTune.message]

/-- The messages from place `k` on as transactions (rule R256), `inHand` being those already in the one in
hand: a pause ends a transaction, and so does the third message (rule R8, `MAX_MSGS`). -/
def groupMessages (pause : Nat → Bool) (k : Nat) (inHand : List Message) : List Message → List Transaction
  | [] => if inHand = [] then [] else [inHand]
  | m :: ms =>
    if pause k || decide (maxMessages ≤ inHand.length + 1) then
      (inHand ++ [m]) :: groupMessages pause (k + 1) [] ms
    else groupMessages pause (k + 1) (inHand ++ [m]) ms

/-- The assembled register program for the frequency word `f` and a spur shift, as the transactions that
write it, one `transfer` each (rule R256). -/
def tunerProgram (dev : TunerDevice) (f : Nat) (shift : SpurShift) : List Transaction :=
  groupMessages (Config.pauseAfter f shift) 0 [] (programMessages dev f shift)

/-! ### The state machine (rules R251, R256 to R259) -/

/-- The states of `tune` (rule R251). `gainControl` is the state after lock has been seen and before the
postcondition write of rule R258; `failed` is the end by a failed sub-transaction. -/
inductive TuneState where
  | idle
  | programming (todo : List Transaction)
  | polling (attempt : Nat)
  | gainControl
  | locked
  | timedOut
  | failed (e : BusError)
  deriving DecidableEq, Repr

/-- The errors of `tune`: `Timeout` and every error that a transfer can return, which has a `Timeout` of its
own under the same name (rules R250, R259, entry N12). -/
abbrev TuneError := BusError

/-- What `tune` returns (rules R250, R259). -/
inductive TuneResult where
  | ok
  | error (e : TuneError)
  deriving DecidableEq, Repr

/-- Polls of the lock-status register before the budget of 100 ms at 1 ms is used up (rule R257). -/
def tunePolls : Nat := 100

/-- `Idle` to `Programming` (rules R250, R251). -/
def tuneStart (dev : TunerDevice) (targetHz : BitVec 32) : TuneState :=
  .programming
    (tunerProgram dev (freqWord targetHz) (spurLookup dev.spurTable dev.inert targetHz.toNat))

/-- The transfer the programmer issues next (rules R256, R257, R258). -/
def tuneCall (dev : TunerDevice) : TuneState → Option Transaction
  | .idle => none
  | .programming [] => none
  | .programming (tx :: _) => some tx
  | .polling _ => some (dev.lockStatus.transaction 0#8)
  | .gainControl => some [dev.gainControl.message]
  | .locked => none
  | .timedOut => none
  | .failed _ => none

/-- The lock-status value that a returned poll holds, if it holds one: the byte its read received. -/
def receivedStatus (tx : Transaction) : Option Byte :=
  match tx with
  | [.write _ _, .read _ [b]] => some b
  | _ => none

/-- Both required bits are set on the same read (rule R257). -/
def lockSeen (dev : TunerDevice) (tx : Transaction) : Bool :=
  match receivedStatus tx with
  | some b => b &&& dev.lockMask == dev.lockMask
  | none => false

/-- After a transfer has returned (rules R251, R256 to R259): a failed one ends the machine. -/
def tuneNext (dev : TunerDevice) (st : TuneState) (r : Result) (tx : Transaction) : TuneState :=
  match st, r with
  | .programming [], _ => .polling 0
  | .programming (_ :: []), .ok => .polling 0
  | .programming (_ :: t :: ts), .ok => .programming (t :: ts)
  | .programming (_ :: _), .error e => .failed e
  | .polling a, .ok =>
    if lockSeen dev tx then .gainControl
    else if a + 1 < tunePolls then .polling (a + 1)
    else .timedOut
  | .polling _, .error e => .failed e
  | .gainControl, .ok => .locked
  | .gainControl, .error e => .failed e
  | .idle, _ => .idle
  | .locked, _ => .locked
  | .timedOut, _ => .timedOut
  | .failed e, _ => .failed e

/-- What `tune` returns, once it has ended (rules R251, R259): a lock not reached is the same error as a
transfer's `Timeout`. -/
def tuneResult : TuneState → Option TuneResult
  | .idle => none
  | .programming _ => none
  | .polling _ => none
  | .gainControl => none
  | .locked => some .ok
  | .timedOut => some (.error .timeout)
  | .failed e => some (.error e)

end Sys2Proof.Machine
end

