-- ==== Sys2Proof/Safety.lean ====
section
/-! DEFINITION. The terms claims are stated in: the invariant of the machine, what an emission leaves in
the command buffer, playing a list of commands, and the bus events of a transaction. -/

namespace Sys2Proof.Machine

/-! ### The invariant -/

/-- An offset of a window inside the command buffer or the readback window (rules R60, R62, R63). -/
def regionHolds (p : Params) (w : Window) (a : Nat) : Prop :=
  (w = .command ∧ p.cbWinBase ≤ a ∧ a < p.cbWinBase + p.cbCapacity) ∨
    (w = p.rbWindow ∧ p.rbBase ≤ a ∧ a < p.rbBase + p.rbCapacity)

/-- A call is in hand, its thread holds the lock, and the call has the property `P` (rules R191, R193). -/
def State.inCall (s : State) (P : Call → Prop) : Prop :=
  ∃ c, s.call = some c ∧ s.lock = .held c.thread ∧ P c

/-- What each phase of `execute` rests on (rules R21, R22, R191, R193): outside `execute` the lock is free
and there is no session; inside it the caller's thread holds the lock; from the encoding on the
transaction is valid and there is a session. The engine is idle where the driver has seen it idle: at
the trigger (rules R74, R225), at the readback, and at the decode when the wait before it is unbounded
(rule R227). -/
def State.phaseOk (s : State) : Prop :=
  match s.phase with
  | .idle => s.lock = .free ∧ s.call = none ∧ s.session = none
  | .validating => (s.inCall fun _ => True) ∧ s.session = none
  | .encoding i =>
    (s.inCall fun c => validate c.tx = true ∧
      ∃ m, c.tx[i]? = some m ∧ s.actionPos < m.actions.length) ∧ s.session.isSome = true
  | .stopping => (s.inCall fun c => validate c.tx = true) ∧ s.session.isSome = true
  | .terminating => (s.inCall fun c => validate c.tx = true) ∧ s.session.isSome = true
  | .preWait _ => (s.inCall fun c => validate c.tx = true) ∧ s.session.isSome = true
  | .triggering =>
    (s.inCall fun c => validate c.tx = true) ∧ s.session.isSome = true ∧ s.busy = false
  | .postWait _ => (s.inCall fun c => validate c.tx = true) ∧ s.session.isSome = true
  | .decoding =>
    (s.inCall fun c => validate c.tx = true) ∧ s.session.isSome = true ∧
      (s.dev.postWaitBound = .inf → s.busy = false)
  | .readback i =>
    (s.inCall fun c => validate c.tx = true ∧ i < c.tx.length) ∧ s.session.isSome = true ∧
      s.busy = false
  | .done _ => s.inCall fun _ => True

/-- The invariant of the machine: the parameters meet their constraints, both windows are in canonical
form and list only bytes of the command buffer and the readback window, the session's cursor and the
engine's readback pointer stay inside their regions (rules R23, R29), and the phase rests on what it
needs. -/
structure Inv (s : State) : Prop where
  params : s.dev.wf = true
  commandCanonical : Memory.wf s.commandWin
  controlCanonical : Memory.wf s.controlWin
  commandCells : ∀ c ∈ s.commandWin, regionHolds s.dev .command c.1
  controlCells : ∀ c ∈ s.controlWin, regionHolds s.dev .control c.1
  cursorInBuffer : ∀ q, s.session = some q → s.cursor q ≤ s.dev.cbCapacity
  readbackInWindow : s.rptr ≤ s.dev.rbCapacity
  phases : s.phaseOk

/-- A machine that may run a transfer: no thread inside `transfer`, the engine idle, the bus idle (rules
R311, R327). -/
structure Ready (s : State) : Prop where
  inv : Inv s
  phase : s.phase = .idle
  engine : s.busy = false
  clock : s.scl = true
  data : s.sdam = true
  bits : s.rcnt = 0

/-! ### What an emission leaves in the command buffer -/

/-- The nibble at position `k` of the session's stream: in its committed byte, the low nibble first, or,
for the last of an odd count, in the latch (rules R172, R175). -/
def State.streamNibble (s : State) (q : Session) (k : Nat) : Nibble :=
  if k / 2 < q.ncmd / 2 then
    (if k % 2 = 0 then lowNibble (s.cbRead (s.dev.txBase + k / 2))
    else highNibble (s.cbRead (s.dev.txBase + k / 2)))
  else q.latch

/-- From `s` with session `q` to `t`, exactly the commands `cs` have been emitted (rules R171, R172): the
stream's earlier positions hold what they held, its next ones hold the commands, and nothing but the
session and the command-buffer bytes from the old cursor up to the new one has changed. -/
def Emitted (cs : List Command) (s : State) (q : Session) (t : State) : Prop :=
  ∃ q' : Session, t.session = some q' ∧ q'.ncmd = q.ncmd + cs.length ∧
    t = { s with session := some q', commandWin := t.commandWin } ∧
    (∀ k, k < q.ncmd → t.streamNibble q' k = s.streamNibble q k) ∧
    (∀ k c, cs[k]? = some c → t.streamNibble q' (q.ncmd + k) = s.dev.opc.code c) ∧
    ∀ a, a < s.dev.cbWinBase + s.cursor q ∨ s.dev.cbWinBase + s.cursor q' ≤ a →
      t.readByte .command a = s.readByte .command a

/-- The room an emission of `n` commands needs: `busy` is 0, and every byte it commits lies in
the command buffer (rules R29, R78). -/
def State.canEmit (s : State) (q : Session) (n : Nat) : Prop :=
  s.session = some q ∧ s.busy = false ∧ s.dev.txBase + (q.ncmd + n) / 2 ≤ s.dev.cbCapacity

/-! ### Playing commands on the engine -/

/-- The commands executed one after the other, as the engine does between two fetches (rule R120). -/
def play : List Command → State → Out
  | [], s => .next s
  | c :: cs, s => andThen (exec c.toInstr s) (play cs)

/-- `n` steps of the machine, stopping at the first fault or refusal. -/
def run : Nat → State → Out
  | 0, s => .next s
  | n + 1, s => andThen (step s) (run n)

/-- `n` steps of the engine while it is enabled (rule R120). -/
def engineRun : Nat → State → Out
  | 0, s => .next s
  | n + 1, s => if s.engineEnabled then andThen (engineStep s) (engineRun n) else .next s

/-- `n` steps of the sequencer (rule R193). -/
def sequencerRun : Nat → State → Out
  | 0, s => .next s
  | n + 1, s => andThen (sequencerStep s) (sequencerRun n)

/-- A command that a sequencer-produced stream holds before its termination (rule R95). -/
def playedCommand : Command → Bool
  | .endCmd => false
  | .setAddress => false
  | .clockLow => true
  | .clockHigh => true
  | .dataLow => true
  | .dataHigh => true
  | .reset => false
  | .idle => false
  | .dataLowNoAck => true
  | .dataHighNoAck => true
  | .dataHighRead => true
  | .dataHighAck0 => true
  | .dataHighAck1 => false

/-- The nibble the engine fetches at position `p` (rule R31). -/
def State.nibbleAt (s : State) (p : Nat) : Nibble :=
  if p % 2 = 0 then lowNibble (s.cbRead (p / 2)) else highNibble (s.cbRead (p / 2))

/-! ### The bus events of a transaction (rule R204) -/

/-- The bits of a byte, most significant first (rule R65). -/
def byteBits (b : Byte) : List Bool := [7, 6, 5, 4, 3, 2, 1, 0].map fun i => b.getLsbD i

/-- A written byte that is acknowledged. -/
def writtenByte (b : Byte) : List BusEvent := (byteBits b).map .wbit ++ [.acks false]

/-- Received bytes: the master acknowledges each but the last. -/
def receivedBytes : List Byte → List BusEvent
  | [] => []
  | [d] => (byteBits d).map .rbit ++ [.wbit true]
  | d :: e :: ds => (byteBits d).map .rbit ++ .wbit false :: receivedBytes (e :: ds)

/-- The events of one message, every byte acknowledged, a read receiving the bytes of its buffer. -/
def Message.events : Message → List BusEvent
  | .write a p => .start :: (writtenByte (Machine.addressByte a false) ++ p.flatMap writtenByte)
  | .read a r => .start :: (writtenByte (Machine.addressByte a true) ++ receivedBytes r)

/-- The events of a transaction: its messages in order, and one STOP. -/
def busEvents (tx : Transaction) : List BusEvent := tx.flatMap Message.events ++ [.stop]

/-- What the slaves drive at the samples of a message when they acknowledge every byte and send the bytes
of a read's buffer. -/
def Message.answers : Message → List Level
  | .write _ p => List.replicate (1 + p.length) false
  | .read _ r => false :: r.flatMap byteBits

/-- What the slaves drive at the samples of a transaction. -/
def slaveAnswers (tx : Transaction) : List Level := tx.flatMap Message.answers

/-- The bytes of a transaction's read buffers in message order. -/
def receivedData (tx : Transaction) : List Byte :=
  tx.flatMap fun m => match m with
    | .write _ _ => []
    | .read _ r => r

/-- The same transaction with the caller's buffers as they were before: same messages, same lengths, any
contents in the result buffers. -/
def sameShape : Transaction → Transaction → Prop
  | [], [] => True
  | .write a p :: tx, .write b q :: ux => a = b ∧ p = q ∧ sameShape tx ux
  | .read a r :: tx, .read b u :: ux => a = b ∧ r.length = u.length ∧ sameShape tx ux
  | [], _ :: _ => False
  | _ :: _, [] => False
  | .write _ _ :: _, .read _ _ :: _ => False
  | .read _ _ :: _, .write _ _ :: _ => False

end Sys2Proof.Machine
end

