-- ==== Sys2Proof/Certificates/Slice0/Obligations.lean ====
section
/-! DEFINITION. The statements for the provers. -/

open Sys2Proof Sys2Proof.Machine

/-! ### Encodings and packing -/

/-- Rule R96: `unpack` and `pack` are inverse to each other, both ways, and the first command lies in bits
3:0, the second in bits 7:4. -/
def Obligations.PackAndUnpackAreInverse : Prop :=
  (∀ lo hi : Nibble, unpack (pack lo hi) = (lo, hi) ∧
    (pack lo hi).toNat = lo.toNat + 16 * hi.toNat) ∧
  (∀ b : Byte, pack (unpack b).1 (unpack b).2 = b) ∧
  pack 0x5#4 0x3#4 = 0x35#8

/-- Rule R92 (the spec's decisions D1 to D3 give the values; log entry 1), the words of the table: each
nibble value decodes to the command it stands for, and the three values of rule R94 to the reserved
instructions. That 0x5342, the table's number for the four nibbles of `Start`, decodes to `Start` rests on
log entry 19 for how a longer word of the table is numbered. -/
def Obligations.TableWordsDecode : Prop :=
  (List.range 16).map (decodeTableWord 8) =
    [some .endCmd, some .setAddress, some .clockLow, some .clockHigh, some .dataLow, some .dataHigh,
     some .reset, some .idle, some .dataLowNoAck, some .reserved9, some .reservedA, some .reservedB,
     some .dataHighNoAck, some .dataHighRead, some .dataHighAck0, some .dataHighAck1] ∧
  decodeTableWord 16 0x5342 = some .start

/-- Decode and encode agree: under every opcode table of distinct values, every well-formed instruction,
followed by anything, decodes from its encoding to itself and leaves what follows (rules R90, R107). -/
def Obligations.DecodeOfEncode : Prop :=
  ∀ (t : OpcTable) (latchFull : Bool) (i : Instr) (rest : List Nibble),
    t.wf = true → i.wf = true → i.encodable t = true →
      decode t latchFull i.layer (encode t latchFull i ++ rest) = some (i, rest)

/-- Rules R103 and R104: under every opcode table of distinct values the byte image of every valid
transaction, with its termination, parses back to exactly the actions that wrote it, and, whatever bytes
stand after it in the buffer, to exactly their bus events: per message a START, its address byte and its
payload as written bytes, or its received bytes with the last not acknowledged; then one STOP, and the
first `End` ends the stream. -/
def Obligations.StreamParsesBack : Prop :=
  ∀ (t : OpcTable) (tx : Transaction), t.wf = true → validate tx = true →
    scanStream t (packAll t.endCmd
      ((streamCommands tx ++ terminateCommands ((streamCommands tx).length % 2 == 1)).map t.code)) =
        some (streamActions tx) ∧
    ∀ after : List Byte,
      streamEvents t (packAll t.endCmd
        ((streamCommands tx ++
          terminateCommands ((streamCommands tx).length % 2 == 1)).map t.code) ++ after) =
        some ((tx.flatMap fun m =>
          [.start, .written m.addressByte] ++
            match m with
            | .write _ p => p.map .written
            | .read _ r => List.replicate (r.length - 1) (.byteRead true) ++ [.byteRead false])
          ++ [.stop])

/-- Rule R98 (a read's direction bit 1 is the spec's own inference): the address byte of a message, as a
number, is twice the address plus the direction bit, 0 for a write and 1 for a read. -/
def Obligations.AddressByteValue : Prop :=
  (∀ (a : BitVec 7) (p : List Byte), (Message.write a p).addressByte.toNat = 2 * a.toNat) ∧
    ∀ (a : BitVec 7) (r : List Byte), (Message.read a r).addressByte.toNat = 2 * a.toNat + 1

/-- Rule R155: `ByteWrite b` is nine commands for every byte, the first eight decode back to the byte, and
no two bytes have the same nine commands. -/
def Obligations.ByteWriteDeterminism : Prop :=
  (∀ b : Byte, (byteWriteCommands b).length = 9 ∧
    readBits 8 0#8 (byteWriteCommands b) = some (b, [.dataHighAck0])) ∧
  Function.Injective byteWriteCommands

/-- Rules R157 and R203 (the spec's own inference), the closed forms: the commands of a transaction before
its termination, the commands the termination adds, and the bytes its reads receive. -/
def Obligations.StreamSizes : Prop :=
  ∀ tx : Transaction,
    (streamCommands tx).length = 3 + (tx.map fun m => 13 + 9 * m.length).sum ∧
    (terminateCommands ((streamCommands tx).length % 2 == 1)).length =
      (if (streamCommands tx).length % 2 = 0 then 2 else 3) ∧
    ((streamCommands tx).length +
      (terminateCommands ((streamCommands tx).length % 2 == 1)).length) / 2 = bufferBytes tx ∧
    (receivedData tx).length = readBytes tx

/-! ### The primitive commands on the engine -/

/-- Rule R121, `End`: `busy` is cleared and nothing else changes; the engine, which leaves `fp` one past
the `End`, then has no step. -/
def Obligations.EndStopsPlayback : Prop :=
  ∀ s : State, exec .endCmd s = .next { s with busy := false } ∧
    State.engineEnabled { s with busy := false } = false ∧
    (decodeNibble s.dev.opc s.fetchNibble = some .endCmd →
      engineStep s = .next { s with fp := s.fp + 1, busy := false })

/-- Rules R122 and R123 (the spec's decision D5), `ClockLow` and `ClockHigh`: the clock line takes its
level and nothing else changes; when it has that level already, nothing changes. -/
def Obligations.ClockCommandsSetClock : Prop :=
  ∀ s : State, exec .clockLow s = .next { s with scl := false } ∧
    (s.scl = false → exec .clockLow s = .next s) ∧
    exec .clockHigh s = .next { s with scl := true } ∧
    (s.scl = true → exec .clockHigh s = .next s)

/-- Rules R124 and R125 (the spec's decision D5), `DataLow` and `DataHigh`: the master pulls the data line
low, or releases it; a START is recorded exactly when the line falls while the clock is high, a STOP
exactly when it rises while the clock is high; nothing else changes, and with the line released already
`DataHigh` changes nothing at all. -/
def Obligations.DataCommandsDriveData : Prop :=
  ∀ s : State,
    exec .dataLow s = .next { s with
      sdam := false
      wire := s.wire ++ if s.scl = true ∧ s.sdam = true then [BusEvent.start] else [] } ∧
    exec .dataHigh s = .next { s with
      sdam := true
      wire := s.wire ++ if s.scl = true ∧ s.sdam = false then [BusEvent.stop] else [] } ∧
    (s.sdam = true → exec .dataHigh s = .next s)

/-- Rules R129 and R130 (the spec's decision D6), `DataLowNoAck` and `DataHighNoAck`: one clock pulse with
the data line pulled low, or released, and nothing sampled. The recorded bit comes after the START or STOP
that the change of the line would be with the clock high on entry (rule R134); with the clock low on entry
it is all that is recorded. -/
def Obligations.NoAckCommandsSendBit : Prop :=
  ∀ s : State,
    exec .dataLowNoAck s = .next { s with
      scl := false, sdam := false
      wire := s.wire ++ (if s.scl = true ∧ s.sdam = true then [BusEvent.start] else []) ++
        [.wbit false] } ∧
    exec .dataHighNoAck s = .next { s with
      scl := false, sdam := true
      wire := s.wire ++ (if s.scl = true ∧ s.sdam = false then [BusEvent.stop] else []) ++
        [.wbit true] }

/-- Rule R131 (the spec's decisions D6 and D8), `DataHighRead`, for every level the slave drives: one clock
pulse with the data line released, the sampled bit recorded and shifted in; with seven bits collected
before it the byte is committed at `RB[rptr]`, which must lie in the window, and every other byte of both
windows is unchanged; with fewer no byte of a window changes. -/
def Obligations.DataHighReadCollectsBit : Prop :=
  ∀ s : State,
    (s.rcnt ≠ 7 → ∃ t, exec .dataHighRead s = .next t ∧
      t = { s with
        scl := false, sdam := true
        wire := s.wire ++ (if s.scl = true ∧ s.sdam = false then [BusEvent.stop] else []) ++
          [.rbit s.slaveDrive]
        rsh := (s.rsh <<< 1) ||| (BitVec.ofBool s.slaveDrive).setWidth 8
        rcnt := s.rcnt + 1, slave := s.slave.tail, draws := t.draws }) ∧
    (s.rcnt = 7 → s.rptr < s.dev.rbCapacity → ∃ t, exec .dataHighRead s = .next t ∧
      t = { s with
        scl := false, sdam := true
        wire := s.wire ++ (if s.scl = true ∧ s.sdam = false then [BusEvent.stop] else []) ++
          [.rbit s.slaveDrive]
        rsh := (s.rsh <<< 1) ||| (BitVec.ofBool s.slaveDrive).setWidth 8
        rcnt := 0, rptr := s.rptr + 1, slave := s.slave.tail, draws := t.draws
        commandWin := t.commandWin, controlWin := t.controlWin } ∧
      t.rbRead s.rptr = (s.rsh <<< 1) ||| (BitVec.ofBool s.slaveDrive).setWidth 8 ∧
      ∀ (w : Window) (a : Nat), (w ≠ s.dev.rbWindow ∨ a ≠ s.dev.rbBase + s.rptr) →
        t.readByte w a = s.readByte w a) ∧
    (s.rcnt = 7 → s.dev.rbCapacity ≤ s.rptr →
      exec .dataHighRead s = .refused (.readbackFull s.rptr))

/-- Rule R132 (the spec's decisions D6 and D9; log entries 7 and 8), `DataHighAck0`, for every level the
slave drives: one clock pulse with the data line released and the level recorded; a level of 0 leaves the
acknowledgement bits alone, a level of 1 adds a non-empty subset of them; nothing else changes. -/
def Obligations.DataHighAck0SamplesAck : Prop :=
  ∀ s : State, ∃ t, exec .dataHighAck0 s = .next t ∧
    t = { s with
      scl := false, sdam := true
      wire := s.wire ++ (if s.scl = true ∧ s.sdam = false then [BusEvent.stop] else []) ++
        [.acks s.slaveDrive]
      ackf := t.ackf, slave := s.slave.tail, draws := t.draws } ∧
    (s.slaveDrive = false → t.ackf = s.ackf) ∧
    (s.slaveDrive = true → ∃ e ∈ [0b01#2, 0b10#2, 0b11#2], t.ackf = s.ackf ||| e)

/-- Rules R126, R127, R128 and R133 (the spec's decision D7): the engine refuses each command of which the
source gives the name only. -/
def Obligations.NameOnlyCommandsAreRefused : Prop :=
  ∀ s : State, exec .setAddress s = .refused (.nameOnly .setAddress) ∧
    exec .reset s = .refused (.nameOnly .reset) ∧
    exec .idle s = .refused (.nameOnly .idle) ∧
    exec .dataHighAck1 s = .refused (.nameOnly .dataHighAck1)

/-- Rule R94 (the spec's decision D4; log entry 17): with the table of rule R92 exactly the values 0x9, 0xA
and 0xB name no command; their instructions are refused, and under any table the engine refuses a nibble
that names none. -/
def Obligations.UnnamedNibblesAreRefused : Prop :=
  (∀ n : Nibble, OpcTable.standard.unnamed n = true ↔ n ∈ [0x9#4, 0xA#4, 0xB#4]) ∧
  (∀ s : State, exec .reserved9 s = .refused (.noCommand 0x9#4) ∧
    exec .reservedA s = .refused (.noCommand 0xA#4) ∧
    exec .reservedB s = .refused (.noCommand 0xB#4)) ∧
  ∀ s : State, s.dev.opc.unnamed s.fetchNibble = true →
    engineStep s = .refused (.noCommand s.fetchNibble)

/-! ### The encoder's actions through the writer -/

/-- Rule R151, `Start`: its nibbles and bytes under the table of rule R92; with room for its four commands
it completes, and exactly those have been emitted; played with the line released, on an idle bus or with
the clock parked low, it records exactly one START, parks the clock low and leaves the data line low. -/
def Obligations.StartEmitsAndPlays : Prop :=
  packAll 0x0#4 (encode .standard false .start) = [0x35#8, 0x24#8] ∧
  (∀ (s : State) (q : Session), s.canEmit q 4 →
    ∃ t, exec .start s = .next t ∧ Emitted [.dataHigh, .clockHigh, .dataLow, .clockLow] s q t) ∧
  ∀ s : State, (s.scl = true ∧ s.sdam = true) ∨ s.scl = false →
    play [.dataHigh, .clockHigh, .dataLow, .clockLow] s =
      .next { s with scl := false, sdam := false, wire := s.wire ++ [.start] }

/-- Rule R152, `ByteWrite b`: its nibbles under the table of rule R92; with room for its nine commands it
completes, and what has been emitted is one bit command per bit, most significant first, and the
acknowledge sample; played with the clock low it records the eight bits and the sampled level `v`, and of
the flags only the acknowledgement bits can change, and only when `v` is 1. -/
def Obligations.ByteWriteEmitsAndPlays : Prop :=
  (∀ b : Byte, encode .standard false (.byteWrite b) =
    (byteBits b).map (fun v => if v then 0xC#4 else 0x8#4) ++ [0xE#4]) ∧
  (∀ (s : State) (q : Session) (b : Byte), s.canEmit q 9 →
    ∃ t, exec (.byteWrite b) s = .next t ∧
      Emitted
        ((byteBits b).map (fun v => if v then Command.dataHighNoAck else Command.dataLowNoAck) ++
          [.dataHighAck0]) s q t) ∧
  ∀ (s : State) (b : Byte), s.scl = false → ∃ t, play (byteWriteCommands b) s = .next t ∧
    t = { s with
      scl := false, sdam := true
      wire := s.wire ++ (byteBits b).map .wbit ++ [.acks s.slaveDrive]
      ackf := t.ackf, slave := s.slave.tail, draws := t.draws } ∧
    (s.slaveDrive = false → t.ackf = s.ackf)

/-- Rule R153, `ByteRead N`: its nibbles under the table of rule R92; with room for its `9 * N` commands it
completes, and what has been emitted is, for each byte, eight `DataHighRead` and the master's
acknowledgement, which the last byte does not get; played with the clock low, no bit collected and room in
the readback window, with the slave sending the bits of the bytes `ds`, it records the events of those
bytes and delivers them to the readback window in order. -/
def Obligations.ByteReadEmitsAndPlays : Prop :=
  (∀ n : Nat, encode .standard false (.byteRead (n + 1)) =
    (List.replicate n [0xD#4, 0xD#4, 0xD#4, 0xD#4, 0xD#4, 0xD#4, 0xD#4, 0xD#4, 0x8#4]).flatten ++
      [0xD#4, 0xD#4, 0xD#4, 0xD#4, 0xD#4, 0xD#4, 0xD#4, 0xD#4, 0xC#4]) ∧
  (∀ (s : State) (q : Session) (n : Nat), 1 ≤ n → s.canEmit q (9 * n) →
    ∃ t, exec (.byteRead n) s = .next t ∧
      Emitted
        ((List.range n).flatMap fun k =>
          List.replicate 8 Command.dataHighRead ++
            [if k + 1 < n then Command.dataLowNoAck else Command.dataHighNoAck]) s q t) ∧
  ∀ (s : State) (ds : List Byte) (rest : List Level), ds ≠ [] →
    s.scl = false → s.rcnt = 0 → s.slave = ds.flatMap byteBits ++ rest →
    s.rptr + ds.length ≤ s.dev.rbCapacity →
      ∃ t, play (byteReadCommands ds.length) s = .next t ∧
        t = { s with
          scl := false, sdam := true, wire := s.wire ++ receivedBytes ds, slave := rest
          rsh := t.rsh, rptr := s.rptr + ds.length
          commandWin := t.commandWin, controlWin := t.controlWin } ∧
        (∀ k d, ds[k]? = some d → t.rbRead (s.rptr + k) = d) ∧
        ∀ (w : Window) (a : Nat), (w ≠ s.dev.rbWindow ∨ a < s.dev.rbBase + s.rptr ∨
            s.dev.rbBase + (s.rptr + ds.length) ≤ a) →
          t.readByte w a = s.readByte w a

/-- Rule R154, `Stop`: its nibbles under the table of rule R92; with room for its three commands it
completes, and exactly those have been emitted; played with the clock low it records exactly one STOP and
leaves the bus idle. -/
def Obligations.StopEmitsAndPlays : Prop :=
  encode .standard false .stop = [0x4#4, 0x3#4, 0x5#4] ∧
  (∀ (s : State) (q : Session), s.canEmit q 3 →
    ∃ t, exec .stop s = .next t ∧ Emitted [.dataLow, .clockHigh, .dataHigh] s q t) ∧
  ∀ s : State, s.scl = false →
    play [.dataLow, .clockHigh, .dataHigh] s =
      .next { s with scl := true, sdam := true, wire := s.wire ++ [.stop] }

/-- Rule R221 (the spec's decisions D13 and D14), `Terminate`: with an even count before it two `End`
commands are emitted, with an odd one three, the padding included; the count after it is even, so the last
of them is in the command buffer. -/
def Obligations.TerminateEmits : Prop :=
  ∀ (s : State) (q : Session), s.canEmit q (if q.ncmd % 2 = 0 then 2 else 3) →
    ∃ t, exec .terminate s = .next t ∧
      Emitted (List.replicate (if q.ncmd % 2 = 0 then 2 else 3) Command.endCmd) s q t ∧
      ∀ q', t.session = some q' → q'.ncmd % 2 = 0

/-- Rule R171, `write(c)`: the first of a pair only changes the latch and the count; the second commits one
byte at the cursor, the latched command low and `c` high, and every other byte is unchanged. With the
cursor at `CB_CAPACITY` or beyond the write is outside the contract (rule R29, the spec's entry U3); that
the refusal comes at this very write is the model's choice, log entry 13. -/
def Obligations.WriteBuffersThenCommits : Prop :=
  ∀ (s : State) (q : Session) (c : Command), s.session = some q →
    (q.ncmd % 2 = 0 →
      emit c s =
        .next { s with session := some { ncmd := q.ncmd + 1, latch := s.dev.opc.code c } }) ∧
    (q.ncmd % 2 = 1 → s.dev.txBase + q.ncmd / 2 < s.dev.cbCapacity → s.busy = false →
      ∃ t, emit c s = .next t ∧
        t = { s with
          session := some { q with ncmd := q.ncmd + 1 }, commandWin := t.commandWin } ∧
        t.cbRead (s.dev.txBase + q.ncmd / 2) = pack q.latch (s.dev.opc.code c) ∧
        ∀ a, a ≠ s.dev.cbWinBase + (s.dev.txBase + q.ncmd / 2) →
          t.readByte .command a = s.readByte .command a) ∧
    (q.ncmd % 2 = 1 → s.dev.cbCapacity ≤ s.dev.txBase + q.ncmd / 2 →
      emit c s = .refused (.commandBufferFull (s.dev.txBase + q.ncmd / 2)))

/-- Rules R97 and R175: after `reset_cursor`, one `write` per command and `flush_partial`, unpacking the
bytes from `TX_BASE` gives the commands back in order, an odd number followed by one `End`; those bytes and
the session are all that has changed. -/
def Obligations.NibblePackingRoundTrip : Prop :=
  ∀ (s : State) (cs : List Command),
    s.busy = false → s.dev.txBase + (cs.length + 1) / 2 ≤ s.dev.cbCapacity →
      ∃ t, andThen (emitAll cs (resetCursor s)) flushPartial = .next t ∧
        unpackAll ((List.range ((cs.length + 1) / 2)).map fun j => t.cbRead (s.dev.txBase + j)) =
          (cs ++ if cs.length % 2 = 1 then [Command.endCmd] else []).map s.dev.opc.code ∧
        t = { s with session := t.session, commandWin := t.commandWin } ∧
        ∀ a, (a < s.dev.cbWinBase + s.dev.txBase ∨
            s.dev.cbWinBase + (s.dev.txBase + (cs.length + 1) / 2) ≤ a) →
          t.readByte .command a = s.readByte .command a

/-- Rules R29 and R78 (the spec's entries U3 and U5; log entries 12 and 13): a byte write beyond the
command buffer, or one while `busy` is 1, is refused by name, whatever the byte and wherever the engine
stands; so is the command of a session that would commit a byte then. -/
def Obligations.ContractViolationsAreRefused : Prop :=
  ∀ (s : State) (i : Nat) (v : Byte),
    (s.dev.cbCapacity ≤ i → cbWrite i v s = .refused (.commandBufferFull i)) ∧
    (i < s.dev.cbCapacity → s.busy = true → cbWrite i v s = .refused .writeWhilePlaying) ∧
    ∀ (q : Session) (c : Command), s.session = some q → q.ncmd % 2 = 1 →
      s.dev.txBase + q.ncmd / 2 < s.dev.cbCapacity → s.busy = true →
        emit c s = .refused .writeWhilePlaying

/-! ### The trigger, the status word and its decoder -/

/-- Rule R70 (the spec's decisions D8, D9, D11 and D12), `TriggerWrite(X)`: from an idle engine and with
`X` in the buffer it sets `busy`, clears the acknowledgement bits, points `fp` at the low nibble of byte
`X` and restarts the readback; nothing else of the machine changes. While `busy` is 1 it is refused. -/
def Obligations.TriggerStartsPlayback : Prop :=
  ∀ (s : State) (x : Nat),
    (s.busy = false → x < s.dev.cbCapacity →
      triggerWrite x s = .next { s with
        busy := true, ackf := 0#2, fp := 2 * x, rcnt := 0, rptr := 0, plays := s.plays + 1 }) ∧
    (s.busy = true → triggerWrite x s = .refused .triggerWhileBusy)

/-- Rules R33 and R101 (the spec's decision D10; log entry 9): in the status word, of any width, bit 0 is
`busy` and bits 2:1 are `ackf`. -/
def Obligations.StatusWordLayout : Prop :=
  ∀ s : State, s.statusWord.bits.getLsbD 0 = s.busy ∧
    s.statusWord.bits.getLsbD 1 = s.ackf.getLsbD 0 ∧
    s.statusWord.bits.getLsbD 2 = s.ackf.getLsbD 1 ∧
    StatusWord.ofBits s.statusWord.bits = s.statusWord

/-- Rule R227 (the spec's decision D15 for the waits), `decode_status`: for every status word of every
width, the running bit gives `DriverMalfunction` whatever the other bits are, else either acknowledgement
bit gives `AckFailure`, else the result is `Ok`; the bits above bit 2 do not matter. In `Decoding` the
sequencer takes that result of the status and changes nothing of the machine else, the acknowledgement bits
included; with `POST_WAIT_BOUND = INF` it is not `DriverMalfunction` in a state of the invariant. -/
def Obligations.StatusIsDecoded : Prop :=
  (∀ (u : Nat) (b : BitVec (u + 2 + 1)),
    decodeStatus (StatusWord.ofBits b) =
      if b.getLsbD 0 = true then .error .driverMalfunction
      else if b.getLsbD 1 = true ∨ b.getLsbD 2 = true then .error .ackFailure
      else .ok) ∧
  ∀ s : State, s.phase = .decoding → ∃ t, sequencerStep s = .next t ∧
    t = { s with phase := t.phase, draws := t.draws } ∧
    (s.busy = true → t.phase = .done (.error .driverMalfunction)) ∧
    (s.busy = false → s.ackf ≠ 0#2 → t.phase = .done (.error .ackFailure)) ∧
    (s.busy = false → s.ackf = 0#2 → t.phase = .readback 0) ∧
    (Inv s → s.dev.postWaitBound = .inf → t.phase ≠ .done (.error .driverMalfunction))

/-! ### The sequencer -/

/-- Rule R194 (the spec's decision D17): a transaction is valid exactly when it has one to three messages,
its first message is a write and no read has length 0. -/
def Obligations.ValidationCriterion : Prop :=
  ∀ tx : Transaction, validate tx = true ↔
    1 ≤ tx.length ∧ tx.length ≤ 3 ∧
      (∃ a p, tx[0]? = some (.write a p)) ∧
      ∀ a r, Message.read a r ∈ tx → 1 ≤ r.length

/-- Rules R193 and R281: in `Validating` an invalid transaction ends in `UnsupportedTransaction` with
nothing else changed, and a valid one goes on to its first message with a session that has counted no
command. -/
def Obligations.ValidationStep : Prop :=
  ∀ (s : State) (c : Call), s.phase = .validating → s.call = some c →
    (validate c.tx = false → sequencerStep s =
      .next { s with phase := .done (.error .unsupportedTransaction) }) ∧
    (validate c.tx = true → ∃ q : Session, q.ncmd = 0 ∧ sequencerStep s =
      .next { s with session := some q, phase := .encoding 0, actionPos := 0 })

/-- Rule R191 (the spec's decision D20; log entry 11): while the lock is held nobody takes it, and a step
that waits for it leaves the state as it is (log entry 15); when it is free and calls wait, one step gives
it to some waiting thread, with that thread's earliest call, which is no longer waiting, and goes to
validation. -/
def Obligations.AcquireTakesFreeLock : Prop :=
  ∀ s : State, s.phase = .idle →
    (∀ h, s.lock = .held h → sequencerStep s = .next s) ∧
    (s.lock = .free → s.waiting ≠ [] →
      ∃ (c : Call) (before after : List Call) (t : State),
        s.waiting = before ++ c :: after ∧ (∀ b ∈ before, b.thread ≠ c.thread) ∧
        sequencerStep s = .next t ∧
        t = { s with
          lock := .held c.thread, call := some c, waiting := before ++ after
          phase := .validating, draws := t.draws })

/-- Rules R222 and R223 (the spec's decision D15): a poll of the pre-trigger wait that reads `busy = 0`
goes on to the trigger; one that reads 1 raises `Timeout` when a finite bound is used up and polls again
otherwise, always when the bound is `INF`. Nothing else of the machine changes. -/
def Obligations.PreTriggerWait : Prop :=
  ∀ (s : State) (k : Nat), s.phase = .preWait k → ∃ t, sequencerStep s = .next t ∧
    t = { s with phase := t.phase, draws := t.draws } ∧
    (s.busy = false → t.phase = .triggering) ∧
    (s.busy = true → s.dev.preWaitBound = .inf → t.phase = .preWait (k + 1)) ∧
    (∀ n, s.busy = true → s.dev.preWaitBound = .finite n →
      t.phase = if n ≤ k then .done (.error .timeout) else .preWait (k + 1))

/-- Rules R222 and R226 (the spec's decision D15): a poll of the post-trigger wait that reads `busy = 0`,
or that uses up a finite bound, goes on to the decode, and otherwise polls again; it raises nothing. -/
def Obligations.PostTriggerWait : Prop :=
  ∀ (s : State) (k : Nat), s.phase = .postWait k → ∃ t, sequencerStep s = .next t ∧
    t = { s with phase := t.phase, draws := t.draws } ∧
    (s.busy = false → t.phase = .decoding) ∧
    (s.busy = true → s.dev.postWaitBound = .inf → t.phase = .postWait (k + 1)) ∧
    (∀ n, s.busy = true → s.dev.postWaitBound = .finite n →
      t.phase = if n ≤ k then .decoding else .postWait (k + 1))

/-- Rule R293 (with the spec's decision D11 for the stuck engine): with an unbounded wait, an engine whose
`busy` never clears (it is stuck past its buffer) keeps the transfer in that wait, with the lock held and
every other call still waiting, for as many steps as one likes: a hang and no error. -/
def Obligations.UnboundedWaitHangs : Prop :=
  ∀ (s : State) (k n : Nat), s.busy = true → s.dev.cbCapacity ≤ s.fp / 2 →
    (s.phase = .preWait k → s.dev.preWaitBound = .inf →
      ∃ t, run n s = .next t ∧ t = { s with phase := .preWait (k + n), draws := t.draws }) ∧
    (s.phase = .postWait k → s.dev.postWaitBound = .inf →
      ∃ t, run n s = .next t ∧ t = { s with phase := .postWait (k + n), draws := t.draws })

/-- Rules R227, R283 and R284 (the spec's decision D15): with both bounds `INF` no step from a state of the
invariant ends a transfer in `DriverMalfunction` or `Timeout`. -/
def Obligations.UnboundedWaitsRaiseNothing : Prop :=
  ∀ s t : State, Inv s → s.dev.preWaitBound = .inf → s.dev.postWaitBound = .inf →
    step s = .next t → ∀ e, e = BusError.driverMalfunction ∨ e = BusError.timeout →
      s.phase ≠ .done (.error e) → t.phase ≠ .done (.error e)

/-- Rule R200 (the spec's decisions D21 and D26; log entry 26): `Readback(i)` of a read message copies the
next bytes of the readback window, in order of reception, into that message's result buffer and touches no
other; of a write message it copies nothing. It goes on to the next message, or ends in `Ok`. -/
def Obligations.ReadbackCopies : Prop :=
  ∀ (s : State) (c : Call) (i : Nat), s.phase = .readback i → s.call = some c →
    (∀ a r, c.tx[i]? = some (.read a r) →
      readBytes (c.tx.take i) + r.length ≤ s.dev.rbCapacity →
      ∃ (t : State) (r' : List Byte), sequencerStep s = .next t ∧
        t = { s with
          call := some { c with tx := c.tx.set i (.read a r') }
          phase := if i + 1 < c.tx.length then .readback (i + 1) else .done .ok } ∧
        r'.length = r.length ∧
        ∀ k, k < r.length → r'[k]? = some (s.rbRead (readBytes (c.tx.take i) + k))) ∧
    (∀ a p, c.tx[i]? = some (.write a p) →
      readBytes (c.tx.take i) ≤ s.dev.rbCapacity →
      sequencerStep s = .next { s with
        phase := if i + 1 < c.tx.length then .readback (i + 1) else .done .ok })

/-- Rules R192 and R287 (the spec's decision D26), the exit actions: whatever the result, the session is
dropped, the lock free, the phase `Idle`, and the result goes to the caller, with the result buffers as
they stand; nothing else changes. -/
def Obligations.ExitActions : Prop :=
  ∀ (s : State) (c : Call) (r : Result), s.phase = .done r → s.call = some c →
    sequencerStep s = .next { s with
      session := none, lock := .free, phase := .idle, call := none, actionPos := 0
      returned := s.returned ++ [{ thread := c.thread, result := r, tx := c.tx }] }

/-- Rule R192 (the spec's decision D20): once a thread holds the lock, no step takes it away or gives it to
another, but for the last one of `execute`, which frees it. -/
def Obligations.LockIsHeldThroughout : Prop :=
  ∀ (s t : State) (h : Nat), step s = .next t → s.lock = .held h →
    t.lock = .held h ∨ (t.lock = .free ∧ ∃ r, s.phase = .done r ∧ t.phase = .idle)

/-! ### The machine's step -/

/-- A step runs the decoded instruction. When it is the engine's turn and the nibble at `fp` decodes to
`i`, the step is `exec` of `i` with `fp` moved past it (rule R120). When it is the sequencer's turn and its
next action is `i`, the step is `exec` of `i` and then the move to the place after it (rule R193). Choosing
the turn has changed nothing but the list of choices and the count of draws (the model's own fields, log
entry 10). -/
def Obligations.StepRunsDecodedInstruction : Prop :=
  (∀ (s u : State) (i : Instr), s.turn = some (.engine, u) →
    decodeNibble u.dev.opc u.fetchNibble = some i →
      step s = exec i { u with fp := u.fp + 1 } ∧
        u = { s with sched := u.sched, draws := u.draws } ∧ s.engineEnabled = true) ∧
  ∀ (s u : State) (i : Instr), s.turn = some (.sequencer, u) → u.nextAction = some i →
    step s = (andThen (exec i u) fun t => .next (advance t)) ∧
      u = { s with sched := u.sched, draws := u.draws }

/-- Rule R313 (and log entry 20): after reset the machine executes nothing, whatever its parameters, until
a caller calls (its step answers the same state, log entry 15); then a step takes the lock for that call
and goes to validation, and the engine still has no step. -/
def Obligations.NothingRunsBeforeACall : Prop :=
  ∀ (p : Params) (c : Call), step (State.resetWith p) = .next (State.resetWith p) ∧
    (c.thread < p.nThreads →
      step (transfer c (State.resetWith p)) =
        .next { State.resetWith p with
          lock := .held c.thread, call := some c, phase := .validating }) ∧
    (transfer c (State.resetWith p)).engineEnabled = false

/-- The values that the table of rule R43 names (the spec's decision D24) are those of the machine after
reset. -/
def Obligations.ResetValues : Prop :=
  ∀ p : Params,
    (State.resetWith p).lock = .free ∧ (State.resetWith p).session = none ∧
    (State.resetWith p).phase = .idle ∧ (State.resetWith p).busy = false ∧
    (State.resetWith p).ackf = 0#2 ∧ (State.resetWith p).rcnt = 0 ∧
    (State.resetWith p).rptr = 0 ∧ (State.resetWith p).scl = true ∧
    (State.resetWith p).sdam = true ∧ (State.resetWith p).wire = []

/-- The model's invariant (its clauses cite rules R8, R23, R29, R62, R63, R191, R193) holds after reset,
for all parameters that meet their constraints, and for the parameters `State.reset` names. -/
def Obligations.ResetHasInvariant : Prop :=
  (∀ p : Params, p.wf = true → Inv (State.resetWith p)) ∧ Inv State.reset

/-- Every step keeps the invariant, whichever agent moves and whatever the free values are. -/
def Obligations.StepKeepsInvariant : Prop :=
  ∀ s t : State, Inv s → step s = .next t → Inv t

/-- No step from a state of the invariant faults (log entry 16): what the pseudocode of rules R120, R193
and R220 reads is there. -/
def Obligations.StepNeverFaults : Prop :=
  ∀ (s : State) (r : Fault), Inv s → step s ≠ .fault r

/-- Rule R79, ownership: a step of the engine writes no byte of the command buffer and no trigger, and
changes nothing of the sequencer half; a step of the sequencer writes no byte of the readback window, and
but for the trigger it changes neither `busy` nor `ackf`; outside a transaction it writes no window. -/
def Obligations.RegionsAreOwned : Prop :=
  (∀ s t : State, s.dev.wf = true → engineStep s = .next t →
    t.plays = s.plays ∧ t.lock = s.lock ∧ t.session = s.session ∧ t.phase = s.phase ∧
      t.call = s.call ∧ t.waiting = s.waiting ∧ t.returned = s.returned ∧
      ∀ i, i < s.dev.cbCapacity →
        t.readByte .command (s.dev.cbWinBase + i) = s.readByte .command (s.dev.cbWinBase + i)) ∧
  ∀ s t : State, s.dev.wf = true → sequencerStep s = .next t →
    (s.phase ≠ .triggering → t.busy = s.busy ∧ t.ackf = s.ackf ∧ t.plays = s.plays) ∧
    (s.phase = .idle → t.commandWin = s.commandWin ∧ t.controlWin = s.controlWin) ∧
      ∀ i, i < s.dev.rbCapacity →
        t.readByte s.dev.rbWindow (s.dev.rbBase + i) = s.readByte s.dev.rbWindow (s.dev.rbBase + i)

/-- The sequencer and the bus (rules R20, R36, R39): a step of the sequencer changes no bus line, records
nothing on the wires and leaves the parameters as they are, as a step of the engine does the latter. -/
def Obligations.SequencerLeavesTheBus : Prop :=
  (∀ s t : State, sequencerStep s = .next t →
    t.dev = s.dev ∧ t.scl = s.scl ∧ t.sdam = s.sdam ∧ t.rsh = s.rsh ∧ t.wire = s.wire ∧
      t.slave = s.slave) ∧
  ∀ s t : State, engineStep s = .next t → t.dev = s.dev

/-- Rule R34: over any step, `busy` goes from 0 to 1 only at the trigger, and from 1 to 0 only when the
engine has fetched `End`. -/
def Obligations.BusyTransitions : Prop :=
  ∀ s t : State, step s = .next t →
    (s.busy = false → t.busy = true → s.phase = .triggering) ∧
    (s.busy = true → t.busy = false →
      decodeNibble s.dev.opc s.fetchNibble = some .endCmd ∧ s.engineEnabled = true)

/-- Rule R35 (the spec's decision D9): over any step but the trigger, an acknowledgement bit that is set
stays set. -/
def Obligations.AckFailureIsSticky : Prop :=
  ∀ s t : State, step s = .next t → s.phase ≠ .triggering → s.ackf &&& t.ackf = s.ackf

/-- Rule R40 (the spec's decision D5): over any step the log of bus events only grows at its end. -/
def Obligations.WireIsAppendOnly : Prop :=
  ∀ s t : State, step s = .next t → ∃ es, t.wire = s.wire ++ es

/-- Rule R32 (the spec's decision D11): an engine that runs past its last byte has no step. While no
sequencer has one either, the rule takes no step at all; that the model's step then answers the same
state, so that a run stays as it is for ever, is the stutter of log entry 15. -/
def Obligations.EngineIsStuckPastItsBuffer : Prop :=
  ∀ (s : State) (n : Nat), s.dev.cbCapacity ≤ s.fp / 2 →
    s.engineEnabled = false ∧ (s.sequencerEnabled = false → run n s = .next s)

/-- Rules R103, R193, R195, R196 and R220 (the spec's decisions D13, D14 and D28; log entry 10): in
`Encoding(0)` with a session that has counted no command, a valid transaction that fits and no playback
running, the sequencer comes to the pre-trigger wait having emitted exactly the stream of the transaction:
per message a Start, the address byte and the payload, one Stop after the last, and the termination.
Nothing else of the machine has changed but the phase and the place in `execute`. -/
def Obligations.EncodingWritesStream : Prop :=
  ∀ (s : State) (q : Session) (c : Call), s.phase = .encoding 0 → s.actionPos = 0 →
    s.session = some q → q.ncmd = 0 → s.call = some c → validate c.tx = true →
    s.dev.txBase + (commandCount c.tx + 1) / 2 < s.dev.cbCapacity → s.busy = false →
      ∃ (n : Nat) (t : State), sequencerRun n s = .next t ∧ t.phase = .preWait 0 ∧
        Emitted (streamCommands c.tx ++ terminateCommands (commandCount c.tx % 2 == 1)) s q
          { t with phase := s.phase, actionPos := s.actionPos }

/-! ### Playing a stream -/

/-- Rules R156, R196, R197 and R289 (on the spec's decisions D5 and D6): for every valid transaction,
played from an idle bus with nothing collected and room in the readback window, whatever the slaves answer:
the bus is idle afterwards, with nothing collected, and exactly one START per message and one STOP, the
STOP last, have been added to the wires. -/
def Obligations.BusIsIdleAfterPlayback : Prop :=
  ∀ (s : State) (tx : Transaction), validate tx = true →
    s.scl = true → s.sdam = true → s.rcnt = 0 → s.rptr + readBytes tx ≤ s.dev.rbCapacity →
      ∃ (t : State) (es : List BusEvent), play (streamCommands tx) s = .next t ∧
        t.scl = true ∧ t.sdam = true ∧ t.rcnt = 0 ∧ t.busy = s.busy ∧
        t.rptr = s.rptr + readBytes tx ∧
        t.wire = s.wire ++ es ++ [.stop] ∧
        es.count .start = tx.length ∧ es.count .stop = 0

/-- Rule R204 (on the spec's decisions D5, D6, D8 and D28): for every valid transaction, played from an
idle bus, when the slaves acknowledge every byte and send the bytes of `tx`'s read buffers: the wires carry
exactly the events of the rule, no acknowledgement bit is set, and the bytes lie in the readback window in
message order. -/
def Obligations.PlaybackPutsTransactionOnBus : Prop :=
  ∀ (s : State) (tx : Transaction) (rest : List Level), validate tx = true →
    s.scl = true → s.sdam = true → s.rcnt = 0 → s.rptr + readBytes tx ≤ s.dev.rbCapacity →
    s.slave = slaveAnswers tx ++ rest →
      ∃ t, play (streamCommands tx) s = .next t ∧
        t.wire = s.wire ++ busEvents tx ∧ t.ackf = s.ackf ∧ t.slave = rest ∧
        t.rptr = s.rptr + readBytes tx ∧
        (∀ k d, (receivedData tx)[k]? = some d → t.rbRead (s.rptr + k) = d) ∧
        ∀ (w : Window) (a : Nat), (w ≠ s.dev.rbWindow ∨ a < s.dev.rbBase + s.rptr ∨
            s.dev.rbBase + (s.rptr + readBytes tx) ≤ a) →
          t.readByte w a = s.readByte w a

/-- Rule R322 (the spec's decision D32 assumes that each step comes): an engine that is started on a list
of `n` commands of the kind a sequencer's stream holds, packed in the command buffer with an `End` after
them, stops after `n + 1` steps, `fp` one past the `End`, having played those commands. -/
def Obligations.EngineFinishesStream : Prop :=
  ∀ (s u : State) (cs : List Command), s.dev.wf = true → s.busy = true →
    s.fp + cs.length < 2 * s.dev.cbCapacity →
    (∀ k c, cs[k]? = some c → s.nibbleAt (s.fp + k) = s.dev.opc.code c) →
    s.nibbleAt (s.fp + cs.length) = s.dev.opc.code .endCmd →
    (∀ c ∈ cs, playedCommand c = true) →
    play cs s = .next u →
      engineRun (cs.length + 1) s =
        .next { u with fp := s.fp + cs.length + 1, busy := false }

/-- Rules R193, R200, R229 and R288 (log entries 7 and 10 for the slaves and the schedule), the whole of a
transfer: on a machine that may run one, with unbounded waits, one call of a valid transaction that fits,
slaves that acknowledge every byte and send the bytes `tx'` holds in its read buffers, and an engine that
is let run first: after some number of steps the call has returned `Ok` with those bytes in its result
buffers, the wires carry the events of rule R204, and the machine may run the next transfer. -/
def Obligations.TransferReturnsOk : Prop :=
  ∀ (s : State) (c : Call) (tx' : Transaction) (rest : List Level) (later : List Agent), Ready s →
    s.dev.preWaitBound = .inf → s.dev.postWaitBound = .inf →
    s.waiting = [c] → validate c.tx = true → fits s.dev c.tx = true → sameShape c.tx tx' →
    s.slave = slaveAnswers tx' ++ rest →
    s.sched = List.replicate (commandCount c.tx + 1) .engine ++ later →
      ∃ (n : Nat) (t : State), run n s = .next t ∧
        t.returned = s.returned ++ [{ thread := c.thread, result := .ok, tx := tx' }] ∧
        t.wire = s.wire ++ busEvents tx' ∧ t.ackf = 0#2 ∧ t.waiting = [] ∧ t.slave = rest ∧
        t.lock = .free ∧ t.sched = later ∧ Ready t

/-- Rules R282, R288 and R291 (log entries 8 and 10): on a machine that may run one, with unbounded waits,
one call of a valid transaction that fits, and an engine that is let run first, whatever the slaves do: the
call returns `Ok` exactly when no acknowledge sample was 1 and `AckFailure` otherwise, in which case no
result buffer has been touched and an acknowledgement bit is set; the machine may then run the next
transfer. -/
def Obligations.TransferReportsAckFailure : Prop :=
  ∀ (s : State) (c : Call) (later : List Agent), Ready s →
    s.dev.preWaitBound = .inf → s.dev.postWaitBound = .inf →
    s.waiting = [c] → validate c.tx = true → fits s.dev c.tx = true →
    s.sched = List.replicate (commandCount c.tx + 1) .engine ++ later →
      ∃ (n : Nat) (t : State) (es : List BusEvent) (r : Result) (tx' : Transaction),
        run n s = .next t ∧
        t.returned = s.returned ++ [{ thread := c.thread, result := r, tx := tx' }] ∧
        t.wire = s.wire ++ es ∧
        (BusEvent.acks true ∉ es → r = .ok ∧ t.ackf = 0#2 ∧ sameShape c.tx tx') ∧
        (BusEvent.acks true ∈ es → r = .error .ackFailure ∧ t.ackf ≠ 0#2 ∧ tx' = c.tx) ∧
        t.waiting = [] ∧ t.lock = .free ∧ t.sched = later ∧ Ready t

/-! ### Memory -/

/-- Rules R62 and R69 (log entry 5): a write of a command-buffer byte that goes on is read back, changes no
other byte of either window and nothing else of the machine, and keeps the canonical form. -/
def Obligations.CommandBufferWriteIsLocal : Prop :=
  ∀ (s t : State) (i : Nat) (v : Byte), cbWrite i v s = .next t →
    t = { s with commandWin := t.commandWin } ∧ t.cbRead i = v ∧
      (∀ (w : Window) (a : Nat), (w ≠ .command ∨ a ≠ s.dev.cbWinBase + i) →
        t.readByte w a = s.readByte w a) ∧
      (Memory.wf s.commandWin → Memory.wf t.commandWin)

/-! ### The tuner client -/

/-- Rule R253: the frequency word never falls as the target rises, within a band and across bands. -/
def Obligations.FrequencyWordIsMonotone : Prop :=
  ∀ f g : BitVec 32, f.toNat ≤ g.toNat → freqWord f ≤ freqWord g

/-- Rule R252 (the spec's decision D31): the frequency word is the target in units of 15625 Hz, rounded to
nearest. -/
def Obligations.FrequencyWordRoundsToNearest : Prop :=
  ∀ f : BitVec 32, 2 * (15625 * freqWord f) ≤ 2 * f.toNat + 15625 ∧
    2 * f.toNat ≤ 2 * (15625 * freqWord f) + 15625

/-- Rule R255 (the spec's decision D31 for the boundary): the first entry within whose tolerance the target
lies decides, a target at the center of an entry with no earlier match selects it, and a target outside
every range leaves the inert value. -/
def Obligations.SpurLookupIsFirstFit : Prop :=
  ∀ (before after : List SpurEntry) (e : SpurEntry) (inert : SpurShift) (target : Nat),
    (∀ d ∈ before, ¬ (target ≤ d.center + d.tolerance ∧ d.center ≤ target + d.tolerance)) →
      spurLookup before inert target = inert ∧
      ((target ≤ e.center + e.tolerance ∧ e.center ≤ target + e.tolerance) →
        spurLookup (before ++ e :: after) inert target = e.shift) ∧
      (target = e.center → spurLookup (before ++ e :: after) inert target = e.shift)

/-- Rules R257, R258 and R259 (log entry 25): each poll is one write-then-read transaction of the
lock-status register. Polls that return a byte without both lock bits keep the machine polling until the
hundredth, after which it has timed out and `tune` returns `Timeout`, the same error as a failed
transfer's. A poll that shows both bits ends the polling: one more transfer, the register write of
automatic gain control, and `tune` returns `Ok`. A transfer that fails ends the machine with its error. The
mask stands for exactly two bits. -/
def Obligations.TunePollsAtMostHundredTimes : Prop :=
  (∀ (dev : TunerDevice) (polls : List Byte) (b : Byte) (tx : Transaction) (e : BusError),
    (∀ p ∈ polls, p &&& dev.lockMask ≠ dev.lockMask) → polls.length ≤ 100 →
      (polls.foldl (fun st p => tuneNext dev st .ok (dev.lockStatus.transaction p)) (.polling 0) =
        if polls.length = 100 then .timedOut else .polling polls.length) ∧
      (polls.length = 100 →
        tuneResult
          (polls.foldl (fun st p => tuneNext dev st .ok (dev.lockStatus.transaction p)) (.polling 0)) =
            some (.error .timeout) ∧
        tuneCall dev .timedOut = none ∧
        tuneResult (.failed .timeout) = some (.error .timeout)) ∧
      (polls.length < 100 →
        tuneCall dev (.polling polls.length) =
          some [.write dev.lockStatus.address (dev.lockStatus.register :: dev.lockStatus.more),
            .read dev.lockStatus.address [0#8]] ∧
        (b &&& dev.lockMask = dev.lockMask →
          tuneNext dev (.polling polls.length) .ok (dev.lockStatus.transaction b) = .gainControl) ∧
        tuneNext dev (.polling polls.length) (.error e) tx = .failed e ∧
        tuneResult (.failed e) = some (.error e)) ∧
      tuneCall dev .gainControl =
        some [.write dev.gainControl.address
          (dev.gainControl.register :: dev.gainControl.value :: dev.gainControl.more)] ∧
      tuneResult (tuneNext dev .gainControl .ok tx) = some .ok ∧
      tuneNext dev .gainControl (.error e) tx = .failed e) ∧
  ∀ dev : TunerDevice, dev.wf = true →
    ∃ i j : Nat, i < j ∧ j < 8 ∧ ∀ b : Byte,
      b &&& dev.lockMask = dev.lockMask ↔ b.getLsbD i = true ∧ b.getLsbD j = true

/-- Rules R254 and R256 (the spec's decision D31; log entry 25 for what the model leaves free): the
transfers that `tune` issues from its start are those of one program of at least one valid transaction, one
after the other; a failed one ends the machine with its error, and after the last the polling starts. The
messages of the program are in order the write of abort-tune, that of bandwidth, the one or two that carry
the two bytes of the frequency word, and start-tune last; what stands between them are writes too. For
every word that two bytes can hold, each bit of the two bytes is the bit of the word that its layout names,
and when the layouts meet their constraint the two bytes determine the word: no bit of it is cut. -/
def Obligations.TunerProgramIsInOrder : Prop :=
  (∀ (dev : TunerDevice) (targetHz : BitVec 32),
    ∃ (program : List Transaction) (w x y z frequency : List Message),
      program ≠ [] ∧ (∀ tx ∈ program, validate tx = true) ∧
      program.flatten =
        [.write dev.abortTune.address dev.abortTune.payload] ++ w ++
          [.write dev.bandwidth.address dev.bandwidth.payload] ++ x ++ frequency ++ z ++
          [.write dev.startTune.address dev.startTune.payload] ∧
      (∀ m ∈ w ++ x ++ y ++ z, m.isRead = false) ∧
      (match dev.frequency with
        | .together a n p q r =>
          frequency =
            [.write a (n :: p ++ (frequencyBytes dev (freqWord targetHz)).1 :: q ++
              (frequencyBytes dev (freqWord targetHz)).2 :: r)]
        | .apart a n p q a' n' p' q' =>
          frequency =
            [.write a (n :: p ++ (frequencyBytes dev (freqWord targetHz)).1 :: q)] ++ y ++
              [.write a' (n' :: p' ++ (frequencyBytes dev (freqWord targetHz)).2 :: q')]) ∧
      ∀ done : List Transaction, done.length ≤ program.length →
        (done.length = program.length →
          done.foldl (fun st r => tuneNext dev st .ok r) (tuneStart dev targetHz) = .polling 0) ∧
        ∀ tx, program[done.length]? = some tx →
          tuneCall dev (done.foldl (fun st r => tuneNext dev st .ok r) (tuneStart dev targetHz)) =
            some tx ∧
          ∀ (e : BusError) (r : Transaction),
            tuneNext dev (done.foldl (fun st r => tuneNext dev st .ok r) (tuneStart dev targetHz))
              (.error e) r = .failed e) ∧
  (∀ (dev : TunerDevice) (f i : Nat) (h : i < 8), f < 2 ^ 16 →
    (frequencyBytes dev f).1.getLsbD i = f.testBit dev.frequencyFirst[i].val ∧
    (frequencyBytes dev f).2.getLsbD i = f.testBit dev.frequencySecond[i].val) ∧
  ∀ (dev : TunerDevice) (f g : Nat), dev.wf = true → f < 2 ^ 16 → g < 2 ^ 16 →
    frequencyBytes dev f = frequencyBytes dev g → f = g
end

