-- ==== Sys2Proof/Laws/State.lean ====
section
/-! SUPPORT. What each named update of the state leaves in each field: one lemma per field per update, so
that no proof unfolds a record update. -/

namespace Sys2Proof.Machine

variable (s : State)

@[simp] theorem State.afterStatusRead_dev : s.afterStatusRead.dev = s.dev := rfl
@[simp] theorem State.afterStatusRead_lock : s.afterStatusRead.lock = s.lock := rfl
@[simp] theorem State.afterStatusRead_session : s.afterStatusRead.session = s.session := rfl
@[simp] theorem State.afterStatusRead_phase : s.afterStatusRead.phase = s.phase := rfl
@[simp] theorem State.afterStatusRead_call : s.afterStatusRead.call = s.call := rfl
@[simp] theorem State.afterStatusRead_actionPos : s.afterStatusRead.actionPos = s.actionPos := rfl
@[simp] theorem State.afterStatusRead_waiting : s.afterStatusRead.waiting = s.waiting := rfl
@[simp] theorem State.afterStatusRead_returned : s.afterStatusRead.returned = s.returned := rfl
@[simp] theorem State.afterStatusRead_commandWin :
    s.afterStatusRead.commandWin = s.commandWin := rfl
@[simp] theorem State.afterStatusRead_controlWin :
    s.afterStatusRead.controlWin = s.controlWin := rfl
@[simp] theorem State.afterStatusRead_busy : s.afterStatusRead.busy = s.busy := rfl
@[simp] theorem State.afterStatusRead_ackf : s.afterStatusRead.ackf = s.ackf := rfl
@[simp] theorem State.afterStatusRead_fp : s.afterStatusRead.fp = s.fp := rfl
@[simp] theorem State.afterStatusRead_rsh : s.afterStatusRead.rsh = s.rsh := rfl
@[simp] theorem State.afterStatusRead_rcnt : s.afterStatusRead.rcnt = s.rcnt := rfl
@[simp] theorem State.afterStatusRead_rptr : s.afterStatusRead.rptr = s.rptr := rfl
@[simp] theorem State.afterStatusRead_scl : s.afterStatusRead.scl = s.scl := rfl
@[simp] theorem State.afterStatusRead_sdam : s.afterStatusRead.sdam = s.sdam := rfl
@[simp] theorem State.afterStatusRead_wire : s.afterStatusRead.wire = s.wire := rfl
@[simp] theorem State.afterStatusRead_slave : s.afterStatusRead.slave = s.slave := rfl
@[simp] theorem State.afterStatusRead_sched : s.afterStatusRead.sched = s.sched := rfl
@[simp] theorem State.afterStatusRead_draws : s.afterStatusRead.draws = s.draws + 1 := rfl
@[simp] theorem State.afterStatusRead_plays : s.afterStatusRead.plays = s.plays := rfl

@[simp] theorem resetCursor_dev : (resetCursor s).dev = s.dev := rfl
@[simp] theorem resetCursor_lock : (resetCursor s).lock = s.lock := rfl
@[simp] theorem resetCursor_session : (resetCursor s).session = some freshSession := rfl
@[simp] theorem resetCursor_phase : (resetCursor s).phase = s.phase := rfl
@[simp] theorem resetCursor_call : (resetCursor s).call = s.call := rfl
@[simp] theorem resetCursor_actionPos : (resetCursor s).actionPos = s.actionPos := rfl
@[simp] theorem resetCursor_waiting : (resetCursor s).waiting = s.waiting := rfl
@[simp] theorem resetCursor_returned : (resetCursor s).returned = s.returned := rfl
@[simp] theorem resetCursor_commandWin : (resetCursor s).commandWin = s.commandWin := rfl
@[simp] theorem resetCursor_controlWin : (resetCursor s).controlWin = s.controlWin := rfl
@[simp] theorem resetCursor_busy : (resetCursor s).busy = s.busy := rfl
@[simp] theorem resetCursor_ackf : (resetCursor s).ackf = s.ackf := rfl
@[simp] theorem resetCursor_fp : (resetCursor s).fp = s.fp := rfl
@[simp] theorem resetCursor_rsh : (resetCursor s).rsh = s.rsh := rfl
@[simp] theorem resetCursor_rcnt : (resetCursor s).rcnt = s.rcnt := rfl
@[simp] theorem resetCursor_rptr : (resetCursor s).rptr = s.rptr := rfl
@[simp] theorem resetCursor_scl : (resetCursor s).scl = s.scl := rfl
@[simp] theorem resetCursor_sdam : (resetCursor s).sdam = s.sdam := rfl
@[simp] theorem resetCursor_wire : (resetCursor s).wire = s.wire := rfl
@[simp] theorem resetCursor_slave : (resetCursor s).slave = s.slave := rfl
@[simp] theorem resetCursor_sched : (resetCursor s).sched = s.sched := rfl
@[simp] theorem resetCursor_draws : (resetCursor s).draws = s.draws := rfl
@[simp] theorem resetCursor_plays : (resetCursor s).plays = s.plays := rfl

@[simp] theorem State.record_dev (e : BusEvent) : (s.record e).dev = s.dev := rfl
@[simp] theorem State.record_lock (e : BusEvent) : (s.record e).lock = s.lock := rfl
@[simp] theorem State.record_session (e : BusEvent) : (s.record e).session = s.session := rfl
@[simp] theorem State.record_phase (e : BusEvent) : (s.record e).phase = s.phase := rfl
@[simp] theorem State.record_call (e : BusEvent) : (s.record e).call = s.call := rfl
@[simp] theorem State.record_actionPos (e : BusEvent) : (s.record e).actionPos = s.actionPos := rfl
@[simp] theorem State.record_waiting (e : BusEvent) : (s.record e).waiting = s.waiting := rfl
@[simp] theorem State.record_returned (e : BusEvent) : (s.record e).returned = s.returned := rfl
@[simp] theorem State.record_commandWin (e : BusEvent) :
    (s.record e).commandWin = s.commandWin := rfl
@[simp] theorem State.record_controlWin (e : BusEvent) :
    (s.record e).controlWin = s.controlWin := rfl
@[simp] theorem State.record_busy (e : BusEvent) : (s.record e).busy = s.busy := rfl
@[simp] theorem State.record_ackf (e : BusEvent) : (s.record e).ackf = s.ackf := rfl
@[simp] theorem State.record_fp (e : BusEvent) : (s.record e).fp = s.fp := rfl
@[simp] theorem State.record_rsh (e : BusEvent) : (s.record e).rsh = s.rsh := rfl
@[simp] theorem State.record_rcnt (e : BusEvent) : (s.record e).rcnt = s.rcnt := rfl
@[simp] theorem State.record_rptr (e : BusEvent) : (s.record e).rptr = s.rptr := rfl
@[simp] theorem State.record_scl (e : BusEvent) : (s.record e).scl = s.scl := rfl
@[simp] theorem State.record_sdam (e : BusEvent) : (s.record e).sdam = s.sdam := rfl
@[simp] theorem State.record_wire (e : BusEvent) : (s.record e).wire = s.wire ++ [e] := rfl
@[simp] theorem State.record_slave (e : BusEvent) : (s.record e).slave = s.slave := rfl
@[simp] theorem State.record_sched (e : BusEvent) : (s.record e).sched = s.sched := rfl
@[simp] theorem State.record_draws (e : BusEvent) : (s.record e).draws = s.draws := rfl
@[simp] theorem State.record_plays (e : BusEvent) : (s.record e).plays = s.plays := rfl

@[simp] theorem State.setSda_dev (v : Level) : (s.setSda v).dev = s.dev := rfl
@[simp] theorem State.setSda_lock (v : Level) : (s.setSda v).lock = s.lock := rfl
@[simp] theorem State.setSda_session (v : Level) : (s.setSda v).session = s.session := rfl
@[simp] theorem State.setSda_phase (v : Level) : (s.setSda v).phase = s.phase := rfl
@[simp] theorem State.setSda_call (v : Level) : (s.setSda v).call = s.call := rfl
@[simp] theorem State.setSda_actionPos (v : Level) : (s.setSda v).actionPos = s.actionPos := rfl
@[simp] theorem State.setSda_waiting (v : Level) : (s.setSda v).waiting = s.waiting := rfl
@[simp] theorem State.setSda_returned (v : Level) : (s.setSda v).returned = s.returned := rfl
@[simp] theorem State.setSda_commandWin (v : Level) : (s.setSda v).commandWin = s.commandWin := rfl
@[simp] theorem State.setSda_controlWin (v : Level) : (s.setSda v).controlWin = s.controlWin := rfl
@[simp] theorem State.setSda_busy (v : Level) : (s.setSda v).busy = s.busy := rfl
@[simp] theorem State.setSda_ackf (v : Level) : (s.setSda v).ackf = s.ackf := rfl
@[simp] theorem State.setSda_fp (v : Level) : (s.setSda v).fp = s.fp := rfl
@[simp] theorem State.setSda_rsh (v : Level) : (s.setSda v).rsh = s.rsh := rfl
@[simp] theorem State.setSda_rcnt (v : Level) : (s.setSda v).rcnt = s.rcnt := rfl
@[simp] theorem State.setSda_rptr (v : Level) : (s.setSda v).rptr = s.rptr := rfl
@[simp] theorem State.setSda_scl (v : Level) : (s.setSda v).scl = s.scl := rfl
@[simp] theorem State.setSda_sdam (v : Level) : (s.setSda v).sdam = v := rfl
@[simp] theorem State.setSda_wire (v : Level) : (s.setSda v).wire = s.wire ++ s.edge v := rfl
@[simp] theorem State.setSda_slave (v : Level) : (s.setSda v).slave = s.slave := rfl
@[simp] theorem State.setSda_sched (v : Level) : (s.setSda v).sched = s.sched := rfl
@[simp] theorem State.setSda_draws (v : Level) : (s.setSda v).draws = s.draws := rfl
@[simp] theorem State.setSda_plays (v : Level) : (s.setSda v).plays = s.plays := rfl

@[simp] theorem State.setScl_dev (v : Level) : (s.setScl v).dev = s.dev := rfl
@[simp] theorem State.setScl_lock (v : Level) : (s.setScl v).lock = s.lock := rfl
@[simp] theorem State.setScl_session (v : Level) : (s.setScl v).session = s.session := rfl
@[simp] theorem State.setScl_phase (v : Level) : (s.setScl v).phase = s.phase := rfl
@[simp] theorem State.setScl_call (v : Level) : (s.setScl v).call = s.call := rfl
@[simp] theorem State.setScl_actionPos (v : Level) : (s.setScl v).actionPos = s.actionPos := rfl
@[simp] theorem State.setScl_waiting (v : Level) : (s.setScl v).waiting = s.waiting := rfl
@[simp] theorem State.setScl_returned (v : Level) : (s.setScl v).returned = s.returned := rfl
@[simp] theorem State.setScl_commandWin (v : Level) : (s.setScl v).commandWin = s.commandWin := rfl
@[simp] theorem State.setScl_controlWin (v : Level) : (s.setScl v).controlWin = s.controlWin := rfl
@[simp] theorem State.setScl_busy (v : Level) : (s.setScl v).busy = s.busy := rfl
@[simp] theorem State.setScl_ackf (v : Level) : (s.setScl v).ackf = s.ackf := rfl
@[simp] theorem State.setScl_fp (v : Level) : (s.setScl v).fp = s.fp := rfl
@[simp] theorem State.setScl_rsh (v : Level) : (s.setScl v).rsh = s.rsh := rfl
@[simp] theorem State.setScl_rcnt (v : Level) : (s.setScl v).rcnt = s.rcnt := rfl
@[simp] theorem State.setScl_rptr (v : Level) : (s.setScl v).rptr = s.rptr := rfl
@[simp] theorem State.setScl_scl (v : Level) : (s.setScl v).scl = v := rfl
@[simp] theorem State.setScl_sdam (v : Level) : (s.setScl v).sdam = s.sdam := rfl
@[simp] theorem State.setScl_wire (v : Level) : (s.setScl v).wire = s.wire := rfl
@[simp] theorem State.setScl_slave (v : Level) : (s.setScl v).slave = s.slave := rfl
@[simp] theorem State.setScl_sched (v : Level) : (s.setScl v).sched = s.sched := rfl
@[simp] theorem State.setScl_draws (v : Level) : (s.setScl v).draws = s.draws := rfl
@[simp] theorem State.setScl_plays (v : Level) : (s.setScl v).plays = s.plays := rfl

@[simp] theorem State.noteAck_dev (v : Level) : (s.noteAck v).dev = s.dev := rfl
@[simp] theorem State.noteAck_lock (v : Level) : (s.noteAck v).lock = s.lock := rfl
@[simp] theorem State.noteAck_session (v : Level) : (s.noteAck v).session = s.session := rfl
@[simp] theorem State.noteAck_phase (v : Level) : (s.noteAck v).phase = s.phase := rfl
@[simp] theorem State.noteAck_call (v : Level) : (s.noteAck v).call = s.call := rfl
@[simp] theorem State.noteAck_actionPos (v : Level) : (s.noteAck v).actionPos = s.actionPos := rfl
@[simp] theorem State.noteAck_waiting (v : Level) : (s.noteAck v).waiting = s.waiting := rfl
@[simp] theorem State.noteAck_returned (v : Level) : (s.noteAck v).returned = s.returned := rfl
@[simp] theorem State.noteAck_commandWin (v : Level) :
    (s.noteAck v).commandWin = s.commandWin := rfl
@[simp] theorem State.noteAck_controlWin (v : Level) :
    (s.noteAck v).controlWin = s.controlWin := rfl
@[simp] theorem State.noteAck_busy (v : Level) : (s.noteAck v).busy = s.busy := rfl
@[simp] theorem State.noteAck_ackf (v : Level) :
    (s.noteAck v).ackf = ackAfterSample v (Config.ackFailure s.draws) s.ackf := rfl
@[simp] theorem State.noteAck_fp (v : Level) : (s.noteAck v).fp = s.fp := rfl
@[simp] theorem State.noteAck_rsh (v : Level) : (s.noteAck v).rsh = s.rsh := rfl
@[simp] theorem State.noteAck_rcnt (v : Level) : (s.noteAck v).rcnt = s.rcnt := rfl
@[simp] theorem State.noteAck_rptr (v : Level) : (s.noteAck v).rptr = s.rptr := rfl
@[simp] theorem State.noteAck_scl (v : Level) : (s.noteAck v).scl = s.scl := rfl
@[simp] theorem State.noteAck_sdam (v : Level) : (s.noteAck v).sdam = s.sdam := rfl
@[simp] theorem State.noteAck_wire (v : Level) : (s.noteAck v).wire = s.wire := rfl
@[simp] theorem State.noteAck_slave (v : Level) : (s.noteAck v).slave = s.slave := rfl
@[simp] theorem State.noteAck_sched (v : Level) : (s.noteAck v).sched = s.sched := rfl
@[simp] theorem State.noteAck_draws (v : Level) :
    (s.noteAck v).draws = if v then s.draws + 1 else s.draws := rfl
@[simp] theorem State.noteAck_plays (v : Level) : (s.noteAck v).plays = s.plays := rfl

@[simp] theorem raise_dev (e : BusError) : (raise e s).dev = s.dev := rfl
@[simp] theorem raise_lock (e : BusError) : (raise e s).lock = s.lock := rfl
@[simp] theorem raise_session (e : BusError) : (raise e s).session = s.session := rfl
@[simp] theorem raise_phase (e : BusError) : (raise e s).phase = .done (.error e) := rfl
@[simp] theorem raise_call (e : BusError) : (raise e s).call = s.call := rfl
@[simp] theorem raise_actionPos (e : BusError) : (raise e s).actionPos = s.actionPos := rfl
@[simp] theorem raise_waiting (e : BusError) : (raise e s).waiting = s.waiting := rfl
@[simp] theorem raise_returned (e : BusError) : (raise e s).returned = s.returned := rfl
@[simp] theorem raise_commandWin (e : BusError) : (raise e s).commandWin = s.commandWin := rfl
@[simp] theorem raise_controlWin (e : BusError) : (raise e s).controlWin = s.controlWin := rfl
@[simp] theorem raise_busy (e : BusError) : (raise e s).busy = s.busy := rfl
@[simp] theorem raise_ackf (e : BusError) : (raise e s).ackf = s.ackf := rfl
@[simp] theorem raise_fp (e : BusError) : (raise e s).fp = s.fp := rfl
@[simp] theorem raise_rsh (e : BusError) : (raise e s).rsh = s.rsh := rfl
@[simp] theorem raise_rcnt (e : BusError) : (raise e s).rcnt = s.rcnt := rfl
@[simp] theorem raise_rptr (e : BusError) : (raise e s).rptr = s.rptr := rfl
@[simp] theorem raise_scl (e : BusError) : (raise e s).scl = s.scl := rfl
@[simp] theorem raise_sdam (e : BusError) : (raise e s).sdam = s.sdam := rfl
@[simp] theorem raise_wire (e : BusError) : (raise e s).wire = s.wire := rfl
@[simp] theorem raise_slave (e : BusError) : (raise e s).slave = s.slave := rfl
@[simp] theorem raise_sched (e : BusError) : (raise e s).sched = s.sched := rfl
@[simp] theorem raise_draws (e : BusError) : (raise e s).draws = s.draws := rfl
@[simp] theorem raise_plays (e : BusError) : (raise e s).plays = s.plays := rfl

@[simp] theorem State.pastFetch_dev : s.pastFetch.dev = s.dev := rfl
@[simp] theorem State.pastFetch_lock : s.pastFetch.lock = s.lock := rfl
@[simp] theorem State.pastFetch_session : s.pastFetch.session = s.session := rfl
@[simp] theorem State.pastFetch_phase : s.pastFetch.phase = s.phase := rfl
@[simp] theorem State.pastFetch_call : s.pastFetch.call = s.call := rfl
@[simp] theorem State.pastFetch_actionPos : s.pastFetch.actionPos = s.actionPos := rfl
@[simp] theorem State.pastFetch_waiting : s.pastFetch.waiting = s.waiting := rfl
@[simp] theorem State.pastFetch_returned : s.pastFetch.returned = s.returned := rfl
@[simp] theorem State.pastFetch_commandWin : s.pastFetch.commandWin = s.commandWin := rfl
@[simp] theorem State.pastFetch_controlWin : s.pastFetch.controlWin = s.controlWin := rfl
@[simp] theorem State.pastFetch_busy : s.pastFetch.busy = s.busy := rfl
@[simp] theorem State.pastFetch_ackf : s.pastFetch.ackf = s.ackf := rfl
@[simp] theorem State.pastFetch_fp : s.pastFetch.fp = s.fp + 1 := rfl
@[simp] theorem State.pastFetch_rsh : s.pastFetch.rsh = s.rsh := rfl
@[simp] theorem State.pastFetch_rcnt : s.pastFetch.rcnt = s.rcnt := rfl
@[simp] theorem State.pastFetch_rptr : s.pastFetch.rptr = s.rptr := rfl
@[simp] theorem State.pastFetch_scl : s.pastFetch.scl = s.scl := rfl
@[simp] theorem State.pastFetch_sdam : s.pastFetch.sdam = s.sdam := rfl
@[simp] theorem State.pastFetch_wire : s.pastFetch.wire = s.wire := rfl
@[simp] theorem State.pastFetch_slave : s.pastFetch.slave = s.slave := rfl
@[simp] theorem State.pastFetch_sched : s.pastFetch.sched = s.sched := rfl
@[simp] theorem State.pastFetch_draws : s.pastFetch.draws = s.draws := rfl
@[simp] theorem State.pastFetch_plays : s.pastFetch.plays = s.plays := rfl

@[simp] theorem takeLock_dev (c : Call) (rest : List Call) : (takeLock c rest s).dev = s.dev := rfl
@[simp] theorem takeLock_lock (c : Call) (rest : List Call) :
    (takeLock c rest s).lock = .held c.thread := rfl
@[simp] theorem takeLock_session (c : Call) (rest : List Call) :
    (takeLock c rest s).session = s.session := rfl
@[simp] theorem takeLock_phase (c : Call) (rest : List Call) :
    (takeLock c rest s).phase = .validating := rfl
@[simp] theorem takeLock_call (c : Call) (rest : List Call) :
    (takeLock c rest s).call = some c := rfl
@[simp] theorem takeLock_actionPos (c : Call) (rest : List Call) :
    (takeLock c rest s).actionPos = s.actionPos := rfl
@[simp] theorem takeLock_waiting (c : Call) (rest : List Call) :
    (takeLock c rest s).waiting = rest := rfl
@[simp] theorem takeLock_returned (c : Call) (rest : List Call) :
    (takeLock c rest s).returned = s.returned := rfl
@[simp] theorem takeLock_commandWin (c : Call) (rest : List Call) :
    (takeLock c rest s).commandWin = s.commandWin := rfl
@[simp] theorem takeLock_controlWin (c : Call) (rest : List Call) :
    (takeLock c rest s).controlWin = s.controlWin := rfl
@[simp] theorem takeLock_busy (c : Call) (rest : List Call) :
    (takeLock c rest s).busy = s.busy := rfl
@[simp] theorem takeLock_ackf (c : Call) (rest : List Call) :
    (takeLock c rest s).ackf = s.ackf := rfl
@[simp] theorem takeLock_fp (c : Call) (rest : List Call) : (takeLock c rest s).fp = s.fp := rfl
@[simp] theorem takeLock_rsh (c : Call) (rest : List Call) : (takeLock c rest s).rsh = s.rsh := rfl
@[simp] theorem takeLock_rcnt (c : Call) (rest : List Call) :
    (takeLock c rest s).rcnt = s.rcnt := rfl
@[simp] theorem takeLock_rptr (c : Call) (rest : List Call) :
    (takeLock c rest s).rptr = s.rptr := rfl
@[simp] theorem takeLock_scl (c : Call) (rest : List Call) : (takeLock c rest s).scl = s.scl := rfl
@[simp] theorem takeLock_sdam (c : Call) (rest : List Call) :
    (takeLock c rest s).sdam = s.sdam := rfl
@[simp] theorem takeLock_wire (c : Call) (rest : List Call) :
    (takeLock c rest s).wire = s.wire := rfl
@[simp] theorem takeLock_slave (c : Call) (rest : List Call) :
    (takeLock c rest s).slave = s.slave := rfl
@[simp] theorem takeLock_sched (c : Call) (rest : List Call) :
    (takeLock c rest s).sched = s.sched := rfl
@[simp] theorem takeLock_draws (c : Call) (rest : List Call) :
    (takeLock c rest s).draws = s.draws := rfl
@[simp] theorem takeLock_plays (c : Call) (rest : List Call) :
    (takeLock c rest s).plays = s.plays := rfl

@[simp] theorem leave_dev (c : Call) (r : Result) : (leave c r s).dev = s.dev := rfl
@[simp] theorem leave_lock (c : Call) (r : Result) : (leave c r s).lock = .free := rfl
@[simp] theorem leave_session (c : Call) (r : Result) : (leave c r s).session = none := rfl
@[simp] theorem leave_phase (c : Call) (r : Result) : (leave c r s).phase = .idle := rfl
@[simp] theorem leave_call (c : Call) (r : Result) : (leave c r s).call = none := rfl
@[simp] theorem leave_actionPos (c : Call) (r : Result) : (leave c r s).actionPos = 0 := rfl
@[simp] theorem leave_waiting (c : Call) (r : Result) : (leave c r s).waiting = s.waiting := rfl
@[simp] theorem leave_returned (c : Call) (r : Result) :
    (leave c r s).returned = s.returned ++ [{ thread := c.thread, result := r, tx := c.tx }] := rfl
@[simp] theorem leave_commandWin (c : Call) (r : Result) :
    (leave c r s).commandWin = s.commandWin := rfl
@[simp] theorem leave_controlWin (c : Call) (r : Result) :
    (leave c r s).controlWin = s.controlWin := rfl
@[simp] theorem leave_busy (c : Call) (r : Result) : (leave c r s).busy = s.busy := rfl
@[simp] theorem leave_ackf (c : Call) (r : Result) : (leave c r s).ackf = s.ackf := rfl
@[simp] theorem leave_fp (c : Call) (r : Result) : (leave c r s).fp = s.fp := rfl
@[simp] theorem leave_rsh (c : Call) (r : Result) : (leave c r s).rsh = s.rsh := rfl
@[simp] theorem leave_rcnt (c : Call) (r : Result) : (leave c r s).rcnt = s.rcnt := rfl
@[simp] theorem leave_rptr (c : Call) (r : Result) : (leave c r s).rptr = s.rptr := rfl
@[simp] theorem leave_scl (c : Call) (r : Result) : (leave c r s).scl = s.scl := rfl
@[simp] theorem leave_sdam (c : Call) (r : Result) : (leave c r s).sdam = s.sdam := rfl
@[simp] theorem leave_wire (c : Call) (r : Result) : (leave c r s).wire = s.wire := rfl
@[simp] theorem leave_slave (c : Call) (r : Result) : (leave c r s).slave = s.slave := rfl
@[simp] theorem leave_sched (c : Call) (r : Result) : (leave c r s).sched = s.sched := rfl
@[simp] theorem leave_draws (c : Call) (r : Result) : (leave c r s).draws = s.draws := rfl
@[simp] theorem leave_plays (c : Call) (r : Result) : (leave c r s).plays = s.plays := rfl

@[simp] theorem State.writeByte_dev (w : Window) (a : Nat) (v : Byte) :
    (s.writeByte w a v).dev = s.dev := by cases w <;> rfl
@[simp] theorem State.writeByte_lock (w : Window) (a : Nat) (v : Byte) :
    (s.writeByte w a v).lock = s.lock := by cases w <;> rfl
@[simp] theorem State.writeByte_session (w : Window) (a : Nat) (v : Byte) :
    (s.writeByte w a v).session = s.session := by cases w <;> rfl
@[simp] theorem State.writeByte_phase (w : Window) (a : Nat) (v : Byte) :
    (s.writeByte w a v).phase = s.phase := by cases w <;> rfl
@[simp] theorem State.writeByte_call (w : Window) (a : Nat) (v : Byte) :
    (s.writeByte w a v).call = s.call := by cases w <;> rfl
@[simp] theorem State.writeByte_actionPos (w : Window) (a : Nat) (v : Byte) :
    (s.writeByte w a v).actionPos = s.actionPos := by cases w <;> rfl
@[simp] theorem State.writeByte_waiting (w : Window) (a : Nat) (v : Byte) :
    (s.writeByte w a v).waiting = s.waiting := by cases w <;> rfl
@[simp] theorem State.writeByte_returned (w : Window) (a : Nat) (v : Byte) :
    (s.writeByte w a v).returned = s.returned := by cases w <;> rfl
@[simp] theorem State.writeByte_busy (w : Window) (a : Nat) (v : Byte) :
    (s.writeByte w a v).busy = s.busy := by cases w <;> rfl
@[simp] theorem State.writeByte_ackf (w : Window) (a : Nat) (v : Byte) :
    (s.writeByte w a v).ackf = s.ackf := by cases w <;> rfl
@[simp] theorem State.writeByte_fp (w : Window) (a : Nat) (v : Byte) :
    (s.writeByte w a v).fp = s.fp := by cases w <;> rfl
@[simp] theorem State.writeByte_rsh (w : Window) (a : Nat) (v : Byte) :
    (s.writeByte w a v).rsh = s.rsh := by cases w <;> rfl
@[simp] theorem State.writeByte_rcnt (w : Window) (a : Nat) (v : Byte) :
    (s.writeByte w a v).rcnt = s.rcnt := by cases w <;> rfl
@[simp] theorem State.writeByte_rptr (w : Window) (a : Nat) (v : Byte) :
    (s.writeByte w a v).rptr = s.rptr := by cases w <;> rfl
@[simp] theorem State.writeByte_scl (w : Window) (a : Nat) (v : Byte) :
    (s.writeByte w a v).scl = s.scl := by cases w <;> rfl
@[simp] theorem State.writeByte_sdam (w : Window) (a : Nat) (v : Byte) :
    (s.writeByte w a v).sdam = s.sdam := by cases w <;> rfl
@[simp] theorem State.writeByte_wire (w : Window) (a : Nat) (v : Byte) :
    (s.writeByte w a v).wire = s.wire := by cases w <;> rfl
@[simp] theorem State.writeByte_slave (w : Window) (a : Nat) (v : Byte) :
    (s.writeByte w a v).slave = s.slave := by cases w <;> rfl
@[simp] theorem State.writeByte_sched (w : Window) (a : Nat) (v : Byte) :
    (s.writeByte w a v).sched = s.sched := by cases w <;> rfl
@[simp] theorem State.writeByte_draws (w : Window) (a : Nat) (v : Byte) :
    (s.writeByte w a v).draws = s.draws := by cases w <;> rfl
@[simp] theorem State.writeByte_plays (w : Window) (a : Nat) (v : Byte) :
    (s.writeByte w a v).plays = s.plays := by cases w <;> rfl

@[simp] theorem State.afterSample_dev :
    s.afterSample.dev = s.dev := by unfold State.afterSample; split <;> simp_all
@[simp] theorem State.afterSample_lock :
    s.afterSample.lock = s.lock := by unfold State.afterSample; split <;> simp_all
@[simp] theorem State.afterSample_session :
    s.afterSample.session = s.session := by unfold State.afterSample; split <;> simp_all
@[simp] theorem State.afterSample_phase :
    s.afterSample.phase = s.phase := by unfold State.afterSample; split <;> simp_all
@[simp] theorem State.afterSample_call :
    s.afterSample.call = s.call := by unfold State.afterSample; split <;> simp_all
@[simp] theorem State.afterSample_actionPos :
    s.afterSample.actionPos = s.actionPos := by unfold State.afterSample; split <;> simp_all
@[simp] theorem State.afterSample_waiting :
    s.afterSample.waiting = s.waiting := by unfold State.afterSample; split <;> simp_all
@[simp] theorem State.afterSample_returned :
    s.afterSample.returned = s.returned := by unfold State.afterSample; split <;> simp_all
@[simp] theorem State.afterSample_commandWin :
    s.afterSample.commandWin = s.commandWin := by unfold State.afterSample; split <;> simp_all
@[simp] theorem State.afterSample_controlWin :
    s.afterSample.controlWin = s.controlWin := by unfold State.afterSample; split <;> simp_all
@[simp] theorem State.afterSample_busy :
    s.afterSample.busy = s.busy := by unfold State.afterSample; split <;> simp_all
@[simp] theorem State.afterSample_ackf :
    s.afterSample.ackf = s.ackf := by unfold State.afterSample; split <;> simp_all
@[simp] theorem State.afterSample_fp :
    s.afterSample.fp = s.fp := by unfold State.afterSample; split <;> simp_all
@[simp] theorem State.afterSample_rsh :
    s.afterSample.rsh = s.rsh := by unfold State.afterSample; split <;> simp_all
@[simp] theorem State.afterSample_rcnt :
    s.afterSample.rcnt = s.rcnt := by unfold State.afterSample; split <;> simp_all
@[simp] theorem State.afterSample_rptr :
    s.afterSample.rptr = s.rptr := by unfold State.afterSample; split <;> simp_all
@[simp] theorem State.afterSample_scl :
    s.afterSample.scl = s.scl := by unfold State.afterSample; split <;> simp_all
@[simp] theorem State.afterSample_sdam :
    s.afterSample.sdam = s.sdam := by unfold State.afterSample; split <;> simp_all
@[simp] theorem State.afterSample_wire :
    s.afterSample.wire = s.wire := by unfold State.afterSample; split <;> simp_all
@[simp] theorem State.afterSample_slave :
    s.afterSample.slave = s.slave.tail := by unfold State.afterSample; split <;> simp_all
@[simp] theorem State.afterSample_sched :
    s.afterSample.sched = s.sched := by unfold State.afterSample; split <;> simp_all
@[simp] theorem State.afterSample_plays :
    s.afterSample.plays = s.plays := by unfold State.afterSample; split <;> simp_all

@[simp] theorem State.writeByte_command_commandWin (a : Nat) (v : Byte) :
    (s.writeByte .command a v).commandWin = s.commandWin.write a v := rfl
@[simp] theorem State.writeByte_command_controlWin (a : Nat) (v : Byte) :
    (s.writeByte .command a v).controlWin = s.controlWin := rfl
@[simp] theorem State.writeByte_control_commandWin (a : Nat) (v : Byte) :
    (s.writeByte .control a v).commandWin = s.commandWin := rfl
@[simp] theorem State.writeByte_control_controlWin (a : Nat) (v : Byte) :
    (s.writeByte .control a v).controlWin = s.controlWin.write a v := rfl

end Sys2Proof.Machine
end

