-- ==== Sys2Proof/Laws/Ops.lean ====
section
/-! SUPPORT. What each shared operation can do, said once: if it answers a next state, then that one. -/

namespace Sys2Proof.Machine

variable {s t : State}

/-! ### Sequencing -/

@[simp] theorem andThen_next (s : State) (f : State → Out) : andThen (.next s) f = f s := rfl
@[simp] theorem andThen_fault (r : Fault) (f : State → Out) : andThen (.fault r) f = .fault r := rfl
@[simp] theorem andThen_refused (r : Refusal) (f : State → Out) :
    andThen (.refused r) f = .refused r := rfl

theorem andThen_eq_next {o : Out} {f : State → Out} :
    andThen o f = .next t ↔ ∃ u, o = .next u ∧ f u = .next t := by
  cases o <;> simp

theorem andThen_assoc (o : Out) (f g : State → Out) :
    andThen (andThen o f) g = andThen o fun u => andThen (f u) g := by
  cases o <;> rfl

/-! ### Windows -/

@[simp] theorem State.readByte_writeByte_same (s : State) (w : Window) (a : Nat) (v : Byte) :
    (s.writeByte w a v).readByte w a = some v := by
  cases w <;> simp [State.readByte, State.window]

theorem State.readByte_writeByte_other (s : State) {w u : Window} {a b : Nat} (v : Byte)
    (h : u ≠ w ∨ b ≠ a) : (s.writeByte w a v).readByte u b = s.readByte u b := by
  cases w <;> cases u <;>
    simp_all [State.readByte, State.window, Memory.read_write_other]

@[simp] theorem State.window_setScl (s : State) (v : Level) : (s.setScl v).window = s.window := rfl
@[simp] theorem State.window_setSda (s : State) (v : Level) : (s.setSda v).window = s.window := rfl
@[simp] theorem State.window_record (s : State) (e : BusEvent) : (s.record e).window = s.window := rfl

@[simp] theorem State.engineEnabled_writeByte (s : State) (w : Window) (a : Nat) (v : Byte) :
    (s.writeByte w a v).engineEnabled = s.engineEnabled := by
  cases w <;> rfl

@[simp] theorem State.busy_writeByte (s : State) (w : Window) (a : Nat) (v : Byte) :
    (s.writeByte w a v).busy = s.busy := by
  cases w <;> rfl

@[simp] theorem State.edge_scl_low (s : State) (v : Level) (h : s.scl = false) : s.edge v = [] := by
  simp [State.edge, h]

/-- A write of a command-buffer byte that goes on is inside the buffer, finds `busy` 0, and changes that
byte of the window. -/
theorem cbWrite_eq_next {i : Nat} {v : Byte} :
    cbWrite i v s = .next t ↔
      i < s.dev.cbCapacity ∧ s.busy = false ∧
        t = s.writeByte .command (s.dev.cbWinBase + i) v := by
  unfold cbWrite
  split <;> rename_i h
  · simp only [reduceCtorEq, false_iff]
    omega
  · cases hb : s.busy
    · simp [eq_comm, Nat.lt_of_not_le h]
    · simp

theorem cbWrite_no_fault {i : Nat} {v : Byte} {r : Fault} : cbWrite i v s ≠ .fault r := by
  unfold cbWrite
  split <;> [simp; skip]
  split <;> simp

/-- A trigger that goes on was written to an idle engine and names a byte of the buffer. -/
theorem triggerWrite_eq_next {x : Nat} :
    triggerWrite x s = .next t ↔
      s.busy = false ∧ x < s.dev.cbCapacity ∧
        t = { s with
              busy := true, ackf := 0#2, fp := 2 * x, rcnt := 0, rptr := 0,
              plays := s.plays + 1 } := by
  unfold triggerWrite
  cases hb : s.busy
  · simp only [Bool.false_eq_true, ↓reduceIte, true_and]
    split <;> rename_i h
    · simp only [reduceCtorEq, false_iff]
      omega
    · simp [eq_comm]
      omega
  · simp

theorem triggerWrite_no_fault {x : Nat} {r : Fault} : triggerWrite x s ≠ .fault r := by
  unfold triggerWrite
  split <;> [simp; skip]
  split <;> simp

/-! ### The writer -/

/-- With the latch empty a command is only buffered. -/
theorem emit_empty {q : Session} (h : s.session = some q) (hl : q.latchFull = false) (c : Command) :
    emit c s =
      .next { s with session := some { ncmd := q.ncmd + 1, latch := s.dev.opc.code c } } := by
  simp [emit, h, hl]

/-- With the latch full a command commits one byte. -/
theorem emit_full {q : Session} (h : s.session = some q) (hl : q.latchFull = true) (c : Command) :
    emit c s =
      andThen (cbWrite (s.cursor q) (pack q.latch (s.dev.opc.code c)) s) fun t =>
        .next { t with session := some { q with ncmd := q.ncmd + 1 } } := by
  simp [emit, h, hl]

/-- An `emit` that goes on has a session, counts one command, and either buffers it or commits one byte
at the cursor, inside the buffer and with no running playback. -/
theorem emit_eq_next {c : Command} :
    emit c s = .next t ↔
      ∃ q, s.session = some q ∧
        ((q.latchFull = false ∧
            t = { s with session := some { ncmd := q.ncmd + 1, latch := s.dev.opc.code c } }) ∨
          (q.latchFull = true ∧ s.cursor q < s.dev.cbCapacity ∧ s.busy = false ∧
            t = { s.writeByte .command (s.dev.cbWinBase + s.cursor q)
                    (pack q.latch (s.dev.opc.code c)) with
                  session := some { q with ncmd := q.ncmd + 1 } })) := by
  cases h : s.session with
  | none => simp [emit, h]
  | some q =>
    cases hl : q.latchFull
    · rw [emit_empty h hl]
      constructor
      · intro e
        injection e with e
        exact ⟨q, rfl, .inl ⟨hl, e.symm⟩⟩
      · rintro ⟨q', hq, ⟨-, rfl⟩ | ⟨h', -⟩⟩
        · injection hq with hq
          rw [hq]
        · simp_all
    · simp only [emit_full h hl, andThen_eq_next, cbWrite_eq_next, Option.some.injEq]
      constructor
      · rintro ⟨u, ⟨h1, h2, rfl⟩, h3⟩
        injection h3 with h3
        exact ⟨q, rfl, .inr ⟨hl, h1, h2, h3.symm⟩⟩
      · rintro ⟨q', rfl, ⟨h', -⟩ | ⟨-, h1, h2, rfl⟩⟩
        · simp_all
        · exact ⟨_, ⟨h1, h2, rfl⟩, rfl⟩

@[simp] theorem emitAll_nil (s : State) : emitAll [] s = .next s := rfl
@[simp] theorem emitAll_cons (c : Command) (cs : List Command) (s : State) :
    emitAll (c :: cs) s = andThen (emit c s) (emitAll cs) := rfl

theorem emitAll_append (cs ds : List Command) (s : State) :
    emitAll (cs ++ ds) s = andThen (emitAll cs s) (emitAll ds) := by
  induction cs generalizing s with
  | nil => rfl
  | cons c cs ih => simp [andThen_assoc, funext ih]

/-! ### Lines and samples -/

@[simp] theorem State.slaveDrive_setScl (s : State) (v : Level) :
    (s.setScl v).slaveDrive = s.slaveDrive := rfl
@[simp] theorem State.slaveDrive_setSda (s : State) (v : Level) :
    (s.setSda v).slaveDrive = s.slaveDrive := rfl

/-- With the master's drive released a sample is the slave's drive (rule R135). -/
@[simp] theorem State.sampledLevel_released (s : State) :
    ((s.setSda true).setScl true).sampledLevel = s.slaveDrive := by
  simp [State.sampledLevel]

@[simp] theorem pulse_eq (v : Level) (act : State → Out) (s : State) :
    pulse v act s = andThen (act ((s.setSda v).setScl true)) fun t => .next (t.setScl false) := rfl

/-- A bit that does not complete a byte is only shifted in. -/
theorem collectBit_partial {v : Level} (h : s.rcnt ≠ 7) :
    collectBit v s = .next { s with rsh := shiftIn s.rsh v, rcnt := s.rcnt + 1 } := by
  simp [collectBit, h]

/-- The eighth bit commits one byte of the readback window. -/
theorem collectBit_commit {v : Level} (h : s.rcnt = 7) (hr : s.rptr < s.dev.rbCapacity) :
    collectBit v s =
      .next { s.writeByte s.dev.rbWindow (s.dev.rbBase + s.rptr) (shiftIn s.rsh v) with
        rsh := shiftIn s.rsh v, rcnt := 0, rptr := s.rptr + 1 } := by
  simp [collectBit, h, Nat.not_le.2 hr]

/-- The eighth bit of a byte that does not fit the readback window is refused. -/
theorem collectBit_full {v : Level} (h : s.rcnt = 7) (hr : s.dev.rbCapacity ≤ s.rptr) :
    collectBit v s = .refused (.readbackFull s.rptr) := by
  simp [collectBit, h, hr]

/-- The two things a collected bit can do. -/
theorem collectBit_eq_next {v : Level} :
    collectBit v s = .next t ↔
      (s.rcnt ≠ 7 ∧ t = { s with rsh := shiftIn s.rsh v, rcnt := s.rcnt + 1 }) ∨
        (s.rcnt = 7 ∧ s.rptr < s.dev.rbCapacity ∧
          t = { s.writeByte s.dev.rbWindow (s.dev.rbBase + s.rptr) (shiftIn s.rsh v) with
                rsh := shiftIn s.rsh v, rcnt := 0, rptr := s.rptr + 1 }) := by
  by_cases h : s.rcnt = 7
  · by_cases hr : s.rptr < s.dev.rbCapacity
    · simp [collectBit_commit h hr, h, hr, eq_comm]
    · simp [collectBit_full h (Nat.not_lt.1 hr), h, hr]
  · simp [collectBit_partial h, h, eq_comm]

theorem collectBit_no_fault {v : Level} {r : Fault} : collectBit v s ≠ .fault r := by
  unfold collectBit
  split <;> [skip; simp]
  split <;> simp

/-! ### Status -/

@[simp] theorem State.statusWord_busy (s : State) : s.statusWord.busy = s.busy := rfl
@[simp] theorem State.statusWord_ackf (s : State) : s.statusWord.ackf = s.ackf := rfl

/-- What a sample adds to the acknowledgement bits is never taken away (rule R35). -/
theorem ackAfterSample_keeps (v : Level) (e : AckSubset) (a : BitVec 2) :
    a &&& ackAfterSample v e a = a := by
  cases v <;> cases e <;> revert a <;> decide

/-- A failed sample leaves the acknowledgement bits not both 0 (rule R132). -/
theorem ackAfterSample_failed (e : AckSubset) (a : BitVec 2) : ackAfterSample true e a ≠ 0#2 := by
  cases e <;> revert a <;> decide

end Sys2Proof.Machine
end

