-- ==== Sys2Proof/Laws/Exec.lean ====
section
/-! SUPPORT. What each primitive command does, said once over the named updates of the state. -/

namespace Sys2Proof.Machine

variable {s t : State}

theorem execDataLowNoAck_eq (s : State) :
    execDataLowNoAck s =
      .next ((((s.setSda false).setScl true).record (.wbit false)).setScl false) := rfl

theorem execDataHighNoAck_eq (s : State) :
    execDataHighNoAck s =
      .next ((((s.setSda true).setScl true).record (.wbit true)).setScl false) := rfl

/-- `DataHighRead`: the sampled bit is the slave's drive, recorded and collected. -/
theorem execDataHighRead_eq (s : State) :
    execDataHighRead s =
      andThen
        (collectBit s.slaveDrive
          (((s.setSda true).setScl true).afterSample.record (.rbit s.slaveDrive)))
        fun t => .next (t.setScl false) := by
  simp [execDataHighRead]

/-- `DataHighAck0`: the sampled level is the slave's drive, recorded and noted. -/
theorem execDataHighAck0_eq (s : State) :
    execDataHighAck0 s =
      .next (((((s.setSda true).setScl true).afterSample.record (.acks s.slaveDrive)).noteAck
        s.slaveDrive).setScl false) := by
  simp [execDataHighAck0]

/-- `Terminate` is the emission of its commands, the padding included: the count after it is even. -/
theorem execTerminate_eq {q : Session} (h : s.session = some q) :
    execTerminate s = emitAll (terminateCommands q.latchFull) s := by
  have key : ∀ (cs : List Command) (u : State) (q : Session), u.session = some q →
      (q.ncmd + cs.length) % 2 = 1 →
      andThen (emitAll cs u) flushPartial = emitAll (cs ++ [.endCmd]) u := by
    intro cs
    induction cs with
    | nil =>
      intro u q hu hp
      have hl : q.latchFull = true := by simpa [Session.latchFull] using hp
      simp only [emitAll_nil, andThen_next, List.nil_append, emitAll_cons, flushPartial, hu, hl,
        ↓reduceIte]
      cases emit .endCmd u <;> rfl
    | cons c cs ih =>
      intro u q hu hp
      simp only [emitAll_cons, List.cons_append, andThen_assoc]
      cases he : emit c u with
      | fault r => rfl
      | refused r => rfl
      | next v =>
        obtain ⟨q', hq', hv⟩ := emit_eq_next.1 he
        obtain rfl : q' = q := by simpa [hu] using hq'.symm
        simp only [andThen_next]
        rcases hv with ⟨-, rfl⟩ | ⟨-, -, -, rfl⟩
        · exact ih _ _ rfl (by simp at hp ⊢; omega)
        · exact ih _ _ rfl (by simp at hp ⊢; omega)
  simp only [execTerminate, h, terminateCommands]
  refine key _ s q h ?_
  cases hl : q.latchFull <;> simp [Session.latchFull] at hl <;> simp [trailingEnds] <;> omega

end Sys2Proof.Machine
end

