-- ==== Sys2Proof/Laws/PerInstr.lean ====
section
/-! SUPPORT. The families of statements made per instruction. -/

namespace Sys2Proof.Laws

/-- How many nibbles an instruction's encoding has (rules R90, R157, R221). -/
def nibbleCount (latchFull : Bool) : Instr → Nat
  | .endCmd => 1
  | .setAddress => 1
  | .clockLow => 1
  | .clockHigh => 1
  | .dataLow => 1
  | .dataHigh => 1
  | .reset => 1
  | .idle => 1
  | .dataLowNoAck => 1
  | .dataHighNoAck => 1
  | .dataHighRead => 1
  | .dataHighAck0 => 1
  | .dataHighAck1 => 1
  | .reserved9 => 1
  | .reservedA => 1
  | .reservedB => 1
  | .start => 4
  | .byteWrite _ => 9
  | .byteRead n => 9 * n
  | .stop => 3
  | .terminate => if latchFull then 3 else 2

/-- The length of an encoding, whatever the opcode table (rules R90, R157, R221). -/
def EncodingLength.Statement (i : Instr) : Prop :=
  ∀ (t : OpcTable) (latchFull : Bool), (encode t latchFull i).length = nibbleCount latchFull i

theorem byteReadCommands_length (n : Nat) : (byteReadCommands n).length = 9 * n := by
  induction n using byteReadCommands.induct with
  | case1 => rfl
  | case2 => rfl
  | case3 n ih =>
    simp only [byteReadCommands, readByteCommands, List.length_append, List.length_replicate,
      List.length_cons, ih]
    omega

theorem EncodingLength.endCmd : Statement .endCmd := fun _ _ => rfl
theorem EncodingLength.setAddress : Statement .setAddress := fun _ _ => rfl
theorem EncodingLength.clockLow : Statement .clockLow := fun _ _ => rfl
theorem EncodingLength.clockHigh : Statement .clockHigh := fun _ _ => rfl
theorem EncodingLength.dataLow : Statement .dataLow := fun _ _ => rfl
theorem EncodingLength.dataHigh : Statement .dataHigh := fun _ _ => rfl
theorem EncodingLength.reset : Statement .reset := fun _ _ => rfl
theorem EncodingLength.idle : Statement .idle := fun _ _ => rfl
theorem EncodingLength.dataLowNoAck : Statement .dataLowNoAck := fun _ _ => rfl
theorem EncodingLength.dataHighNoAck : Statement .dataHighNoAck := fun _ _ => rfl
theorem EncodingLength.dataHighRead : Statement .dataHighRead := fun _ _ => rfl
theorem EncodingLength.dataHighAck0 : Statement .dataHighAck0 := fun _ _ => rfl
theorem EncodingLength.dataHighAck1 : Statement .dataHighAck1 := fun _ _ => rfl
theorem EncodingLength.reserved9 : Statement .reserved9 := fun _ _ => rfl
theorem EncodingLength.reservedA : Statement .reservedA := fun _ _ => rfl
theorem EncodingLength.reservedB : Statement .reservedB := fun _ _ => rfl
theorem EncodingLength.start : Statement .start := fun _ _ => rfl
theorem EncodingLength.byteWrite (b : Byte) : Statement (.byteWrite b) := fun _ _ => rfl
theorem EncodingLength.byteRead (n : Nat) : Statement (.byteRead n) := fun _ _ => by
  simp [encode, nibbleCount, byteReadCommands_length]
theorem EncodingLength.stop : Statement .stop := fun _ _ => rfl
theorem EncodingLength.terminate : Statement .terminate := fun _ latchFull => by
  cases latchFull <;> rfl

end Sys2Proof.Laws
end

