-- ==== Sys2Proof/Laws/Step.lean ====
section
/-! SUPPORT. What a step can do, said once for each agent: cited instead of unfolding the step. -/

namespace Sys2Proof.Machine

variable {s t : State}

/-! ### Decoding an opcode value -/

/-- Under a table of distinct values a command's value decodes to that command. -/
theorem decodeCommand_code {o : OpcTable} (h : o.wf = true) (c : Command) :
    decodeCommand o (o.code c) = some c := by
  have hv : (Command.all.map o.code).Nodup := by
    simp only [OpcTable.wf, decide_eq_true_eq] at h
    exact h
  have hinj : ∀ d, o.code d = o.code c → d = c := fun d hd =>
    List.inj_on_of_nodup_map hv (by cases d <;> decide) (by cases c <;> decide) hd
  obtain ⟨l₁, l₂, hl⟩ := List.append_of_mem (show c ∈ Command.all by cases c <;> decide)
  have hnd : Command.all.Nodup := by decide
  have hnone : l₁.find? (fun d => o.code d == o.code c) = none := by
    rw [List.find?_eq_none]
    intro d hd hh
    obtain rfl := hinj d (by simpa using hh)
    rw [hl, List.nodup_append] at hnd
    exact hnd.2.2 d hd d (by simp) rfl
  simp [decodeCommand, hl, List.find?_append, hnone]

/-! ### The engine -/

/-- What the execution of a command leaves alone: the sequencer's half and the inputs; and all it can do
to the windows: nothing, or one byte at the readback pointer. -/
structure EngineFrame (s t : State) : Prop where
  dev : t.dev = s.dev
  lock : t.lock = s.lock
  session : t.session = s.session
  phase : t.phase = s.phase
  call : t.call = s.call
  actionPos : t.actionPos = s.actionPos
  waiting : t.waiting = s.waiting
  returned : t.returned = s.returned
  sched : t.sched = s.sched
  plays : t.plays = s.plays
  fp : t.fp = s.fp
  windows :
    (t.commandWin = s.commandWin ∧ t.controlWin = s.controlWin ∧ t.rptr = s.rptr) ∨
      ∃ v,
        t.commandWin =
          (s.writeByte s.dev.rbWindow (s.dev.rbBase + s.rptr) v).commandWin ∧
        t.controlWin =
          (s.writeByte s.dev.rbWindow (s.dev.rbBase + s.rptr) v).controlWin ∧
        t.rptr = s.rptr + 1 ∧ s.rptr < s.dev.rbCapacity

/-- A command that goes on keeps the frame, and only `End` changes `busy`. -/
theorem exec_command_next {c : Command} (h : exec c.toInstr s = .next t) :
    EngineFrame s t ∧ t.busy = (if c = .endCmd then false else s.busy) := by
  cases c <;> simp only [Command.toInstr, exec] at h
  case setAddress => cases h
  case reset => cases h
  case idle => cases h
  case dataHighAck1 => cases h
  case dataHighRead =>
    rw [execDataHighRead_eq, andThen_eq_next] at h
    obtain ⟨u, hu, h⟩ := h
    injection h with h
    subst h
    rcases collectBit_eq_next.1 hu with ⟨-, rfl⟩ | ⟨-, hr, rfl⟩
    · exact ⟨by constructor <;> simp, by simp⟩
    · refine ⟨?_, by simp⟩
      have hr' : s.rptr < s.dev.rbCapacity := by simpa using hr
      constructor
      case windows =>
        refine .inr ⟨shiftIn s.rsh s.slaveDrive, ?_, ?_, by simp, hr'⟩ <;>
          cases hw : s.dev.rbWindow <;> simp [State.writeByte, hw]
      all_goals simp
  case dataHighAck0 =>
    rw [execDataHighAck0_eq] at h
    injection h with h
    subst h
    exact ⟨by constructor <;> simp, by simp⟩
  case dataLowNoAck =>
    rw [execDataLowNoAck_eq] at h
    injection h with h
    subst h
    exact ⟨by constructor <;> simp, by simp⟩
  case dataHighNoAck =>
    rw [execDataHighNoAck_eq] at h
    injection h with h
    subst h
    exact ⟨by constructor <;> simp, by simp⟩
  all_goals
    injection h with h
    subst h
    exact ⟨by constructor <;> simp, rfl⟩

/-- A step of the engine that goes on has fetched a command and executed it past the fetch. -/
theorem engineStep_next (h : engineStep s = .next t) :
    ∃ c : Command, decodeNibble s.dev.opc s.fetchNibble = some c.toInstr ∧
      exec c.toInstr s.pastFetch = .next t := by
  unfold engineStep at h
  unfold decodeNibble at *
  cases hc : decodeCommand s.dev.opc s.fetchNibble with
  | some c =>
    simp only [hc] at h
    exact ⟨c, rfl, h⟩
  | none =>
    simp only [hc] at h
    split_ifs at h <;> simp [exec, execReserved9, execReservedA, execReservedB] at h

/-! ### Emitting -/

/-- Emitting counts its commands, changes nothing but the session and bytes of the command buffer, and
keeps the canonical form and the cursor in the buffer. -/
theorem emitAll_frame {cs : List Command} (h : emitAll cs s = .next t) {q : Session}
    (hq : s.session = some q) :
    (∃ q', t.session = some q' ∧ q'.ncmd = q.ncmd + cs.length) ∧
      t = { s with session := t.session, commandWin := t.commandWin } ∧
      (Memory.wf s.commandWin → Memory.wf t.commandWin) ∧
      (∀ c ∈ t.commandWin, c ∈ s.commandWin ∨
        (s.dev.cbWinBase ≤ c.1 ∧ c.1 < s.dev.cbWinBase + s.dev.cbCapacity)) ∧
      (∀ a, a < s.dev.cbWinBase ∨ s.dev.cbWinBase + s.dev.cbCapacity ≤ a →
        t.readByte .command a = s.readByte .command a) ∧
      ∀ q', t.session = some q' → s.cursor q ≤ s.dev.cbCapacity → s.cursor q' ≤ s.dev.cbCapacity := by
  induction cs generalizing s q with
  | nil =>
    injection h with h
    subst h
    refine ⟨⟨q, hq, rfl⟩, rfl, id, fun c hc => .inl hc, fun _ _ => rfl, fun q' hq' h => ?_⟩
    obtain rfl : q = q' := by simpa [hq] using hq'
    exact h
  | cons c cs ih =>
    rw [emitAll_cons, andThen_eq_next] at h
    obtain ⟨u, hu, h⟩ := h
    obtain ⟨q₀, hq₀, hcase⟩ := emit_eq_next.1 hu
    obtain rfl : q = q₀ := by simpa [hq] using hq₀
    rcases hcase with ⟨hl, rfl⟩ | ⟨hl, hc, he, rfl⟩
    · obtain ⟨⟨q', hq', hn⟩, hf, hw, hm, hr, hcur⟩ := ih h rfl
      refine ⟨⟨q', hq', by simp [hn]; omega⟩, by rw [hf], hw, hm, hr,
        fun q'' h₁ h₂ => hcur q'' h₁ ?_⟩
      simp [State.cursor, Session.latchFull] at *
      omega
    · obtain ⟨⟨q', hq', hn⟩, hf, hw, hm, hr, hcur⟩ := ih h rfl
      refine ⟨⟨q', hq', by simp [hn]; omega⟩, by rw [hf]; simp,
        fun h => hw (Memory.write_wf h _ _), ?_, ?_, ?_⟩
      · intro c hc'
        rcases hm c hc' with h₁ | h₁
        · rcases Memory.mem_write h₁ with h₂ | h₂
          · right
            simp only [h₂]
            omega
          · exact .inl h₂
        · right
          simpa using h₁
      · intro a ha
        rw [hr a (by simpa using ha)]
        exact State.readByte_writeByte_other s (w := .command) (u := .command) _ (.inr (by omega))
      · intro q'' h₁ h₂
        have := hcur q'' h₁ ?_
        · simpa [State.cursor] using this
        · simp [State.cursor, Session.latchFull] at *
          omega

/-- The sequencer's next action, carried out in a session, is an emission. -/
theorem nextAction_emits {i : Instr} (hi : s.nextAction = some i) :
    ∃ f : Session → List Command, ∀ (u : State) (q : Session), u.session = some q →
      exec i u = emitAll (f q) u := by
  unfold State.nextAction at hi
  split at hi
  · split at hi
    · cases hi
    · rename_i m hm
      have hmem : i ∈ m.actions := List.mem_of_getElem? hi
      cases m <;> simp [Message.actions] at hmem
      · rcases hmem with rfl | rfl | ⟨b, -, rfl⟩
        · exact ⟨fun _ => startCommands, fun _ _ _ => rfl⟩
        · exact ⟨fun _ => _, fun _ _ _ => rfl⟩
        · exact ⟨fun _ => _, fun _ _ _ => rfl⟩
      · rcases hmem with rfl | rfl | rfl
        · exact ⟨fun _ => startCommands, fun _ _ _ => rfl⟩
        · exact ⟨fun _ => _, fun _ _ _ => rfl⟩
        · exact ⟨fun _ => _, fun _ _ _ => rfl⟩
  · injection hi with hi
    subst hi
    exact ⟨fun _ => stopCommands, fun _ _ _ => rfl⟩
  · injection hi with hi
    subst hi
    exact ⟨fun q => terminateCommands q.latchFull, fun _ _ h => execTerminate_eq h⟩
  all_goals cases hi

/-- Moving on changes the phase and the place in `execute` only. -/
theorem advance_frame (s : State) :
    advance s = { s with phase := (advance s).phase, actionPos := (advance s).actionPos } := by
  unfold advance
  split <;> (try split) <;> (try split) <;> (try split) <;> rfl

/-! ### The lock -/

/-- The winner is one of the waiting calls. -/
theorem winner_mem {k : Nat} {w : List Call} {c : Call} {r : List Call}
    (h : winner k w = some (c, r)) : c ∈ w := by
  unfold winner at h
  split at h
  · cases h
  · split at h
    · cases h
    · rename_i hc
      injection h with h
      injection h with h₁ h₂
      subst h₁
      exact List.mem_of_find?_eq_some hc

/-- Waiting for the lock changes nothing, or gives the free lock to a waiting call. -/
theorem acquire_next (h : acquire s = .next t) :
    t = s ∨ (s.lock = .free ∧ ∃ c ∈ s.waiting, t = { s with
      lock := .held c.thread, call := some c, waiting := t.waiting
      phase := .validating, draws := t.draws }) := by
  unfold acquire at h
  split at h
  · injection h with h
    exact .inl h.symm
  · injection h with h
    exact .inl h.symm
  · rename_i c hl hw
    injection h with h
    subst h
    exact .inr ⟨hl, c, by simp [hw], rfl⟩
  · rename_i c d cs hl hw
    split at h
    · injection h with h
      exact .inl h.symm
    · rename_i w rest hwn
      injection h with h
      subst h
      exact .inr ⟨hl, w, by rw [hw]; exact winner_mem hwn, rfl⟩

/-! ### The turn -/

/-- Choosing the turn uses up a listed choice or a draw, and the agent chosen has a step. -/
theorem turn_frame {a : Agent} {u : State} (h : s.turn = some (a, u)) :
    u = { s with sched := u.sched, draws := u.draws } ∧
      (a = .engine → s.engineEnabled = true) ∧ (a = .sequencer → s.sequencerEnabled = true) := by
  unfold State.turn at h
  cases h₁ : s.engineEnabled <;> cases h₂ : s.sequencerEnabled <;> simp only [h₁, h₂] at h
  · cases h
  · injection h with h
    injection h with ha hu
    subst hu ha
    simp
  · injection h with h
    injection h with ha hu
    subst hu ha
    simp
  · split at h <;> injection h with h <;> injection h with ha hu <;> subst hu ha <;> simp

/-- A step leaves the state as it is, or is a step of the engine or of the sequencer, taken after the
choice of the turn. -/
theorem step_next (h : step s = .next t) :
    t = s ∨ ∃ u, u = { s with sched := u.sched, draws := u.draws } ∧
      ((s.engineEnabled = true ∧ engineStep u = .next t) ∨
        (s.sequencerEnabled = true ∧ sequencerStep u = .next t)) := by
  unfold step turnStep at h
  split at h
  · injection h with h
    exact .inl h.symm
  · rename_i u ht
    exact .inr ⟨u, (turn_frame ht).1, .inl ⟨(turn_frame ht).2.1 rfl, h⟩⟩
  · rename_i u ht
    exact .inr ⟨u, (turn_frame ht).1, .inr ⟨(turn_frame ht).2.2 rfl, h⟩⟩

end Sys2Proof.Machine
end

