-- ==== Sys2Proof/Laws/Tuner.lean ====
section
/-! SUPPORT. What grouping the messages of the tuner's register program into transactions does, and the
bits of a byte that carries the frequency word. -/

namespace Sys2Proof.Machine

/-- Grouping drops, adds and reorders nothing. -/
theorem groupMessages_flatten (pause : Nat → Bool) (k : Nat) (inHand ms : List Message) :
    (groupMessages pause k inHand ms).flatten = inHand ++ ms := by
  induction ms generalizing k inHand with
  | nil => by_cases h : inHand = [] <;> simp [groupMessages, h]
  | cons m ms ih => simp only [groupMessages]; split <;> simp [ih]

/-- No transaction of a grouping is empty or longer than the limit of rule R8. -/
theorem groupMessages_length {pause : Nat → Bool} {k : Nat} {inHand ms : List Message}
    (h : inHand.length < maxMessages) :
    ∀ tx ∈ groupMessages pause k inHand ms, tx ≠ [] ∧ tx.length ≤ maxMessages := by
  induction ms generalizing k inHand with
  | nil =>
    by_cases h' : inHand = []
    · simp [groupMessages, h']
    · simpa [groupMessages, h'] using h.le
  | cons m ms ih =>
    simp only [groupMessages]
    split <;> rename_i hp
    · simpa [h] using ih (k := k + 1) (inHand := []) (by simp [maxMessages])
    · exact ih (by simp at hp ⊢; omega)

/-- A transaction of one to three writes is valid (rule R194). -/
theorem validate_writes {tx : Transaction} (hn : tx ≠ []) (hl : tx.length ≤ maxMessages)
    (hw : ∀ m ∈ tx, m.isRead = false) : validate tx = true := by
  cases tx with
  | nil => contradiction
  | cons m ms => simp_all [validate]

/-- What the messages that carry the two bytes are: writes. -/
theorem SplitWrite.messages_write {b c : Byte} {gap : List Message} {w : SplitWrite}
    (hg : ∀ m ∈ gap, m.isRead = false) : ∀ m ∈ w.messages b c gap, m.isRead = false := by
  cases w with
  | together => simp [SplitWrite.messages, Message.isRead]
  | apart =>
    simp only [SplitWrite.messages, List.cons_append, List.mem_cons, List.mem_append,
      List.not_mem_nil, or_false]
    rintro m (rfl | hm | rfl)
    · rfl
    · exact hg m hm
    · rfl

theorem spurMessages_write (shift : SpurShift) (place : Nat) :
    ∀ m ∈ spurMessages shift place, m.isRead = false := by
  intro m hm
  obtain ⟨w, -, rfl⟩ := List.mem_map.1 hm
  rfl

/-- The register program writes and reads nothing. -/
theorem programMessages_write (dev : TunerDevice) (f : Nat) (shift : SpurShift) :
    ∀ m ∈ programMessages dev f shift, m.isRead = false := by
  simp only [programMessages, List.cons_append, List.append_assoc, List.mem_cons, List.mem_append,
    List.not_mem_nil, or_false]
  rintro m (rfl | h | rfl | h | h | h | rfl)
  · rfl
  · exact spurMessages_write _ _ m h
  · rfl
  · exact spurMessages_write _ _ m h
  · exact SplitWrite.messages_write (spurMessages_write _ _) m h
  · exact spurMessages_write _ _ m h
  · rfl

/-- What a poll of the lock-status register shows is the byte it received (rule R257). -/
theorem lockSeen_transaction (dev : TunerDevice) (r : RegisterRead) (b : Byte) :
    lockSeen dev (r.transaction b) = (b &&& dev.lockMask == dev.lockMask) := rfl

/-- Bit `i` of a byte that carries the frequency word is what its layout says. -/
theorem layoutByte_bit (l : ByteLayout) (f : Nat) (i : Nat) (h : i < 8) :
    (layoutByte l f).getLsbD i = f.testBit l[i].val := by
  simp [layoutByte, h, -BitVec.getLsbD_eq_getElem]

end Sys2Proof.Machine
end

