-- ==== Sys2Proof/Tests/Slice0.lean ====
section
/-! SUPPORT. Tests. Expected values are the vectors of file 95_test_vectors.md (V1 to V81, P1 to P9) or a
rule's own words; the names of the vectors stand beside them. -/

namespace Sys2Proof.Tests

open Sys2Proof.Machine

/-! ### Helpers -/

/-- What `f` sees in the next state, if there is one. -/
def seen {α : Type} (f : State → α) : Out → Option α
  | .next s => some (f s)
  | .fault _ => none
  | .refused _ => none

/-- How a step refused, if it did. -/
def refusal : Out → Option Refusal
  | .next _ => none
  | .fault _ => none
  | .refused r => some r

/-- The reset state with given bus lines. -/
def lines (scl sdam : Level) : State := { State.reset with scl := scl, sdam := sdam }

/-- A state inside a session. -/
def inSession (ncmd : Nat) (latch : Nibble) : State :=
  { State.reset with session := some { ncmd := ncmd, latch := latch } }

/-- A state with a call in hand at a phase. -/
def inPhase (ph : Phase) (tx : Transaction) : State :=
  { State.reset with
    lock := .held 1, call := some { thread := 1, tx := tx }, session := some freshSession
    phase := ph }

/-- The step that runs the instruction of a table word first after reset. -/
def firstStep (nbits w : Nat) : Out := step (State.reset.withFetchWord nbits w)

/-! ### Well-formedness -/

theorem test_wf_refuses_empty_read : Instr.wf (.byteRead 0) = false := by decide
theorem test_wf_accepts_read : Instr.wf (.byteRead 1) = true := by decide

theorem test_wf_refuses_equal_opcodes :
    OpcTable.wf { OpcTable.standard with idle := 0x6#4 } = false := by decide
theorem test_wf_accepts_standard_table : OpcTable.standard.wf = true := by decide

theorem test_wf_refuses_base_beyond_buffer :
    Params.wf { standardParams with txBase := 1024 } = false := by decide
theorem test_wf_refuses_empty_readback :
    Params.wf { standardParams with rbCapacity := 0 } = false := by decide
theorem test_wf_refuses_no_threads : Params.wf { standardParams with nThreads := 0 } = false := by
  decide
theorem test_wf_refuses_overlap : Params.wf { standardParams with rbBase := 1023 } = false := by
  decide
theorem test_wf_refuses_bad_table :
    Params.wf { standardParams with opc := { OpcTable.standard with idle := 0x6#4 } } = false := by
  decide
theorem test_wf_accepts_standard_params : standardParams.wf = true := by decide

/-! ### Words written out from rule R92, and decoded -/

theorem test_decode_End : decodeNibble .standard 0b0000#4 = some .endCmd := by decide
theorem test_decode_SetAddress : decodeNibble .standard 0b0001#4 = some .setAddress := by decide
theorem test_decode_ClockLow : decodeNibble .standard 0b0010#4 = some .clockLow := by decide
theorem test_decode_ClockHigh : decodeNibble .standard 0b0011#4 = some .clockHigh := by decide
theorem test_decode_DataLow : decodeNibble .standard 0b0100#4 = some .dataLow := by decide
theorem test_decode_DataHigh : decodeNibble .standard 0b0101#4 = some .dataHigh := by decide
theorem test_decode_Reset : decodeNibble .standard 0b0110#4 = some .reset := by decide
theorem test_decode_Idle : decodeNibble .standard 0b0111#4 = some .idle := by decide
theorem test_decode_DataLowNoAck : decodeNibble .standard 0b1000#4 = some .dataLowNoAck := by decide
theorem test_decode_DataHighNoAck : decodeNibble .standard 0b1100#4 = some .dataHighNoAck := by
  decide
theorem test_decode_DataHighRead : decodeNibble .standard 0b1101#4 = some .dataHighRead := by decide
theorem test_decode_DataHighAck0 : decodeNibble .standard 0b1110#4 = some .dataHighAck0 := by decide
theorem test_decode_DataHighAck1 : decodeNibble .standard 0b1111#4 = some .dataHighAck1 := by decide
theorem test_decode_RESERVED_9 : decodeNibble .standard 0b1001#4 = some .reserved9 := by decide
theorem test_decode_RESERVED_A : decodeNibble .standard 0b1010#4 = some .reservedA := by decide
theorem test_decode_RESERVED_B : decodeNibble .standard 0b1011#4 = some .reservedB := by decide
theorem test_decode_no_instruction :
    decodeNibble { OpcTable.standard with endCmd := 0x9#4 } 0x0#4 = none := by decide

/-- V21: `5 3 4 2`. -/
theorem test_decode_Start :
    decode .standard false .encoder [0x5#4, 0x3#4, 0x4#4, 0x2#4, 0xC#4] =
      some (.start, [0xC#4]) := by decide
/-- V16: `8 8 8 C C C 8 8 E` is 0x1C. -/
theorem test_decode_ByteWrite :
    decode .standard false .encoder
      [0x8#4, 0x8#4, 0x8#4, 0xC#4, 0xC#4, 0xC#4, 0x8#4, 0x8#4, 0xE#4] =
      some (.byteWrite 0x1C#8, []) := by decide
/-- V19: `D D D D D D D D 8 D D D D D D D D C`. -/
theorem test_decode_ByteRead :
    decode .standard false .encoder
      [0xD#4, 0xD#4, 0xD#4, 0xD#4, 0xD#4, 0xD#4, 0xD#4, 0xD#4, 0x8#4,
       0xD#4, 0xD#4, 0xD#4, 0xD#4, 0xD#4, 0xD#4, 0xD#4, 0xD#4, 0xC#4] =
      some (.byteRead 2, []) := by decide
/-- V22: `4 3 5`. -/
theorem test_decode_Stop :
    decode .standard false .encoder [0x4#4, 0x3#4, 0x5#4, 0x0#4] = some (.stop, [0x0#4]) := by decide
/-- V39, V40: two `End` at an even position, three at an odd one. -/
theorem test_decode_Terminate :
    decode .standard false .encoder [0x0#4, 0x0#4, 0x7#4] = some (.terminate, [0x7#4]) ∧
      decode .standard true .encoder [0x0#4, 0x0#4, 0x0#4] = some (.terminate, []) := by decide
theorem test_decode_half_terminate :
    decode .standard true .encoder [0x0#4, 0x0#4, 0x7#4] = none := by decide
theorem test_decodeTableWord_Start : decodeTableWord 16 0x5342 = some .start := by decide

/-- V1 to V4. -/
theorem test_pack :
    pack 0x5#4 0x3#4 = 0x35#8 ∧ pack 0x4#4 0x2#4 = 0x24#8 ∧ unpack 0x8E#8 = (0xE#4, 0x8#4) ∧
      pack 0x5#4 0x0#4 = 0x05#8 := by decide
/-- V12: `C 8 C 8 8 C 8 C E`. -/
theorem test_encode_ByteWrite :
    encode .standard false (.byteWrite 0xA5#8) =
      [0xC#4, 0x8#4, 0xC#4, 0x8#4, 0x8#4, 0xC#4, 0x8#4, 0xC#4, 0xE#4] := by decide
/-- V9a, V9d, V9f. -/
theorem test_addressByte :
    addressByte 0x60#7 false = 0xC0#8 ∧ addressByte 0x7F#7 true = 0xFF#8 ∧
      addressByte 0x10#7 true = 0x21#8 := by decide
/-- P3: the byte image of one unanswered write. -/
theorem test_scanStream :
    scanStream .standard
      [0x35#8, 0x24#8, 0xCC#8, 0x88#8, 0x88#8, 0x88#8, 0x8E#8, 0x88#8, 0xCC#8, 0x8C#8, 0xE8#8,
       0x34#8, 0x05#8, 0x00#8] =
      some [.start, .byteWrite 0xC0#8, .byteWrite 0x1C#8, .stop, .terminate] := by decide
/-- R104: the same image as bus events. -/
theorem test_streamEvents :
    streamEvents .standard
      [0x35#8, 0x24#8, 0xCC#8, 0x88#8, 0x88#8, 0x88#8, 0x8E#8, 0x88#8, 0xCC#8, 0x8C#8, 0xE8#8,
       0x34#8, 0x05#8, 0x00#8] =
      some [.start, .written 0xC0#8, .written 0x1C#8, .stop] := by decide
/-- R104: one `End` ends a stream (V6 gives the bytes `34 05`), and a byte read that is acknowledged is an
event with nothing after it. -/
theorem test_streamEvents_single_end :
    streamEvents .standard [0x34#8, 0x05#8] = some [.stop] ∧
      streamEvents .standard [0xDD#8, 0xDD#8, 0xDD#8, 0xDD#8, 0x08#8] = some [.byteRead true] := by decide
/-- V42 for one write of two bytes: 34 commands, 18 bytes. -/
theorem test_bufferBytes :
    commandCount [.write 0x60#7 [0x1C#8, 0x01#8]] = 34 ∧
      bufferBytes [.write 0x60#7 [0x1C#8, 0x01#8]] = 18 := by decide

/-! ### The commands, each as the first step after reset -/

theorem test_step_End : seen (fun s => (s.busy, s.fp)) (firstStep 8 0x0) = some (false, 1) := by decide
theorem test_step_ClockLow : seen State.scl (firstStep 8 0x2) = some false := by decide
theorem test_step_ClockHigh : seen (fun s => (s.scl, s.fp)) (firstStep 8 0x3) = some (true, 1) := by
  decide
/-- V25. -/
theorem test_step_DataLow :
    seen (fun s => (s.sdam, s.wire)) (firstStep 8 0x4) = some (false, [.start]) := by decide
/-- V23. -/
theorem test_step_DataHigh :
    seen (fun s => (s.sdam, s.wire)) (firstStep 8 0x5) = some (true, []) := by decide
theorem test_step_Start :
    seen (fun s => (s.commandWin, s.actionPos)) (firstStep 16 0x5342) =
      some ([(0, 0x35#8), (1, 0x24#8)], 1) := by decide
theorem test_step_SetAddress : refusal (firstStep 8 0x1) = some (.nameOnly .setAddress) := by decide
theorem test_step_Reset : refusal (firstStep 8 0x6) = some (.nameOnly .reset) := by decide
theorem test_step_Idle : refusal (firstStep 8 0x7) = some (.nameOnly .idle) := by decide
theorem test_step_DataHighAck1 : refusal (firstStep 8 0xF) = some (.nameOnly .dataHighAck1) := by
  decide
theorem test_step_RESERVED_9 : refusal (firstStep 8 0x9) = some (.noCommand 0x9#4) := by decide
theorem test_step_RESERVED_A : refusal (firstStep 8 0xA) = some (.noCommand 0xA#4) := by decide
theorem test_step_RESERVED_B : refusal (firstStep 8 0xB) = some (.noCommand 0xB#4) := by decide
theorem test_step_DataHighRead : seen State.rcnt (firstStep 8 0xD) = some 1 := by decide
theorem test_step_DataHighAck0 : seen State.sdam (firstStep 8 0xE) = some true := by decide

/-- V26. -/
theorem test_ClockLow_parks :
    seen (fun s => (s.scl, s.sdam)) (exec .clockLow (lines true false)) = some (false, false) := by
  decide
/-- V35, the third command. -/
theorem test_DataHigh_is_stop :
    seen State.wire (exec .dataHigh (lines true false)) = some [.stop] := by decide
/-- V28. -/
theorem test_DataLowNoAck :
    seen (fun s => (s.scl, s.sdam, s.wire)) (exec .dataLowNoAck (lines false true)) =
      some (false, false, [.wbit false]) := by decide
/-- V27. -/
theorem test_DataHighNoAck :
    seen (fun s => (s.scl, s.sdam, s.wire)) (exec .dataHighNoAck (lines false false)) =
      some (false, true, [.wbit true]) := by decide
/-- V31. -/
theorem test_DataHighRead_commits :
    seen (fun s => (s.rsh, s.rptr, s.rcnt, s.commandWin))
      (exec .dataHighRead { lines false true with rcnt := 7, rsh := 0x52#8, slave := [true] }) =
      some (0xA5#8, 1, 0, [(1024, 0xA5#8)]) := by decide
/-- V29. -/
theorem test_DataHighAck0_acknowledged :
    seen (fun s => (s.wire, s.ackf)) (exec .dataHighAck0 { lines false false with slave := [false] }) =
      some ([.acks false], 0#2) := by decide

/-! ### The encoder's actions and the writer -/

/-- V5, call 1, and V6, call 3. -/
theorem test_emit_buffers :
    seen (fun s => (s.session, s.commandWin)) (emit .dataHigh (inSession 0 0x0#4)) =
      some (some { ncmd := 1, latch := 0x5#4 }, []) := by decide
/-- V5, call 2. -/
theorem test_emit_commits :
    seen (fun s => s.commandWin) (emit .clockHigh (inSession 1 0x5#4)) = some [(0, 0x35#8)] := by
  decide
/-- R152: the bytes of `ByteWrite 0xC0` from an even position are `CC 88 88 88`, with `E` in the latch. -/
theorem test_ByteWrite :
    seen (fun s => (s.session, s.commandWin)) (exec (.byteWrite 0xC0#8) (inSession 0 0x0#4)) =
      some (some { ncmd := 9, latch := 0xE#4 },
        [(0, 0xCC#8), (1, 0x88#8), (2, 0x88#8), (3, 0x88#8)]) := by decide
/-- V18 from an odd position. -/
theorem test_ByteRead :
    seen (fun s => s.commandWin) (exec (.byteRead 1) (inSession 33 0xE#4)) =
      some [(16, 0xDE#8), (17, 0xDD#8), (18, 0xDD#8), (19, 0xDD#8), (20, 0xCD#8)] := by decide
/-- V22 from an even position: `34` and 5 in the latch. -/
theorem test_Stop :
    seen (fun s => (s.session, s.commandWin)) (exec .stop (inSession 22 0x0#4)) =
      some (some { ncmd := 25, latch := 0x5#4 }, [(11, 0x34#8)]) := by decide
/-- V40: an odd count, `05 00`. -/
theorem test_Terminate_odd :
    seen (fun s => (s.session.map Session.ncmd, s.commandWin)) (exec .terminate (inSession 25 0x5#4)) =
      some (some 28, [(12, 0x05#8), (13, 0x00#8)]) := by decide
/-- V39: an even count, `00`. -/
theorem test_Terminate_even :
    seen (fun s => (s.session.map Session.ncmd, s.commandWin)) (exec .terminate (inSession 34 0x5#4)) =
      some (some 36, [(17, 0x00#8)]) := by decide

/-! ### The sequencer -/

/-- V60 to V65. -/
theorem test_validate :
    validate [] = false ∧ validate [.read 0x60#7 [0#8]] = false ∧
      validate (List.replicate 4 (.write 0x60#7 [])) = false ∧
      validate [.write 0x60#7 [0#8], .read 0x60#7 []] = false ∧
      validate [.write 0x60#7 []] = true ∧
      validate [.write 0x60#7 [1#8], .read 0x61#7 [0#8, 0#8], .write 0x10#7 [3#8]] = true := by
  decide
/-- V43 to V47, by the bits of the word. -/
theorem test_decodeStatus :
    decodeStatus (StatusWord.ofBits (u := 5) 0x00#8) = .ok ∧
      decodeStatus (StatusWord.ofBits (u := 5) 0x04#8) = .error .ackFailure ∧
      decodeStatus (StatusWord.ofBits (u := 5) 0x07#8) = .error .driverMalfunction ∧
      decodeStatus (StatusWord.ofBits (u := 5) 0xF8#8) = .ok ∧
      decodeStatus (StatusWord.ofBits (u := 5) 0xFA#8) = .error .ackFailure := by decide
/-- P7: a rejected transaction ends in `UnsupportedTransaction` with no session. -/
theorem test_rejected :
    seen (fun s => s.phase)
      (step { inPhase .validating [.read 0x60#7 [0#8]] with session := none }) =
      some (.done (.error .unsupportedTransaction)) := by decide
/-- V49: the third poll of a wait with bound 2 is the last. -/
theorem test_timeout :
    seen (fun s => s.phase)
      (step { inPhase (.preWait 2) [] with
        busy := true, fp := 2048, dev := { standardParams with preWaitBound := .finite 2 } }) =
      some (.done (.error .timeout)) := by decide
/-- V48: a poll that reads 1 with bound `INF` polls again. -/
theorem test_poll :
    seen (fun s => s.phase) (step { inPhase (.preWait 2) [] with busy := true, fp := 2048 }) =
      some (.preWait 3) := by decide
theorem test_trigger :
    seen (fun s => (s.busy, s.ackf, s.phase)) (step { inPhase .triggering [] with ackf := 3#2 }) =
      some (true, 0#2, .postWait 0) := by decide
/-- P2: the byte received is copied out. -/
theorem test_readback :
    seen (fun s => s.call.map Call.tx)
      (step { inPhase (.readback 1) [.write 0x60#7 [0x1C#8], .read 0x60#7 [0x77#8]] with
        rptr := 1, commandWin := [(1024, 0xA5#8)] }) =
      some (some [.write 0x60#7 [0x1C#8], .read 0x60#7 [0xA5#8]]) := by decide
theorem test_return :
    seen (fun s => (s.lock, s.session, s.phase, s.returned))
      (step (inPhase (.done (.error .ackFailure)) [])) =
      some (.free, none, .idle, [{ thread := 1, result := .error .ackFailure, tx := [] }]) := by
  decide

/-- R8, R220: what the waits and the trigger access, with the addresses given. -/
theorem test_registerAccess :
    let s : State := { inPhase (.preWait 0) [] with
      dev := { standardParams with statusAddr := 4, triggerAddr := 8, triggerFormat := 2, txBase := 7 } }
    s.registerAccess = some (.read 4) ∧
      { s with phase := .triggering }.registerAccess = some (.write 8 (Config.triggerWord 2 7)) ∧
      { s with phase := .stopping }.registerAccess = none := ⟨rfl, rfl, rfl⟩

/-! ### The tuner client -/

/-- V70, V75, V76, V78. -/
theorem test_freqWord :
    freqWord 473142857#32 = 30281 ∧ freqWord 100007812#32 = 6400 ∧ freqWord 100007813#32 = 6401 ∧
      freqWord 100999999#32 = 6464 := by decide
/-- V52. -/
theorem test_spurLookup :
    let table : List SpurEntry :=
      [⟨500000000, 1000000, ⟨0xA#8, 0#8⟩⟩, ⟨500500000, 1000000, ⟨0xB#8, 1#8⟩⟩]
    spurLookup table ⟨0#8, 0#8⟩ 500500000 = ⟨0xA#8, 0#8⟩ ∧
      spurLookup table ⟨0#8, 0#8⟩ 501400000 = ⟨0xB#8, 1#8⟩ ∧
      spurLookup table ⟨0#8, 0#8⟩ 502000000 = ⟨0#8, 0#8⟩ := by decide

/-- R254, V70: the word 30281 = 0x7649, fifteen bits, in two bytes, the low eight bits in one and the rest
in the other. -/
theorem test_layoutByte :
    layoutByte (Vector.ofFn fun i => ⟨i.val, by omega⟩) (freqWord 473142857#32) = 0x49#8 ∧
      layoutByte (Vector.ofFn fun i => ⟨i.val + 8, by omega⟩) (freqWord 473142857#32) = 0x76#8 := by
  decide
/-- R256, R8: four messages with no pause, and a pause after the second. -/
theorem test_groupMessages :
    let m : Message := .write 0x60#7 [1#8]
    groupMessages (fun _ => false) 0 [] [m, m, m, m] = [[m, m, m], [m]] ∧
      groupMessages (fun k => k == 1) 0 [] [m, m, m, m] = [[m, m], [m, m]] := by decide
/-- R259: a lock not reached and a transfer's `Timeout` are one error. -/
theorem test_tune_timeout_is_timeout : tuneResult .timedOut = tuneResult (.failed .timeout) := rfl

/-! ### Witnesses: states and operands that meet the hypotheses of the statements, clause by clause, at
the ends of their ranges. The capacities of the reset state are 1024 and 256 bytes. -/

/-- A transaction of three messages. -/
def sampleTx : Transaction := [.write 0x60#7 [0x1C#8], .read 0x60#7 [0x77#8], .write 0x10#7 []]

/-- A call of it. -/
def sampleCall : Call := { thread := 1, tx := sampleTx }

/-- The engine running at the low nibble of byte 0, which is `b`. -/
def running (b : Byte) : State := { State.reset with busy := true, commandWin := [(0, b)] }

/-- The engine past its last byte with `busy` still 1, the sequencer at a phase of a call. -/
def stuck (ph : Phase) : State := { inPhase ph sampleTx with busy := true, fp := 2048 }

/-- The engine at a bit of `DataHighRead`. -/
def reading (rcnt : Fin 8) (rptr : Nat) : State := { State.reset with rcnt := rcnt, rptr := rptr }

theorem witness_DecodeOfEncode :
    (OpcTable.standard.wf = true ∧ (Instr.byteRead 1).wf = true ∧
      (Instr.byteRead 1).encodable .standard = true) ∧
    Instr.reserved9.wf = true ∧ Instr.reserved9.encodable .standard = true := by decide

theorem witness_StreamParsesBack : OpcTable.standard.wf = true ∧ validate sampleTx = true := by decide

theorem witness_EndStopsPlayback :
    decodeNibble (running 0x20#8).dev.opc (running 0x20#8).fetchNibble = some .endCmd := by decide

theorem witness_ClockCommandsSetClock :
    (lines false true).scl = false ∧ (lines true true).scl = true := by decide

theorem witness_DataCommandsDriveData : (lines true true).sdam = true := by decide

theorem witness_DataHighReadCollectsBit :
    ((reading 6 0).rcnt ≠ 7) ∧
    ((reading 7 255).rcnt = 7 ∧ (reading 7 255).rptr < (reading 7 255).dev.rbCapacity) ∧
    ((reading 7 256).rcnt = 7 ∧ (reading 7 256).dev.rbCapacity ≤ (reading 7 256).rptr) := by decide

theorem witness_DataHighAck0SamplesAck :
    ({ lines false true with slave := [false] } : State).slaveDrive = false ∧
      ({ lines false true with slave := [true] } : State).slaveDrive = true := by decide

theorem witness_UnnamedNibblesAreRefused :
    (running 0x09#8).dev.opc.unnamed (running 0x09#8).fetchNibble = true := by decide

/-- Room for `n` commands after `ncmd`: the last byte they commit is the last of the buffer. -/
theorem canEmit_inSession (ncmd n : Nat) (h : (ncmd + n) / 2 ≤ 1024) :
    (inSession ncmd 0#4).canEmit { ncmd := ncmd, latch := 0#4 } n :=
  ⟨rfl, rfl, by simpa [inSession, State.reset, State.resetWith, standardParams] using h⟩

theorem witness_StartEmitsAndPlays :
    (inSession 2044 0#4).canEmit { ncmd := 2044, latch := 0#4 } 4 ∧
    (inSession 2045 0#4).canEmit { ncmd := 2045, latch := 0#4 } 4 ∧
    ((lines true true).scl = true ∧ (lines true true).sdam = true) ∧
    (lines false false).scl = false :=
  ⟨canEmit_inSession _ _ (by decide), canEmit_inSession _ _ (by decide), by decide, by decide⟩

theorem witness_ByteWriteEmitsAndPlays :
    (inSession 2040 0#4).canEmit { ncmd := 2040, latch := 0#4 } 9 ∧
    ({ lines false true with slave := [false] } : State).scl = false ∧
    ({ lines false true with slave := [false] } : State).slaveDrive = false :=
  ⟨canEmit_inSession _ _ (by decide), by decide, by decide⟩

theorem witness_ByteReadEmitsAndPlays :
    (1 ≤ 1 ∧ (inSession 2040 0#4).canEmit { ncmd := 2040, latch := 0#4 } (9 * 1)) ∧
    let s : State := { lines false true with rptr := 255, slave := byteBits 0xA5#8 ++ [true] }
    [0xA5#8] ≠ [] ∧ s.scl = false ∧ s.rcnt = 0 ∧
      s.slave = [0xA5#8].flatMap byteBits ++ [true] ∧
      s.rptr + [0xA5#8].length ≤ s.dev.rbCapacity :=
  ⟨⟨by decide, canEmit_inSession _ _ (by decide)⟩, by decide⟩

theorem witness_StopEmitsAndPlays :
    (inSession 2046 0#4).canEmit { ncmd := 2046, latch := 0#4 } 3 ∧ (lines false false).scl = false :=
  ⟨canEmit_inSession _ _ (by decide), by decide⟩

theorem witness_TerminateEmits :
    (inSession 2046 0#4).canEmit { ncmd := 2046, latch := 0#4 } (if 2046 % 2 = 0 then 2 else 3) ∧
    (inSession 2045 0#4).canEmit { ncmd := 2045, latch := 0#4 } (if 2045 % 2 = 0 then 2 else 3) :=
  ⟨canEmit_inSession _ _ (by decide), canEmit_inSession _ _ (by decide)⟩

theorem witness_WriteBuffersThenCommits :
    ((inSession 2046 0#4).session = some { ncmd := 2046, latch := 0#4 } ∧ 2046 % 2 = 0) ∧
    ((inSession 2047 0#4).session = some { ncmd := 2047, latch := 0#4 } ∧ 2047 % 2 = 1 ∧
      (inSession 2047 0#4).dev.txBase + 2047 / 2 < (inSession 2047 0#4).dev.cbCapacity ∧
      (inSession 2047 0#4).busy = false) ∧
    ((inSession 2049 0#4).session = some { ncmd := 2049, latch := 0#4 } ∧ 2049 % 2 = 1 ∧
      (inSession 2049 0#4).dev.cbCapacity ≤ (inSession 2049 0#4).dev.txBase + 2049 / 2) := by decide

theorem witness_NibblePackingRoundTrip :
    State.reset.busy = false ∧
    (State.reset.dev.txBase + ((List.replicate 2048 Command.idle).length + 1) / 2 ≤
      State.reset.dev.cbCapacity) ∧
    State.reset.dev.txBase + ((List.replicate 2047 Command.idle).length + 1) / 2 ≤
      State.reset.dev.cbCapacity := by
  simp only [List.length_replicate]
  decide

theorem witness_ContractViolationsAreRefused :
    State.reset.dev.cbCapacity ≤ 1024 ∧
    1023 < (running 0#8).dev.cbCapacity ∧ (running 0#8).busy = true ∧
      (running 0#8).fp / 2 < (running 0#8).dev.cbCapacity := by decide

theorem witness_TriggerStartsPlayback :
    (State.reset.busy = false ∧ 1023 < State.reset.dev.cbCapacity) ∧ (running 0#8).busy = true := by
  decide

/-- The invariant of a state of `execute` with nothing written and no byte received. -/
theorem inv_inPhase {ph : Phase} {tx : Transaction} (h : (inPhase ph tx).phaseOk) :
    Inv (inPhase ph tx) where
  params := (by decide : standardParams.wf = true)
  commandCanonical := List.Pairwise.nil
  controlCanonical := List.Pairwise.nil
  commandCells := nofun
  controlCells := nofun
  cursorInBuffer := by
    intro q hq
    obtain rfl : freshSession = q := by simpa [inPhase] using hq
    exact Nat.zero_le _
  readbackInWindow := Nat.zero_le _
  phases := h

/-- The invariant after reset with calls waiting. -/
theorem inv_waiting (w : List Call) : Inv { State.reset with waiting := w } where
  params := (by decide : standardParams.wf = true)
  commandCanonical := List.Pairwise.nil
  controlCanonical := List.Pairwise.nil
  commandCells := nofun
  controlCells := nofun
  cursorInBuffer := nofun
  readbackInWindow := Nat.zero_le _
  phases := ⟨rfl, rfl, rfl⟩

theorem witness_StatusIsDecoded :
    (Inv (inPhase .decoding sampleTx) ∧ (inPhase .decoding sampleTx).phase = .decoding ∧
      (inPhase .decoding sampleTx).busy = false ∧ (inPhase .decoding sampleTx).ackf = 0#2 ∧
      (inPhase .decoding sampleTx).dev.postWaitBound = .inf) ∧
    ({ inPhase .decoding sampleTx with ackf := 0b10#2 } : State).ackf ≠ 0#2 ∧
    (stuck .decoding).phase = .decoding ∧ (stuck .decoding).busy = true :=
  ⟨⟨inv_inPhase ⟨⟨_, rfl, rfl, by decide⟩, rfl, fun _ => rfl⟩, by decide⟩, by decide⟩

theorem witness_ValidationStep :
    ((inPhase .validating []).phase = .validating ∧
      (inPhase .validating []).call = some { thread := 1, tx := [] } ∧ validate [] = false) ∧
    (inPhase .validating sampleTx).call = some sampleCall ∧ validate sampleCall.tx = true := by decide

theorem witness_AcquireTakesFreeLock :
    (State.reset.phase = .idle ∧ ({ State.reset with lock := .held 0 } : State).lock = .held 0) ∧
    (State.reset.lock = .free ∧ ({ State.reset with waiting := [sampleCall] } : State).waiting ≠ []) ∧
    ({ State.reset with waiting := [sampleCall, { sampleCall with thread := 0 }] } : State).waiting ≠ [] := by
  decide

theorem witness_PreTriggerWait :
    ((inPhase (.preWait 2) sampleTx).phase = .preWait 2 ∧ (inPhase (.preWait 2) sampleTx).busy = false) ∧
    ((stuck (.preWait 2)).phase = .preWait 2 ∧ (stuck (.preWait 2)).busy = true ∧
      (stuck (.preWait 2)).dev.preWaitBound = .inf) ∧
    ({ stuck (.preWait 2) with dev := { standardParams with preWaitBound := .finite 2 } } :
      State).dev.preWaitBound = .finite 2 := by decide

theorem witness_PostTriggerWait :
    ((inPhase (.postWait 2) sampleTx).phase = .postWait 2 ∧
      (inPhase (.postWait 2) sampleTx).busy = false) ∧
    ((stuck (.postWait 2)).phase = .postWait 2 ∧ (stuck (.postWait 2)).busy = true ∧
      (stuck (.postWait 2)).dev.postWaitBound = .inf) ∧
    ({ stuck (.postWait 2) with dev := { standardParams with postWaitBound := .finite 3 } } :
      State).dev.postWaitBound = .finite 3 := by decide

theorem witness_UnboundedWaitHangs :
    ((stuck (.preWait 0)).busy = true ∧
      (stuck (.preWait 0)).dev.cbCapacity ≤ (stuck (.preWait 0)).fp / 2 ∧
      (stuck (.preWait 0)).phase = .preWait 0 ∧ (stuck (.preWait 0)).dev.preWaitBound = .inf) ∧
    (stuck (.postWait 0)).phase = .postWait 0 ∧ (stuck (.postWait 0)).dev.postWaitBound = .inf := by
  decide

theorem witness_UnboundedWaitsRaiseNothing :
    Inv { State.reset with waiting := [sampleCall] } ∧ State.reset.dev.preWaitBound = .inf ∧
      State.reset.dev.postWaitBound = .inf ∧
      (∃ t, step { State.reset with waiting := [sampleCall] } = .next t) ∧
      State.reset.phase ≠ .done (.error .timeout) ∧
      State.reset.phase ≠ .done (.error .driverMalfunction) :=
  ⟨inv_waiting _, rfl, rfl, ⟨_, rfl⟩, by decide, by decide⟩

/-- A transaction whose read fills the readback window. -/
def fullRead : Transaction := [.write 0#7 [], .read 0#7 (List.replicate 256 0#8), .write 0#7 []]

theorem readBytes_fullRead (n : Nat) (h : 2 ≤ n) :
    readBytes (fullRead.take 1) = 0 ∧ readBytes (fullRead.take n) = 256 := by
  obtain ⟨n, rfl⟩ := Nat.exists_eq_add_of_le' h
  constructor <;> cases n <;>
    simp [fullRead, readBytes, Message.readLength, -List.reduceReplicate]

theorem witness_ReadbackCopies :
    ((inPhase (.readback 1) fullRead).phase = .readback 1 ∧
      (inPhase (.readback 1) fullRead).call = some { thread := 1, tx := fullRead } ∧
      fullRead[1]? = some (.read 0#7 (List.replicate 256 0#8)) ∧
      readBytes (fullRead.take 1) + (List.replicate 256 0#8).length ≤
        (inPhase (.readback 1) fullRead).dev.rbCapacity) ∧
    (inPhase (.readback 2) fullRead).phase = .readback 2 ∧
      fullRead[2]? = some (.write 0#7 []) ∧
      readBytes (fullRead.take 2) ≤ (inPhase (.readback 2) fullRead).dev.rbCapacity := by
  refine ⟨⟨rfl, rfl, rfl, ?_⟩, rfl, rfl, ?_⟩
  · rw [(readBytes_fullRead 2 le_rfl).1, List.length_replicate]
    decide
  · rw [(readBytes_fullRead 2 le_rfl).2]
    decide

theorem witness_ExitActions :
    (inPhase (.done .ok) sampleTx).phase = .done .ok ∧
      (inPhase (.done .ok) sampleTx).call = some sampleCall := by decide

theorem witness_LockIsHeldThroughout :
    (inPhase .validating sampleTx).lock = .held 1 ∧
      ∃ t, step (inPhase .validating sampleTx) = .next t := ⟨rfl, ⟨_, rfl⟩⟩

/-- `ClockLow` as the first instruction after reset, then an encoder's `Start`. -/
theorem witness_StepRunsDecodedInstruction :
    ((State.reset.withFetchWord 8 0x2).turn = some (.engine, State.reset.withFetchWord 8 0x2) ∧
      decodeNibble (State.reset.withFetchWord 8 0x2).dev.opc
        (State.reset.withFetchWord 8 0x2).fetchNibble = some .clockLow) ∧
    (State.reset.withFetchWord 16 0x5342).turn =
      some (.sequencer, State.reset.withFetchWord 16 0x5342) ∧
      (State.reset.withFetchWord 16 0x5342).nextAction = some .start := by decide

/-- A choice of the turn that uses up a listed one. -/
theorem witness_turn_with_choice :
    ({ stuck (.preWait 0) with fp := 0, sched := [.engine] } : State).turn =
      some (.engine, { stuck (.preWait 0) with fp := 0 }) := by decide

theorem witness_NothingRunsBeforeACall : sampleCall.thread < standardParams.nThreads := by decide

theorem witness_ResetHasInvariant :
    ({ standardParams with txBase := 1023, rbCapacity := 1, nThreads := 1 } : Params).wf = true := by
  decide

/-- For `StepKeepsInvariant` and `StepNeverFaults`: a state of the invariant inside `execute`, which has a
step. -/
theorem witness_StepKeepsInvariant :
    Inv (inPhase .triggering sampleTx) ∧ ∃ t, step (inPhase .triggering sampleTx) = .next t :=
  ⟨inv_inPhase ⟨⟨_, rfl, rfl, by decide⟩, rfl, rfl⟩, ⟨_, rfl⟩⟩

theorem witness_RegionsAreOwned :
    ((running 0x02#8).dev.wf = true ∧ (∃ t, engineStep (running 0x02#8) = .next t) ∧
      1023 < (running 0x02#8).dev.cbCapacity ∧ 255 < (running 0x02#8).dev.rbCapacity) ∧
    ((inPhase .validating sampleTx).phase ≠ .triggering ∧
      ∃ t, sequencerStep (inPhase .validating sampleTx) = .next t) ∧
    State.reset.phase = .idle ∧ ∃ t, sequencerStep State.reset = .next t :=
  ⟨⟨by decide, ⟨_, rfl⟩, by decide⟩, ⟨by decide, ⟨_, rfl⟩⟩, rfl, ⟨_, rfl⟩⟩

theorem witness_BusyTransitions :
    (seen State.busy (step (inPhase .triggering sampleTx)) = some true ∧
      (inPhase .triggering sampleTx).busy = false) ∧
    seen State.busy (step (running 0#8)) = some false ∧ (running 0#8).busy = true := by decide

/-- For `AckFailureIsSticky`, `WireIsAppendOnly` and `SequencerLeavesTheBus`. -/
theorem witness_AckFailureIsSticky :
    (∃ t, step { running 0x02#8 with ackf := 0b01#2 } = .next t) ∧
      ({ running 0x02#8 with ackf := 0b01#2 } : State).phase ≠ .triggering :=
  ⟨⟨_, rfl⟩, by decide⟩

theorem witness_EngineIsStuckPastItsBuffer :
    let s : State := { State.reset with busy := true, fp := 2048 }
    s.dev.cbCapacity ≤ s.fp / 2 ∧ s.sequencerEnabled = false := by decide

theorem witness_EncodingWritesStream :
    let s := inPhase (.encoding 0) sampleTx
    s.phase = .encoding 0 ∧ s.actionPos = 0 ∧ s.session = some freshSession ∧
      freshSession.ncmd = 0 ∧ s.call = some sampleCall ∧ validate sampleCall.tx = true ∧
      s.dev.txBase + (commandCount sampleCall.tx + 1) / 2 < s.dev.cbCapacity ∧
      s.busy = false := by decide

/-- For `BusIsIdleAfterPlayback` and `PlaybackPutsTransactionOnBus`. -/
theorem witness_PlaybackPutsTransactionOnBus :
    let s : State := { lines true true with rptr := 255, slave := slaveAnswers sampleTx ++ [true] }
    validate sampleTx = true ∧ s.scl = true ∧ s.sdam = true ∧ s.rcnt = 0 ∧
      s.rptr + readBytes sampleTx ≤ s.dev.rbCapacity ∧ s.slave = slaveAnswers sampleTx ++ [true] := by
  decide

theorem witness_EngineFinishesStream :
    let s := running 0x02#8
    s.dev.wf = true ∧ s.busy = true ∧ s.fp + [Command.clockLow].length < 2 * s.dev.cbCapacity ∧
      s.nibbleAt (s.fp + 0) = s.dev.opc.code .clockLow ∧
      s.nibbleAt (s.fp + [Command.clockLow].length) = s.dev.opc.code .endCmd ∧
      (∀ c ∈ [Command.clockLow], playedCommand c = true) ∧
      play [.clockLow] s = .next { s with scl := false } :=
  ⟨by decide, rfl, by decide, by decide, by decide, by decide, rfl⟩

/-- For `TransferReturnsOk` and, without the slaves, `TransferReportsAckFailure`. -/
theorem witness_TransferReturnsOk :
    let tx' : Transaction := [.write 0x60#7 [0x1C#8], .read 0x60#7 [0xA5#8], .write 0x10#7 []]
    let s : State := { State.reset with
      waiting := [sampleCall]
      slave := slaveAnswers tx' ++ []
      sched := List.replicate (commandCount sampleCall.tx + 1) .engine ++ [] }
    Ready s ∧ s.dev.preWaitBound = .inf ∧ s.dev.postWaitBound = .inf ∧ s.waiting = [sampleCall] ∧
      validate sampleCall.tx = true ∧ fits s.dev sampleCall.tx = true ∧ sameShape sampleCall.tx tx' ∧
      s.slave = slaveAnswers tx' ++ [] ∧
      s.sched = List.replicate (commandCount sampleCall.tx + 1) .engine ++ [] := by
  refine ⟨⟨⟨by decide, List.Pairwise.nil, List.Pairwise.nil, nofun, nofun, nofun, Nat.zero_le _,
    ⟨rfl, rfl, rfl⟩⟩, rfl, rfl, rfl, rfl, rfl⟩, rfl, rfl, rfl, by decide, by decide, ?_, rfl, rfl⟩
  simp [sameShape, sampleCall, sampleTx]

theorem witness_CommandBufferWriteIsLocal :
    (∃ t, cbWrite 1023 0xA5#8 State.reset = .next t) ∧ Memory.wf State.reset.commandWin :=
  ⟨⟨_, rfl⟩, List.Pairwise.nil⟩

theorem witness_SpurLookupIsFirstFit :
    let before : List SpurEntry := [⟨500000000, 1000000, ⟨0xA#8, 0#8⟩⟩]
    let e : SpurEntry := ⟨502000001, 1000000, ⟨0xB#8, 1#8⟩⟩
    (∀ d ∈ before, ¬ (501000001 ≤ d.center + d.tolerance ∧ d.center ≤ 501000001 + d.tolerance)) ∧
      (501000001 ≤ e.center + e.tolerance ∧ e.center ≤ 501000001 + e.tolerance) ∧
      (∀ d ∈ before, ¬ (502000001 ≤ d.center + d.tolerance ∧ d.center ≤ 502000001 + d.tolerance)) ∧
      502000001 = e.center := by decide

/-- The tuner's data for the witness. -/
def sampleTuner : TunerDevice :=
  { spurTable := [], inert := ⟨0#8, 0#8⟩
    abortTune := ⟨0x60#7, 0x01#8, 0#8, []⟩, bandwidth := ⟨0x60#7, 0x02#8, 0#8, []⟩
    frequencyFirst := Vector.ofFn fun i => ⟨i.val, by omega⟩
    frequencySecond := Vector.ofFn fun i => ⟨i.val + 8, by omega⟩
    frequency := .together 0x60#7 0x03#8 [] [] [], startTune := ⟨0x60#7, 0x05#8, 0#8, []⟩
    lockStatus := ⟨0x60#7, 0x0D#8, []⟩, lockMask := 0b11#8, gainControl := ⟨0x60#7, 0x06#8, 0#8, []⟩ }

theorem test_tuner_wf_refuses_dropped_bits :
    TunerDevice.wf { sampleTuner with frequencySecond := sampleTuner.frequencyFirst } = false := by decide
theorem test_tuner_wf_refuses_lock_masks :
    TunerDevice.wf { sampleTuner with lockMask := 0#8 } = false ∧
      TunerDevice.wf { sampleTuner with lockMask := 0b111#8 } = false := by decide

theorem witness_TunePollsAtMostHundredTimes :
    ((∀ p ∈ List.replicate 100 0b01#8, p &&& sampleTuner.lockMask ≠ sampleTuner.lockMask) ∧
      (List.replicate 100 0b01#8).length = 100) ∧
    ((∀ p ∈ List.replicate 99 0b10#8, p &&& sampleTuner.lockMask ≠ sampleTuner.lockMask) ∧
      (List.replicate 99 0b10#8).length < 100) ∧
    0b111#8 &&& sampleTuner.lockMask = sampleTuner.lockMask ∧ sampleTuner.wf = true := by
  refine ⟨⟨fun p hp => ?_, List.length_replicate⟩, ⟨fun p hp => ?_, ?_⟩, by decide, by decide⟩
  · rw [List.eq_of_mem_replicate hp]
    decide
  · rw [List.eq_of_mem_replicate hp]
    decide
  · rw [List.length_replicate]
    decide

theorem witness_TunerProgramIsInOrder :
    sampleTuner.wf = true ∧ (2 ^ 16 - 1 < 2 ^ 16 ∧ 0 < 2 ^ 16) ∧ (0 < 8 ∧ 7 < 8) ∧
      frequencyBytes sampleTuner 65535 = frequencyBytes sampleTuner 65535 :=
  ⟨by decide, by decide, by decide, rfl⟩

end Sys2Proof.Tests
end

section
/-! PROOFS. What the steps of the two agents leave unchanged, and the invariant of the machine: the
statements of file 10_state.md. -/

namespace Sys2Proof.Machine

variable {s t u : State}

/-! ### The choice of the turn -/

/-- `step_next` with the choice's two fields named, so that every other field reads as in `s`. -/
theorem step_cases (h : step s = .next t) :
    t = s ∨ ∃ sched draws,
      (s.engineEnabled = true ∧ engineStep { s with sched := sched, draws := draws } = .next t) ∨
        (s.sequencerEnabled = true ∧
          sequencerStep { s with sched := sched, draws := draws } = .next t) := by
  rcases step_next h with rfl | ⟨u, hu, h⟩
  · exact .inl rfl
  · rw [hu] at h
    exact .inr ⟨u.sched, u.draws, h⟩

/-- With no agent enabled a step answers the same state (rules R32, R327). -/
theorem step_of_nobody_enabled (he : s.engineEnabled = false) (hs : s.sequencerEnabled = false) :
    step s = .next s := by
  simp [step, turnStep, State.turn, he, hs]

/-- With no agent enabled a run stays where it is. -/
theorem run_of_nobody_enabled (he : s.engineEnabled = false) (hs : s.sequencerEnabled = false)
    (n : Nat) : run n s = .next s := by
  induction n with
  | zero => rfl
  | succ n ih => rw [run, step_of_nobody_enabled he hs, andThen_next, ih]

/-- Past the last byte of its buffer the engine has no step (rule R32). -/
theorem engineEnabled_past_buffer (h : s.dev.cbCapacity ≤ s.fp / 2) : s.engineEnabled = false := by
  simp [State.engineEnabled, Nat.not_lt.2 h]

theorem busy_of_engineEnabled (h : s.engineEnabled = true) : s.busy = true := by
  simp only [State.engineEnabled, Bool.and_eq_true] at h
  exact h.1

/-! ### The engine: the wires and the acknowledgement bits -/

/-- A command that goes on only appends to the wires and clears no acknowledgement bit. -/
theorem exec_command_bus {c : Command} (h : exec c.toInstr s = .next t) :
    (∃ es, t.wire = s.wire ++ es) ∧ s.ackf &&& t.ackf = s.ackf := by
  cases c <;> simp only [Command.toInstr, exec, execDataLowNoAck_eq, execDataHighNoAck_eq,
    execDataHighRead_eq, execDataHighAck0_eq] at h
  case setAddress | reset | idle | dataHighAck1 => cases h
  case dataHighRead =>
    obtain ⟨u, hu, h⟩ := andThen_eq_next.1 h
    injection h with h
    subst h
    rcases collectBit_eq_next.1 hu with ⟨-, rfl⟩ | ⟨-, -, rfl⟩ <;> simp
  all_goals
    injection h with h
    subst h
    simp [ackAfterSample_keeps]

/-- A step of the engine only appends to the wires and clears no acknowledgement bit. -/
theorem engineStep_bus (h : engineStep s = .next t) :
    (∃ es, t.wire = s.wire ++ es) ∧ s.ackf &&& t.ackf = s.ackf := by
  obtain ⟨c, -, hc⟩ := engineStep_next h
  exact exec_command_bus (s := s.pastFetch) hc

/-- A step of the engine changes `busy` only by clearing it, when it has fetched `End` (rule R34). -/
theorem engineStep_busy (h : engineStep s = .next t) :
    t.busy = s.busy ∨
      (t.busy = false ∧ decodeNibble s.dev.opc s.fetchNibble = some .endCmd) := by
  obtain ⟨c, hd, hc⟩ := engineStep_next h
  have hb := (exec_command_next hc).2
  by_cases hend : c = .endCmd
  · subst hend
    exact .inr ⟨hb, hd⟩
  · rw [if_neg hend] at hb
    exact .inl hb

/-! ### The sequencer: what the step of each phase can do -/

/-- Validation begins the encoding in a fresh session, or raises (rules R193, R194). -/
theorem validateStep_next (h : validateStep s = .next t) :
    ∃ c, s.call = some c ∧
      ((validate c.tx = true ∧ t = { resetCursor s with phase := .encoding 0, actionPos := 0 }) ∨
        (validate c.tx = false ∧ t = raise .unsupportedTransaction s)) := by
  unfold validateStep at h
  split at h
  · cases h
  · rename_i c hc
    refine ⟨c, hc, ?_⟩
    split at h <;> rename_i hv <;> injection h with h
    · exact .inl ⟨hv, h.symm⟩
    · exact .inr ⟨by simpa using hv, h.symm⟩

/-- A poll of the pre-trigger wait raises, polls again, or has seen the engine idle (rule R223). -/
theorem preWaitStep_next {k : Nat} (h : preWaitStep k s = .next t) :
    t = raise .timeout s.afterStatusRead ∨ t = { s.afterStatusRead with phase := .preWait (k + 1) } ∨
      (s.busy = false ∧ t = { s.afterStatusRead with phase := .triggering }) := by
  unfold preWaitStep at h
  split at h <;> rename_i hb
  · split at h <;> injection h with h
    · exact .inl h.symm
    · exact .inr (.inl h.symm)
  · injection h with h
    exact .inr (.inr ⟨by simpa using hb, h.symm⟩)

/-- The trigger starts the playback at `TX_BASE` from an idle engine (rules R70, R225). -/
theorem triggerStep_next (h : triggerStep s = .next t) :
    s.busy = false ∧ t = { s with
      busy := true, ackf := 0#2, fp := 2 * s.dev.txBase, rcnt := 0, rptr := 0,
      plays := s.plays + 1, phase := .postWait 0 } := by
  obtain ⟨u, hu, h⟩ := andThen_eq_next.1 h
  obtain ⟨hb, -, rfl⟩ := triggerWrite_eq_next.1 hu
  injection h with h
  exact ⟨hb, h.symm⟩

/-- A poll of the post-trigger wait polls again, or ends the wait: the engine is idle or the bound is
exhausted (rules R222, R226). -/
theorem postWaitStep_next {k : Nat} (h : postWaitStep k s = .next t) :
    t = { s.afterStatusRead with phase := .postWait (k + 1) } ∨
      ((s.busy = false ∨ boundExhausted s.dev.postWaitBound k = true) ∧
        t = { s.afterStatusRead with phase := .decoding }) := by
  unfold postWaitStep at h
  split at h <;> rename_i hb <;> injection h with h
  · exact .inl h.symm
  · refine .inr ⟨?_, h.symm⟩
    cases hbusy : s.busy <;> simp_all

/-- Only an idle engine decodes to `Ok` (rules R227, R228). -/
theorem decodeStatus_eq_ok {w : Nat} {x : StatusWord w} (h : decodeStatus x = .ok) :
    x.busy = false ∧ x.ackf = 0#2 := by
  unfold decodeStatus at h
  split_ifs at h with hb ha
  exact ⟨by simpa using hb, by simpa using ha⟩

/-- The decode goes to the readback with the engine idle, or raises (rule R227). -/
theorem decodeStep_next (h : decodeStep s = .next t) :
    (s.busy = false ∧ t = { s.afterStatusRead with phase := .readback 0 }) ∨
      ∃ e, t = raise e s.afterStatusRead := by
  unfold decodeStep at h
  split at h <;> rename_i hd <;> injection h with h
  · exact .inl ⟨(decodeStatus_eq_ok hd).1, h.symm⟩
  · exact .inr ⟨_, h.symm⟩

/-- The readback of a message fills that message's result buffer (rule R200). -/
theorem readbackStep_next {i : Nat} (h : readbackStep i s = .next t) :
    ∃ c m, s.call = some c ∧ c.tx[i]? = some m ∧ t = { s with
      call := some { c with
        tx := c.tx.set i (m.withResult (s.rbBytes (readOffset c.tx i) m.readLength)) }
      phase := afterReadback c.tx i } := by
  unfold readbackStep at h
  split at h
  · cases h
  · rename_i c hc
    split at h
    · cases h
    · rename_i m hm
      split at h
      · cases h
      · injection h with h
        exact ⟨c, m, hc, hm, h.symm⟩

theorem doneStep_next {r : Result} (h : doneStep r s = .next t) :
    ∃ c, s.call = some c ∧ t = leave c r s := by
  unfold doneStep at h
  split at h
  · cases h
  · rename_i c hc
    injection h with h
    exact ⟨c, hc, h.symm⟩

/-! ### The sequencer: carrying out an action -/

/-- The actions of a message are actions of the encoder. -/
theorem Message.actions_layer {m : Message} {i : Instr} (h : i ∈ m.actions) : i.layer = .encoder := by
  cases m with
  | write a p =>
    simp only [Message.actions, List.mem_cons, List.mem_map] at h
    rcases h with rfl | rfl | ⟨b, -, rfl⟩ <;> rfl
  | read a r =>
    simp only [Message.actions, List.mem_cons, List.not_mem_nil, or_false] at h
    rcases h with rfl | rfl | rfl <;> rfl

/-- Every message has an action: its Start. -/
theorem Message.actions_length_pos (m : Message) : 0 < m.actions.length := by
  cases m <;> simp [Message.actions]

/-- What the sequencer carries out is an action of the encoder. -/
theorem nextAction_layer {i : Instr} (h : s.nextAction = some i) : i.layer = .encoder := by
  cases hp : s.phase <;> simp only [State.nextAction, hp] at h
  case encoding =>
    split at h
    · cases h
    · exact Message.actions_layer (List.mem_of_getElem? h)
  case stopping | terminating =>
    injection h with h
    subst h
    rfl
  all_goals cases h

/-- An action of the encoder that goes on is an emission, with or without a session. -/
theorem exec_encoder_emits {i : Instr} (hi : i.layer = .encoder) (h : exec i s = .next t) :
    ∃ cs, emitAll cs s = .next t := by
  cases i <;> simp only [Instr.layer, reduceCtorEq] at hi <;> simp only [exec] at h
  case start => exact ⟨_, h⟩
  case byteWrite b => exact ⟨_, h⟩
  case byteRead n => exact ⟨_, h⟩
  case stop => exact ⟨_, h⟩
  case terminate =>
    cases hq : s.session with
    | none => simp [execTerminate, hq] at h
    | some q => exact ⟨_, execTerminate_eq hq ▸ h⟩

/-- The step of an action emits commands and moves on. -/
theorem actionStep_next (h : actionStep s = .next t) :
    ∃ cs u, emitAll cs s = .next u ∧ t = advance u := by
  unfold actionStep at h
  split at h
  · cases h
  · rename_i i hi
    obtain ⟨u, hu, h⟩ := andThen_eq_next.1 h
    injection h with h
    obtain ⟨cs, hcs⟩ := exec_encoder_emits (nextAction_layer hi) hu
    exact ⟨cs, u, hcs, h.symm⟩

/-- An emission changes nothing but the session and the command-buffer window. -/
theorem emitAll_changes {cs : List Command} (h : emitAll cs s = .next t) :
    t = { s with session := t.session, commandWin := t.commandWin } := by
  cases hq : s.session with
  | some q => exact (emitAll_frame h hq).2.1
  | none =>
    cases cs with
    | nil =>
      injection h with h
      subst h
      rfl
    | cons c cs => simp [emit, hq] at h

/-! ### The sequencer: its frame -/

/-- What every step of the sequencer but the trigger leaves alone: the parameters, the bus and the
playback, and the control window. -/
structure SequencerFrame (s t : State) : Prop where
  dev : t.dev = s.dev
  scl : t.scl = s.scl
  sdam : t.sdam = s.sdam
  wire : t.wire = s.wire
  slave : t.slave = s.slave
  rsh : t.rsh = s.rsh
  rcnt : t.rcnt = s.rcnt
  rptr : t.rptr = s.rptr
  busy : t.busy = s.busy
  ackf : t.ackf = s.ackf
  fp : t.fp = s.fp
  plays : t.plays = s.plays
  controlWin : t.controlWin = s.controlWin

theorem acquire_frame (h : acquire s = .next t) : SequencerFrame s t := by
  rcases acquire_next h with rfl | ⟨-, c, -, ht⟩
  · constructor <;> rfl
  · rw [ht]
    constructor <;> rfl

theorem actionStep_frame (h : actionStep s = .next t) : SequencerFrame s t := by
  obtain ⟨cs, u, hu, rfl⟩ := actionStep_next h
  rw [advance_frame u, emitAll_changes hu]
  constructor <;> rfl

/-- A step of the sequencer keeps its frame, or is the trigger, which starts the playback. -/
theorem sequencerStep_next (h : sequencerStep s = .next t) :
    SequencerFrame s t ∨ (s.phase = .triggering ∧ s.busy = false ∧ t = { s with
      busy := true, ackf := 0#2, fp := 2 * s.dev.txBase, rcnt := 0, rptr := 0,
      plays := s.plays + 1, phase := .postWait 0 }) := by
  cases hp : s.phase <;> simp only [sequencerStep, hp] at h
  case triggering =>
    obtain ⟨hb, ht⟩ := triggerStep_next h
    exact .inr ⟨rfl, hb, ht⟩
  all_goals left
  case idle => exact acquire_frame h
  case encoding | stopping | terminating => exact actionStep_frame h
  case validating =>
    obtain ⟨c, -, ⟨-, rfl⟩ | ⟨-, rfl⟩⟩ := validateStep_next h <;> constructor <;> rfl
  case preWait =>
    obtain rfl | rfl | ⟨-, rfl⟩ := preWaitStep_next h <;> constructor <;> rfl
  case postWait =>
    obtain rfl | ⟨-, rfl⟩ := postWaitStep_next h <;> constructor <;> rfl
  case decoding =>
    obtain ⟨-, rfl⟩ | ⟨e, rfl⟩ := decodeStep_next h <;> constructor <;> rfl
  case readback =>
    obtain ⟨c, m, -, -, rfl⟩ := readbackStep_next h
    constructor <;> rfl
  case done =>
    obtain ⟨c, -, rfl⟩ := doneStep_next h
    constructor <;> rfl

/-! ### Valid transactions -/

/-- `validate`, clause by clause (rule R194). -/
theorem validate_iff {tx : Transaction} :
    validate tx = true ↔ tx.length ≤ maxMessages ∧ (∃ m, tx[0]? = some m ∧ m.isRead = false) ∧
      ∀ m ∈ tx, m.isRead = true → 1 ≤ m.length := by
  cases tx with
  | nil => simp [validate]
  | cons m ms =>
    simp only [validate, Bool.and_eq_true, decide_eq_true_eq, Bool.not_eq_true', List.all_eq_true,
      Bool.or_eq_true, List.getElem?_cons_zero, Option.some.injEq, exists_eq_left', and_assoc]
    refine and_congr_right fun _ => and_congr_right fun _ => forall₂_congr fun x _ => ?_
    cases x.isRead <;> simp

theorem validate_length_pos {tx : Transaction} (h : validate tx = true) : 0 < tx.length := by
  obtain ⟨-, ⟨m, hm, -⟩, -⟩ := validate_iff.1 h
  exact (List.getElem?_eq_some_iff.1 hm).1

@[simp] theorem Message.withResult_isRead (m : Message) (bs : List Byte) :
    (m.withResult bs).isRead = m.isRead := by
  cases m <;> rfl

/-- A result of the declared length leaves the length of a message. -/
theorem Message.withResult_length {m : Message} {bs : List Byte} (h : bs.length = m.readLength) :
    (m.withResult bs).length = m.length := by
  cases m with
  | write a p => rfl
  | read a r => exact h

@[simp] theorem State.rbBytes_length (s : State) (j n : Nat) : (s.rbBytes j n).length = n := by
  simp [State.rbBytes]

/-- A transaction stays valid when a message gets a result of its declared length. -/
theorem validate_set_withResult {tx : Transaction} {i : Nat} {m : Message} {bs : List Byte}
    (hv : validate tx = true) (hm : tx[i]? = some m) (hb : bs.length = m.readLength) :
    validate (tx.set i (m.withResult bs)) = true := by
  obtain ⟨hlen, ⟨m₀, hm₀, hw⟩, hr⟩ := validate_iff.1 hv
  refine validate_iff.2 ⟨by simpa using hlen, ?_, fun x hx hread => ?_⟩
  · by_cases hi : i = 0
    · subst hi
      obtain rfl : m₀ = m := by simpa [hm₀] using hm
      refine ⟨m₀.withResult bs, ?_, by simpa using hw⟩
      simp [validate_length_pos hv]
    · exact ⟨m₀, by simpa [List.getElem?_set, hi] using hm₀, hw⟩
  · rcases List.mem_or_eq_of_mem_set hx with hx | rfl
    · exact hr x hx hread
    · rw [Message.withResult_length hb]
      exact hr m (List.mem_of_getElem? hm) (by simpa using hread)

/-! ### Windows: canonical form and cells -/

/-- A byte write keeps the canonical form of each window. -/
theorem State.writeByte_canonical {w v : Window} {a : Nat} {b : Byte} (h : Memory.wf (s.window v)) :
    Memory.wf ((s.writeByte w a b).window v) := by
  cases w <;> cases v
  case command.command | control.control => exact Memory.write_wf h a b
  all_goals exact h

/-- A byte write inside the regions lists no byte outside them. -/
theorem State.writeByte_cells {w v : Window} {a : Nat} {b : Byte} (ha : regionHolds s.dev w a)
    (h : ∀ c ∈ s.window v, regionHolds s.dev v c.1) :
    ∀ c ∈ (s.writeByte w a b).window v, regionHolds s.dev v c.1 := by
  intro c hc
  cases w <;> cases v
  case command.command | control.control =>
    rcases Memory.mem_write hc with hx | hc
    · rwa [hx]
    · exact h c hc
  all_goals exact h c hc

/-! ### The invariant: what it needs of a state -/

/-- The cursor rests on the parameters only. -/
theorem State.cursor_congr (h : t.dev = s.dev) (q : Session) : t.cursor q = s.cursor q := by
  simp [State.cursor, h]

/-- What the phases rest on: the sequencer half up to the contents of the session, and an idle engine
staying idle. -/
theorem State.phaseOk_congr (hdev : t.dev = s.dev) (hlock : t.lock = s.lock)
    (hsession : t.session.isSome = s.session.isSome) (hphase : t.phase = s.phase)
    (hcall : t.call = s.call) (hpos : t.actionPos = s.actionPos)
    (hbusy : s.busy = false → t.busy = false) (h : s.phaseOk) : t.phaseOk := by
  have hnone : t.session = none ↔ s.session = none := by
    rw [← Option.isNone_iff_eq_none, ← Option.isNone_iff_eq_none, ← Option.not_isSome,
      ← Option.not_isSome, hsession]
  cases hp : s.phase <;>
    simp only [State.phaseOk, State.inCall, hp, hphase, hdev, hlock, hcall, hpos, hsession, hnone]
      at h ⊢
  case triggering | readback =>
    obtain ⟨hin, hsome, hidle⟩ := h
    exact ⟨hin, hsome, hbusy hidle⟩
  case decoding =>
    obtain ⟨hin, hsome, hidle⟩ := h
    exact ⟨hin, hsome, fun hinf => hbusy (hidle hinf)⟩
  all_goals exact h

/-! ### The invariant: the engine -/

/-- The windows keep their clauses of the invariant over the execution of a command. -/
theorem EngineFrame.windows_ok (hf : EngineFrame s t) (hs : Inv s) (v : Window) :
    Memory.wf (t.window v) ∧ ∀ c ∈ t.window v, regionHolds s.dev v c.1 := by
  have hwf : Memory.wf (s.window v) := by
    cases v
    · exact hs.commandCanonical
    · exact hs.controlCanonical
  have hcells : ∀ c ∈ s.window v, regionHolds s.dev v c.1 := by
    cases v
    · exact hs.commandCells
    · exact hs.controlCells
  rcases hf.windows with ⟨hcmd, hctl, -⟩ | ⟨b, hcmd, hctl, -, hr⟩
  · have hw : t.window v = s.window v := by
      cases v
      · exact hcmd
      · exact hctl
    rw [hw]
    exact ⟨hwf, hcells⟩
  · have hw : t.window v =
        (s.writeByte s.dev.rbWindow (s.dev.rbBase + s.rptr) b).window v := by
      cases v
      · exact hcmd
      · exact hctl
    have ha : regionHolds s.dev s.dev.rbWindow (s.dev.rbBase + s.rptr) :=
      .inr ⟨rfl, by omega, by omega⟩
    rw [hw]
    exact ⟨State.writeByte_canonical hwf, State.writeByte_cells ha hcells⟩

/-- The readback pointer stays in the window over the execution of a command. -/
theorem EngineFrame.rptr_le (hf : EngineFrame s t) (h : s.rptr ≤ s.dev.rbCapacity) :
    t.rptr ≤ s.dev.rbCapacity := by
  rcases hf.windows with ⟨-, -, hr⟩ | ⟨b, -, -, hr, hlt⟩ <;> omega

/-- The invariant survives a step that keeps the engine's frame and starts no playback. -/
theorem EngineFrame.keeps_inv (hf : EngineFrame s t) (hbusy : s.busy = false → t.busy = false)
    (hs : Inv s) : Inv t where
  params := hf.dev ▸ hs.params
  commandCanonical := (hf.windows_ok hs .command).1
  controlCanonical := (hf.windows_ok hs .control).1
  commandCells := hf.dev ▸ (hf.windows_ok hs .command).2
  controlCells := hf.dev ▸ (hf.windows_ok hs .control).2
  cursorInBuffer q hq := by
    rw [State.cursor_congr hf.dev, hf.dev]
    exact hs.cursorInBuffer q (hf.session ▸ hq)
  readbackInWindow := hf.dev ▸ hf.rptr_le hs.readbackInWindow
  phases := State.phaseOk_congr hf.dev hf.lock (congrArg _ hf.session) hf.phase hf.call hf.actionPos
    hbusy hs.phases

/-- The fetch pointer, the choices and the count of draws are free in the invariant. -/
theorem Inv.of_fetch_and_choice {fp draws : Nat} {sched : List Agent} (hs : Inv s) :
    Inv { s with fp := fp, sched := sched, draws := draws } :=
  ⟨hs.params, hs.commandCanonical, hs.controlCanonical, hs.commandCells, hs.controlCells,
    hs.cursorInBuffer, hs.readbackInWindow, hs.phases⟩

theorem engineStep_keeps_inv (hs : Inv s) (h : engineStep s = .next t) : Inv t := by
  obtain ⟨c, -, hc⟩ := engineStep_next h
  obtain ⟨hf, hb⟩ := exec_command_next hc
  refine hf.keeps_inv (fun hidle => ?_) hs.of_fetch_and_choice
  rw [hb, hidle, ite_self]

/-! ### The invariant: the sequencer -/

theorem State.inCall.imp {P Q : Call → Prop} (h : s.inCall P) (hPQ : ∀ c, P c → Q c) :
    s.inCall Q := by
  obtain ⟨c, hc, hl, hP⟩ := h
  exact ⟨c, hc, hl, hPQ c hP⟩

/-- The state of `execute` at another phase meets the invariant when that phase has what it rests on. -/
theorem Inv.at_phase {ph : Phase} {pos draws : Nat} (hs : Inv s)
    (h : ({ s with phase := ph, actionPos := pos, draws := draws } : State).phaseOk) :
    Inv { s with phase := ph, actionPos := pos, draws := draws } :=
  ⟨hs.params, hs.commandCanonical, hs.controlCanonical, hs.commandCells, hs.controlCells,
    hs.cursorInBuffer, hs.readbackInWindow, h⟩

theorem acquire_keeps_inv (hs : Inv s) (hp : s.phase = .idle) (h : acquire s = .next t) : Inv t := by
  have hphase := hs.phases
  simp only [State.phaseOk, hp] at hphase
  obtain ⟨-, -, hnone⟩ := hphase
  rcases acquire_next h with rfl | ⟨-, c, -, ht⟩
  · exact hs
  · rw [ht]
    exact ⟨hs.params, hs.commandCanonical, hs.controlCanonical, hs.commandCells, hs.controlCells,
      hs.cursorInBuffer, hs.readbackInWindow, ⟨c, rfl, rfl, trivial⟩, hnone⟩

/-- A fresh session's cursor is `TX_BASE`, a byte of the buffer (rule R8). -/
theorem cursor_freshSession_le (h : s.dev.wf = true) : s.cursor freshSession ≤ s.dev.cbCapacity := by
  simp only [Params.wf, Bool.and_eq_true, decide_eq_true_eq] at h
  obtain ⟨⟨⟨⟨-, htx⟩, -⟩, -⟩, -⟩ := h
  simp only [State.cursor, freshSession]
  omega

theorem validateStep_keeps_inv (hs : Inv s) (hp : s.phase = .validating)
    (h : validateStep s = .next t) : Inv t := by
  have hphase := hs.phases
  simp only [State.phaseOk, hp] at hphase
  obtain ⟨⟨c, hc, hl, -⟩, -⟩ := hphase
  obtain ⟨c', hc', ⟨hv, rfl⟩ | ⟨-, rfl⟩⟩ := validateStep_next h
  · obtain rfl : c = c' := by simpa [hc] using hc'
    have hfirst := List.getElem?_eq_getElem (validate_length_pos hv)
    refine ⟨hs.params, hs.commandCanonical, hs.controlCanonical, hs.commandCells, hs.controlCells,
      fun q hq => ?_, hs.readbackInWindow,
      ⟨c, hc, hl, hv, _, hfirst, Message.actions_length_pos _⟩, rfl⟩
    obtain rfl : freshSession = q := by simpa using hq
    exact cursor_freshSession_le hs.params
  · exact hs.at_phase ⟨c, hc, hl, trivial⟩

/-- An emission in a session keeps the invariant. -/
theorem emitAll_keeps_inv {cs : List Command} (hs : Inv s) {q : Session} (hq : s.session = some q)
    (h : emitAll cs s = .next u) : Inv u := by
  obtain ⟨⟨q', hq', -⟩, hu, hwf, hcells, -, hcursor⟩ := emitAll_frame h hq
  rw [hu]
  refine ⟨hs.params, hwf hs.commandCanonical, hs.controlCanonical, fun c hc => ?_, hs.controlCells,
    fun r hr => hcursor r hr (hs.cursorInBuffer q hq), hs.readbackInWindow,
    State.phaseOk_congr (s := s) rfl rfl ?_ rfl rfl rfl id hs.phases⟩
  · rcases hcells c hc with hold | hnew
    · exact hs.commandCells c hold
    · exact .inl ⟨rfl, hnew⟩
  · simp [hq, hq']

/-- Moving on after an action leads to a phase that has what it rests on. -/
theorem advance_keeps_phaseOk (h : s.phaseOk) : (advance s).phaseOk := by
  cases hp : s.phase
  case encoding i =>
    have hphase := h
    simp only [State.phaseOk, hp] at hphase
    obtain ⟨⟨c, hc, hl, hv, m, hm, -⟩, hsession⟩ := hphase
    have hmsg : ∀ j, s.message j = c.tx[j]? := fun j => by simp [State.message, hc]
    simp only [advance, hp, hmsg, hm]
    split
    · rename_i hmore
      simp only [State.phaseOk]
      exact ⟨⟨c, hc, hl, hv, m, hm, hmore⟩, hsession⟩
    · split
      · rename_i m' hm'
        exact ⟨⟨c, hc, hl, hv, m', hm', m'.actions_length_pos⟩, hsession⟩
      · exact ⟨⟨c, hc, hl, hv⟩, hsession⟩
  case stopping | terminating =>
    have hphase := h
    simp only [State.phaseOk, hp] at hphase
    simp only [advance, hp]
    exact hphase
  all_goals
    simp only [advance, hp]
    exact h

theorem advance_keeps_inv (hs : Inv s) : Inv (advance s) := by
  have hphase := advance_keeps_phaseOk hs.phases
  rw [advance_frame s] at hphase ⊢
  exact hs.at_phase hphase

/-- The phases in which the sequencer carries out actions have a session. -/
theorem actionStep_keeps_inv (hs : Inv s) (hsession : s.session.isSome = true)
    (h : actionStep s = .next t) : Inv t := by
  obtain ⟨q, hq⟩ := Option.isSome_iff_exists.1 hsession
  obtain ⟨cs, u, hu, rfl⟩ := actionStep_next h
  exact advance_keeps_inv (emitAll_keeps_inv hs hq hu)

theorem preWaitStep_keeps_inv {k : Nat} (hs : Inv s) (hp : s.phase = .preWait k)
    (h : preWaitStep k s = .next t) : Inv t := by
  have hphase := hs.phases
  simp only [State.phaseOk, hp] at hphase
  obtain ⟨hcall, hsession⟩ := hphase
  rcases preWaitStep_next h with rfl | rfl | ⟨hb, rfl⟩
  · exact hs.at_phase (hcall.imp fun _ _ => trivial)
  · exact hs.at_phase ⟨hcall, hsession⟩
  · exact hs.at_phase ⟨hcall, hsession, hb⟩

theorem triggerStep_keeps_inv (hs : Inv s) (hp : s.phase = .triggering)
    (h : triggerStep s = .next t) : Inv t := by
  have hphase := hs.phases
  simp only [State.phaseOk, hp] at hphase
  obtain ⟨hcall, hsession, -⟩ := hphase
  obtain ⟨-, rfl⟩ := triggerStep_next h
  exact ⟨hs.params, hs.commandCanonical, hs.controlCanonical, hs.commandCells, hs.controlCells,
    hs.cursorInBuffer, Nat.zero_le _, hcall, hsession⟩

/-- An unbounded wait ends with the engine idle, which is what `Decoding` rests on (rule R227). -/
theorem postWaitStep_keeps_inv {k : Nat} (hs : Inv s) (hp : s.phase = .postWait k)
    (h : postWaitStep k s = .next t) : Inv t := by
  have hphase := hs.phases
  simp only [State.phaseOk, hp] at hphase
  obtain ⟨hcall, hsession⟩ := hphase
  rcases postWaitStep_next h with rfl | ⟨hend, rfl⟩
  · exact hs.at_phase ⟨hcall, hsession⟩
  · refine hs.at_phase ⟨hcall, hsession, fun hinf => ?_⟩
    rcases hend with hb | hex
    · exact hb
    · have hinf : s.dev.postWaitBound = .inf := hinf
      simp [hinf, boundExhausted] at hex

theorem decodeStep_keeps_inv (hs : Inv s) (hp : s.phase = .decoding)
    (h : decodeStep s = .next t) : Inv t := by
  have hphase := hs.phases
  simp only [State.phaseOk, hp] at hphase
  obtain ⟨hcall, hsession, -⟩ := hphase
  rcases decodeStep_next h with ⟨hb, rfl⟩ | ⟨e, rfl⟩
  · exact hs.at_phase ⟨hcall.imp fun _ hv => ⟨hv, validate_length_pos hv⟩, hsession, hb⟩
  · exact hs.at_phase (hcall.imp fun _ _ => trivial)

theorem readbackStep_keeps_inv {i : Nat} (hs : Inv s) (hp : s.phase = .readback i)
    (h : readbackStep i s = .next t) : Inv t := by
  have hphase := hs.phases
  simp only [State.phaseOk, hp] at hphase
  obtain ⟨⟨c, hc, hl, hv, -⟩, hsession, hb⟩ := hphase
  obtain ⟨c', m, hc', hm, rfl⟩ := readbackStep_next h
  obtain rfl : c = c' := by simpa [hc] using hc'
  refine ⟨hs.params, hs.commandCanonical, hs.controlCanonical, hs.commandCells, hs.controlCells,
    hs.cursorInBuffer, hs.readbackInWindow, ?_⟩
  simp only [State.phaseOk, afterReadback]
  split_ifs with hmore
  · exact ⟨⟨_, rfl, hl, validate_set_withResult hv hm (s.rbBytes_length _ _), by simpa using hmore⟩,
      hsession, hb⟩
  · exact ⟨_, rfl, hl, trivial⟩

theorem doneStep_keeps_inv {r : Result} (hs : Inv s) (h : doneStep r s = .next t) : Inv t := by
  obtain ⟨c, -, rfl⟩ := doneStep_next h
  exact ⟨hs.params, hs.commandCanonical, hs.controlCanonical, hs.commandCells, hs.controlCells,
    nofun, hs.readbackInWindow, rfl, rfl, rfl⟩

theorem sequencerStep_keeps_inv (hs : Inv s) (h : sequencerStep s = .next t) : Inv t := by
  have hphase := hs.phases
  cases hp : s.phase <;> simp only [sequencerStep, hp] at h <;>
    simp only [State.phaseOk, hp] at hphase
  case idle => exact acquire_keeps_inv hs hp h
  case validating => exact validateStep_keeps_inv hs hp h
  case encoding | stopping | terminating => exact actionStep_keeps_inv hs hphase.2 h
  case preWait => exact preWaitStep_keeps_inv hs hp h
  case triggering => exact triggerStep_keeps_inv hs hp h
  case postWait => exact postWaitStep_keeps_inv hs hp h
  case decoding => exact decodeStep_keeps_inv hs hp h
  case readback => exact readbackStep_keeps_inv hs hp h
  case done => exact doneStep_keeps_inv hs h

/-- Settles O41: the choice of the turn, then the agent's own lemma. -/
theorem stepKeepsInvariant : Obligations.StepKeepsInvariant := by
  intro s t hs h
  rcases step_cases h with rfl | ⟨sched, draws, ⟨-, h⟩ | ⟨-, h⟩⟩
  · exact hs
  · exact engineStep_keeps_inv hs.of_fetch_and_choice h
  · exact sequencerStep_keeps_inv hs.of_fetch_and_choice h

/-! ### The bus, the parameters, `busy` and the acknowledgement bits -/

/-- Settles O44: the frames of the two agents. -/
theorem sequencerLeavesTheBus : Obligations.SequencerLeavesTheBus := by
  refine ⟨fun s t h => ?_, fun s t h => ?_⟩
  · rcases sequencerStep_next h with hf | ⟨-, -, rfl⟩
    · exact ⟨hf.dev, hf.scl, hf.sdam, hf.rsh, hf.wire, hf.slave⟩
    · exact ⟨rfl, rfl, rfl, rfl, rfl, rfl⟩
  · obtain ⟨c, -, hc⟩ := engineStep_next h
    exact (exec_command_next hc).1.dev

/-- Settles O45: the engine never sets `busy`, the sequencer never clears it. -/
theorem busyTransitions : Obligations.BusyTransitions := by
  intro s t h
  rcases step_cases h with rfl | ⟨sched, draws, ⟨hen, h⟩ | ⟨-, h⟩⟩
  · exact ⟨fun h₀ h₁ => by simp [h₀] at h₁, fun h₁ h₀ => by simp [h₁] at h₀⟩
  · have hb := busy_of_engineEnabled hen
    refine ⟨fun h₀ => by simp [hb] at h₀, fun _ h₀ => ⟨?_, hen⟩⟩
    rcases engineStep_busy h with hsame | ⟨-, hend⟩
    · simp [hb, h₀] at hsame
    · exact hend
  · rcases sequencerStep_next h with hf | ⟨hp, hidle, rfl⟩
    · have hsame : t.busy = s.busy := hf.busy
      exact ⟨fun h₀ h₁ => by simp [hsame, h₀] at h₁, fun h₁ h₀ => by simp [hsame, h₁] at h₀⟩
    · exact ⟨fun _ _ => hp, fun _ h₀ => by simp at h₀⟩

/-- Settles O46: a sample only adds bits, and the sequencer touches them at the trigger only. -/
theorem ackFailureIsSticky : Obligations.AckFailureIsSticky := by
  intro s t h hp
  rcases step_cases h with rfl | ⟨sched, draws, ⟨-, h⟩ | ⟨-, h⟩⟩
  · exact BitVec.and_self
  · exact (engineStep_bus h).2
  · rcases sequencerStep_next h with hf | ⟨htrig, -, -⟩
    · rw [hf.ackf]
      exact BitVec.and_self
    · exact absurd htrig hp

/-- The sequencer records nothing on the wires (rule R20). -/
theorem sequencerStep_wire (h : sequencerStep s = .next t) : t.wire = s.wire := by
  rcases sequencerStep_next h with hf | ⟨-, -, rfl⟩
  · exact hf.wire
  · rfl

/-- Settles O47: the engine appends, the sequencer records nothing. -/
theorem wireIsAppendOnly : Obligations.WireIsAppendOnly := by
  intro s t h
  rcases step_cases h with rfl | ⟨sched, draws, ⟨-, h⟩ | ⟨-, h⟩⟩
  · exact ⟨[], by simp⟩
  · exact (engineStep_bus h).1
  · exact ⟨[], by simpa using sequencerStep_wire h⟩

/-- Settles O48, by induction on the length of the run. -/
theorem engineIsStuckPastItsBuffer : Obligations.EngineIsStuckPastItsBuffer := fun _ n h =>
  ⟨engineEnabled_past_buffer h,
    fun hs => run_of_nobody_enabled (engineEnabled_past_buffer h) hs n⟩

/-! ### Writes that are refused, the status word and reset -/

theorem cbWrite_beyond_buffer {i : Nat} (h : s.dev.cbCapacity ≤ i) (v : Byte) :
    cbWrite i v s = .refused (.commandBufferFull i) := by
  simp [cbWrite, h]

theorem cbWrite_while_busy {i : Nat} (h : i < s.dev.cbCapacity) (hb : s.busy = true) (v : Byte) :
    cbWrite i v s = .refused .writeWhilePlaying := by
  simp [cbWrite, Nat.not_le.2 h, hb]

/-- Settles O23: a committing command is refused as its byte write is. -/
theorem contractViolationsAreRefused : Obligations.ContractViolationsAreRefused := by
  intro s i v
  refine ⟨fun h => cbWrite_beyond_buffer h v, fun h hb => cbWrite_while_busy h hb v, ?_⟩
  intro q c hq hodd hroom hb
  have hfull : q.latchFull = true := by simp [Session.latchFull, hodd]
  have hroom : s.cursor q < s.dev.cbCapacity := hroom
  rw [emit_full hq hfull, cbWrite_while_busy hroom hb, andThen_refused]

/-- Bit 0 of a status word is `busy` (rule R33). -/
theorem StatusWord.bits_zero {w : Nat} (x : StatusWord w) : x.bits.getLsbD 0 = x.busy := by
  rw [StatusWord.bits, BitVec.getLsbD_append]
  simp

/-- The bits from 1 on hold the acknowledgement bits (rule R33). -/
theorem StatusWord.bits_ackf {w i : Nat} (x : StatusWord w) (h : i < 2) :
    x.bits.getLsbD (1 + i) = x.ackf.getLsbD i := by
  rw [StatusWord.bits, BitVec.getLsbD_append, BitVec.getLsbD_append]
  simp [h]

/-- The bits from 3 on are those that the source does not describe (rule R33). -/
theorem StatusWord.bits_upper {w : Nat} (x : StatusWord w) (i : Nat) :
    x.bits.getLsbD (3 + i) = x.upper.getLsbD i := by
  rw [StatusWord.bits, BitVec.getLsbD_append, BitVec.getLsbD_append, if_neg (by omega),
    if_neg (by omega)]
  congr 1
  omega

/-- The fields of a status word are recovered from its bits (rule R33). -/
theorem StatusWord.ofBits_bits {w : Nat} (x : StatusWord w) : StatusWord.ofBits x.bits = x := by
  have hackf : x.bits.extractLsb' 1 2 = x.ackf :=
    BitVec.eq_of_getLsbD_eq fun i hi => by simp [hi, x.bits_ackf hi]
  have hupper : x.bits.extractLsb' 3 w = x.upper :=
    BitVec.eq_of_getLsbD_eq fun i hi => by simp [hi, x.bits_upper]
  rw [StatusWord.ofBits, x.bits_zero, hackf, hupper]

/-- Settles O25: the fields of the status word, bit by bit. -/
theorem statusWordLayout : Obligations.StatusWordLayout := fun s =>
  ⟨s.statusWord.bits_zero, s.statusWord.bits_ackf (i := 0) (by decide),
    s.statusWord.bits_ackf (i := 1) (by decide), s.statusWord.ofBits_bits⟩

/-- Settles O39: the fields of `State.resetWith`. -/
theorem resetValues : Obligations.ResetValues := fun _ =>
  ⟨rfl, rfl, rfl, rfl, rfl, rfl, rfl, rfl, rfl, rfl⟩

/-- After reset no byte is listed, there is no session and nothing has been received. -/
theorem inv_resetWith {p : Params} (h : p.wf = true) : Inv (State.resetWith p) where
  params := h
  commandCanonical := List.Pairwise.nil
  controlCanonical := List.Pairwise.nil
  commandCells := nofun
  controlCells := nofun
  cursorInBuffer := nofun
  readbackInWindow := Nat.zero_le _
  phases := ⟨rfl, rfl, rfl⟩

/-- Settles O40: the parameters of `State.reset` meet their constraints. -/
theorem resetHasInvariant : Obligations.ResetHasInvariant :=
  ⟨fun _ => inv_resetWith, inv_resetWith (by decide)⟩

end Sys2Proof.Machine
end

section
/-! PROOFS. The regions of memory: which bytes each agent can write, the byte write of the command buffer
and the trigger: the statements of file 20_memory.md. -/

namespace Sys2Proof.Machine

variable {s t : State}

/-! ### The regions -/

/-- No byte of the readback window is a byte of the command buffer (rules R60, R62, R63; log entry 6). -/
theorem Params.readback_ne_command {p : Params} {i j : Nat} (h : p.wf = true) (hi : i < p.cbCapacity)
    (hj : j < p.rbCapacity) : p.rbWindow ≠ .command ∨ p.rbBase + j ≠ p.cbWinBase + i := by
  have hapart : p.regionsApart = true := by
    simp only [Params.wf, Bool.and_eq_true] at h
    exact h.2
  cases hw : p.rbWindow with
  | control => exact .inl nofun
  | command =>
    simp only [Params.regionsApart, hw, Bool.or_eq_true, decide_eq_true_eq] at hapart
    exact .inr (by omega)

/-- A byte reads the same in two states whose windows are the same. -/
theorem State.readByte_congr (hcmd : t.commandWin = s.commandWin) (hctl : t.controlWin = s.controlWin)
    (w : Window) (a : Nat) : t.readByte w a = s.readByte w a := by
  cases w
  · exact congrArg (Memory.read · a) hcmd
  · exact congrArg (Memory.read · a) hctl

/-! ### What the engine writes -/

/-- The execution of a command leaves every byte outside the readback window alone (rule R79). -/
theorem EngineFrame.readByte_outside_readback (hf : EngineFrame s t) {w : Window} {a : Nat}
    (h : ∀ j, j < s.dev.rbCapacity → w ≠ s.dev.rbWindow ∨ a ≠ s.dev.rbBase + j) :
    t.readByte w a = s.readByte w a := by
  rcases hf.windows with ⟨hcmd, hctl, -⟩ | ⟨b, hcmd, hctl, -, hr⟩
  · exact State.readByte_congr hcmd hctl w a
  · rw [State.readByte_congr hcmd hctl, State.readByte_writeByte_other s b (h s.rptr hr)]

/-! ### What the sequencer writes -/

/-- An emission leaves every byte outside the command buffer alone, with or without a session. -/
theorem emitAll_readByte_outside_buffer {cs : List Command} (h : emitAll cs s = .next t) {w : Window}
    {a : Nat} (ha : ∀ i, i < s.dev.cbCapacity → w ≠ .command ∨ a ≠ s.dev.cbWinBase + i) :
    t.readByte w a = s.readByte w a := by
  cases w with
  | control =>
    rw [emitAll_changes h]
    rfl
  | command =>
    cases hq : s.session with
    | some q =>
      obtain ⟨-, -, -, -, houtside, -⟩ := emitAll_frame h hq
      refine houtside a ?_
      by_contra hin
      rcases ha (a - s.dev.cbWinBase) (by omega) with hw | hne
      · exact hw rfl
      · omega
    | none =>
      cases cs with
      | nil =>
        injection h with h
        rw [h]
      | cons c cs => simp [emit, hq] at h

/-- A step of the sequencer leaves the control window alone (rule R79). -/
theorem sequencerStep_controlWin (h : sequencerStep s = .next t) : t.controlWin = s.controlWin := by
  rcases sequencerStep_next h with hf | ⟨-, -, rfl⟩
  · exact hf.controlWin
  · rfl

/-- A step of the sequencer writes the command-buffer window inside a transaction only, and by emitting. -/
theorem sequencerStep_commandWin (h : sequencerStep s = .next t) :
    t.commandWin = s.commandWin ∨
      (s.phase ≠ .idle ∧ ∃ cs u, emitAll cs s = .next u ∧ t.commandWin = u.commandWin) := by
  cases hp : s.phase <;> simp only [sequencerStep, hp] at h
  case encoding | stopping | terminating =>
    obtain ⟨cs, u, hu, rfl⟩ := actionStep_next h
    refine .inr ⟨nofun, cs, u, hu, ?_⟩
    rw [advance_frame u]
  all_goals left
  case idle =>
    obtain rfl | ⟨-, c, -, ht⟩ := acquire_next h
    · rfl
    · rw [ht]
  case validating =>
    obtain ⟨c, -, ⟨-, rfl⟩ | ⟨-, rfl⟩⟩ := validateStep_next h <;> rfl
  case preWait =>
    obtain rfl | rfl | ⟨-, rfl⟩ := preWaitStep_next h <;> rfl
  case triggering =>
    obtain ⟨-, rfl⟩ := triggerStep_next h
    rfl
  case postWait =>
    obtain rfl | ⟨-, rfl⟩ := postWaitStep_next h <;> rfl
  case decoding =>
    obtain ⟨-, rfl⟩ | ⟨e, rfl⟩ := decodeStep_next h <;> rfl
  case readback =>
    obtain ⟨c, m, -, -, rfl⟩ := readbackStep_next h
    rfl
  case done =>
    obtain ⟨c, -, rfl⟩ := doneStep_next h
    rfl

/-- A step of the sequencer leaves every byte outside the command buffer alone (rule R79). -/
theorem sequencerStep_readByte_outside_buffer (h : sequencerStep s = .next t) {w : Window} {a : Nat}
    (ha : ∀ i, i < s.dev.cbCapacity → w ≠ .command ∨ a ≠ s.dev.cbWinBase + i) :
    t.readByte w a = s.readByte w a := by
  have hctl := sequencerStep_controlWin h
  rcases sequencerStep_commandWin h with hcmd | ⟨-, cs, u, hu, hcmd⟩
  · exact State.readByte_congr hcmd hctl w a
  · have huctl : u.controlWin = s.controlWin := by rw [emitAll_changes hu]
    rw [State.readByte_congr hcmd (hctl.trans huctl.symm), emitAll_readByte_outside_buffer hu ha]

/-- Settles O43: each agent leaves the bytes outside its own region alone, and the regions are apart. -/
theorem regionsAreOwned : Obligations.RegionsAreOwned := by
  refine ⟨fun s t hwf h => ?_, fun s t hwf h => ⟨fun hp => ?_, fun hp => ?_, fun i hi => ?_⟩⟩
  · obtain ⟨c, -, hc⟩ := engineStep_next h
    have hf := (exec_command_next hc).1
    refine ⟨hf.plays, hf.lock, hf.session, hf.phase, hf.call, hf.waiting, hf.returned, fun i hi => ?_⟩
    exact hf.readByte_outside_readback fun j hj =>
      (Params.readback_ne_command hwf hi hj).imp Ne.symm Ne.symm
  · rcases sequencerStep_next h with hf | ⟨htrig, -, -⟩
    · exact ⟨hf.busy, hf.ackf, hf.plays⟩
    · exact absurd htrig hp
  · rcases sequencerStep_commandWin h with hcmd | ⟨hbusy, -⟩
    · exact ⟨hcmd, sequencerStep_controlWin h⟩
    · exact absurd hp hbusy
  · exact sequencerStep_readByte_outside_buffer h fun j hj => Params.readback_ne_command hwf hj hi

/-! ### The byte write of the command buffer -/

/-- A command-buffer byte reads as the byte last written there (rule R62). -/
theorem State.cbRead_writeByte_same (s : State) (i : Nat) (v : Byte) :
    (s.writeByte .command (s.dev.cbWinBase + i) v).cbRead i = v := by
  have hread := s.readByte_writeByte_same .command (s.dev.cbWinBase + i) v
  have hdev : (s.writeByte .command (s.dev.cbWinBase + i) v).dev = s.dev := rfl
  rw [State.cbRead, hdev, hread, Option.getD_some]

/-- Settles O55: the write that goes on is one byte write of the command-buffer window. -/
theorem commandBufferWriteIsLocal : Obligations.CommandBufferWriteIsLocal := by
  intro s t i v h
  obtain ⟨-, -, rfl⟩ := cbWrite_eq_next.1 h
  exact ⟨rfl, s.cbRead_writeByte_same i v, fun w a hne => s.readByte_writeByte_other v hne,
    fun hwf => Memory.write_wf hwf _ v⟩

/-! ### The trigger -/

/-- Settles O24: from an idle engine by the trigger's one outcome, else the refusal of entry U6. -/
theorem triggerStartsPlayback : Obligations.TriggerStartsPlayback := by
  refine fun s x => ⟨fun hidle hx => triggerWrite_eq_next.2 ⟨hidle, hx, rfl⟩, fun hb => ?_⟩
  rw [triggerWrite, if_pos hb]

end Sys2Proof.Machine
end

section
/-! PROOFS. Packing, opcode values and the decoder as the inverse of the encoder: the statements of file
30_encoding.md about one byte, one nibble and one instruction. -/

namespace Sys2Proof.Machine

variable {s t : State}

/-! ### Packing (rules R64, R96) -/

/-- `pack` puts its second nibble above its first. -/
theorem pack_eq_append (lo hi : Nibble) : pack lo hi = hi ++ lo := by
  refine BitVec.eq_of_getElem_eq fun i hi8 => ?_
  refine Eq.trans ?_ (BitVec.getElem_append (x := hi) (y := lo) hi8).symm
  by_cases h : i < 4
  · simp [pack, h]
  · have hi4 : i - 4 < 4 := by omega
    simp [pack, h, BitVec.getLsbD_of_ge lo i (by omega), BitVec.getLsbD_eq_getElem hi4]

@[simp] theorem lowNibble_pack (lo hi : Nibble) : lowNibble (pack lo hi) = lo := by
  rw [pack_eq_append]
  exact BitVec.extractLsb'_append_eq_right

@[simp] theorem highNibble_pack (lo hi : Nibble) : highNibble (pack lo hi) = hi := by
  rw [pack_eq_append]
  exact BitVec.extractLsb'_append_eq_left

/-- As a number the first command counts 1 and the second 16. -/
theorem pack_toNat (lo hi : Nibble) : (pack lo hi).toNat = lo.toNat + 16 * hi.toNat := by
  have hlo := lo.isLt
  rw [pack_eq_append, BitVec.toNat_append, ← Nat.shiftLeft_add_eq_or_of_lt hlo, Nat.shiftLeft_eq]
  omega

theorem pack_unpack (b : Byte) : pack (unpack b).1 (unpack b).2 = b := by
  rw [pack_eq_append]
  exact BitVec.extractLsb'_append_extractLsb' (w := 4) (len := 4)

/-- Settles O1, by the two nibbles of a packed byte. -/
theorem packAndUnpackAreInverse : Obligations.PackAndUnpackAreInverse :=
  ⟨fun lo hi => ⟨by simp [unpack], pack_toNat lo hi⟩, pack_unpack, by decide⟩

/-! ### The address byte (rule R98) -/

theorem addressByte_eq_append (a : BitVec 7) (v : Bool) :
    addressByte a v = a ++ BitVec.ofBool v := by
  refine BitVec.eq_of_getElem_eq fun i hi => ?_
  refine Eq.trans ?_ (BitVec.getElem_append (x := a) (y := BitVec.ofBool v) hi).symm
  cases i with
  | zero => simp [addressByte]
  | succ i => simp [addressByte, BitVec.getLsbD_eq_getElem (Nat.lt_of_succ_lt_succ hi)]

theorem addressByte_toNat (a : BitVec 7) (v : Bool) :
    (addressByte a v).toNat = 2 * a.toNat + v.toNat := by
  rw [addressByte_eq_append, BitVec.toNat_append,
    ← Nat.shiftLeft_add_eq_or_of_lt (BitVec.ofBool v).isLt, Nat.shiftLeft_eq, BitVec.toNat_ofBool]
  omega

/-- Settles O5: the direction bit is 0 for a write and 1 for a read. -/
theorem addressByteValue : Obligations.AddressByteValue :=
  ⟨fun a _ => addressByte_toNat a false, fun a _ => addressByte_toNat a true⟩

/-! ### One nibble (rules R90, R92, R94) -/

/-- A nibble decodes to no command exactly when the table leaves it unnamed. -/
theorem decodeCommand_eq_none {o : OpcTable} {n : Nibble} :
    decodeCommand o n = none ↔ o.unnamed n = true := by
  have hvalues : o.values = Command.all.map o.code := rfl
  simp [decodeCommand, OpcTable.unnamed, hvalues]

/-- Settles O2: the sixteen nibbles and the word of `Start`, one table row each. -/
theorem tableWordsDecode : Obligations.TableWordsDecode := by
  unfold Obligations.TableWordsDecode
  exact ⟨by decide, by decide⟩

/-- Under every table the engine refuses a nibble that names no command (rule R94): it decodes to a
reserved instruction of that very value, or to none. -/
theorem engineStep_of_unnamed (h : s.dev.opc.unnamed s.fetchNibble = true) :
    engineStep s = .refused (.noCommand s.fetchNibble) := by
  simp only [engineStep, decodeNibble, decodeCommand_eq_none.2 h]
  by_cases h9 : s.fetchNibble = 0x9#4
  · simp [h9, exec, execReserved9]
  by_cases hA : s.fetchNibble = 0xA#4
  · simp [hA, exec, execReservedA]
  by_cases hB : s.fetchNibble = 0xB#4
  · simp [hB, exec, execReservedB]
  simp [h9, hA, hB]

/-- Settles O15: the sixteen values of the standard table, and the refusal under any table. -/
theorem unnamedNibblesAreRefused : Obligations.UnnamedNibblesAreRefused :=
  ⟨by decide, fun _ => ⟨rfl, rfl, rfl⟩, fun _ => engineStep_of_unnamed⟩

/-! ### Reading back the commands of a byte (rules R65, R99, R152, R153) -/

/-- Shifting a bit in makes it bit 0 and moves the others up. -/
theorem getElem_shiftIn (r : Byte) (v : Bool) {i : Nat} (h : i < 8) :
    (shiftIn r v)[i] = if i = 0 then v else r[i - 1] := by
  cases i <;> simp [shiftIn]

/-- Eight bits shifted in, most significant first, leave nothing of the old contents. -/
theorem foldl_shiftIn_byteBits (r b : Byte) : (byteBits b).foldl shiftIn r = b := by
  refine BitVec.eq_of_getElem_eq fun i hi => ?_
  simp only [byteBits, List.map_cons, List.map_nil, List.foldl_cons, List.foldl_nil]
  interval_cases i <;> simp [getElem_shiftIn]

theorem readBits_bitCommands (vs : List Bool) (r : Byte) (cs : List Command) :
    readBits vs.length r (vs.map bitCommand ++ cs) = some (vs.foldl shiftIn r, cs) := by
  induction vs generalizing r with
  | nil => rfl
  | cons v vs ih => cases v <;> exact ih _

theorem byteWriteCommands_eq (b : Byte) :
    byteWriteCommands b = (byteBits b).map bitCommand ++ [.dataHighAck0] := rfl

theorem readWrite_byteWriteCommands (b : Byte) (cs : List Command) :
    readWrite (byteWriteCommands b ++ cs) = some (b, cs) := by
  have hbits := readBits_bitCommands (byteBits b) 0#8 (.dataHighAck0 :: cs)
  rw [foldl_shiftIn_byteBits] at hbits
  have hlength : (byteBits b).length = 8 := rfl
  rw [hlength] at hbits
  simp [readWrite, byteWriteCommands_eq, hbits]

/-- A written byte begins with a bit command, so that no other event or action is read there. -/
theorem byteWriteCommands_head (b : Byte) :
    ∃ v tail, byteWriteCommands b = bitCommand v :: tail :=
  ⟨_, _, rfl⟩

theorem dropReads_readByteCommands (cs : List Command) :
    dropReads 8 (readByteCommands ++ cs) = some cs := rfl

theorem readReads_byteReadCommands {n fuel : Nat} (hn : 1 ≤ n) (hf : n ≤ fuel) (cs : List Command) :
    readReads fuel (byteReadCommands n ++ cs) = some (n, cs) := by
  induction n using byteReadCommands.induct generalizing fuel with
  | case1 => omega
  | case2 =>
    obtain ⟨fuel, rfl⟩ := Nat.exists_eq_add_of_le' hf
    simp [readReads, byteReadCommands, dropReads_readByteCommands]
  | case3 n ih =>
    obtain ⟨fuel, rfl⟩ : ∃ k, fuel = k + 1 := ⟨fuel - 1, by omega⟩
    have hrest := ih (fuel := fuel) (by omega) (by omega)
    simp [readReads, byteReadCommands, dropReads_readByteCommands, hrest]

/-- Received bytes begin with a read, so that no other event or action is read there. -/
theorem byteReadCommands_head {n : Nat} (hn : 1 ≤ n) :
    ∃ tail, byteReadCommands n = .dataHighRead :: tail := by
  cases n using byteReadCommands.induct with
  | case1 => omega
  | case2 => exact ⟨_, rfl⟩
  | case3 n => exact ⟨_, rfl⟩

/-! ### The encoder's actions (rules R103, R107) -/

/-- The commands an action of the encoder emits; a primitive command is no such action and emits none.
`latchFull` matters to the termination alone (rule R221). -/
def actionCommands (latchFull : Bool) : Instr → List Command
  | .start => startCommands
  | .byteWrite b => byteWriteCommands b
  | .byteRead n => byteReadCommands n
  | .stop => stopCommands
  | .terminate => terminateCommands latchFull
  | _ => []

/-- The encoding of an action is its commands under the table. -/
theorem encode_eq_actionCommands {i : Instr} (hi : i.layer = .encoder) (o : OpcTable) (l : Bool) :
    encode o l i = (actionCommands l i).map o.code := by
  cases i <;> simp only [Instr.layer, reduceCtorEq] at hi <;> rfl

/-- The reader of actions takes exactly the commands of a well-formed action, whatever follows. -/
theorem readAction_actionCommands {i : Instr} (hi : i.layer = .encoder) (hw : i.wf = true) (l : Bool)
    (cs : List Command) : readAction l (actionCommands l i ++ cs) = some (i, cs) := by
  cases i <;> simp only [Instr.layer, reduceCtorEq] at hi
  case start | stop => rfl
  case terminate => cases l <;> rfl
  case byteWrite b =>
    have hread := readWrite_byteWriteCommands b cs
    obtain ⟨v, tail, hhead⟩ := byteWriteCommands_head b
    simp only [actionCommands, hhead] at hread ⊢
    cases v <;> simpa [readAction, bitCommand] using hread
  case byteRead n =>
    have hn : 1 ≤ n := by simpa [Instr.wf] using hw
    have hlen : n ≤ (byteReadCommands n ++ cs).length := by
      rw [List.length_append, Laws.byteReadCommands_length]
      omega
    have hread := readReads_byteReadCommands hn hlen cs
    obtain ⟨tail, hhead⟩ := byteReadCommands_head hn
    simp only [actionCommands, hhead] at hread ⊢
    simpa [readAction] using hread

/-- A stream that begins with the values of commands names those commands. -/
theorem namedCommands_append {o : OpcTable} (h : o.wf = true) (cs : List Command) (ns : List Nibble) :
    namedCommands o (cs.map o.code ++ ns) = cs ++ namedCommands o ns := by
  induction cs with
  | nil => rfl
  | cons c cs ih => simp [namedCommands, decodeCommand_code h, ih]

/-- An action decodes from its encoding, whatever follows (rules R103, R107). -/
theorem decodeAction_encode {o : OpcTable} {i : Instr} (h : o.wf = true) (hi : i.layer = .encoder)
    (hw : i.wf = true) (l : Bool) (ns : List Nibble) :
    decodeAction o l (encode o l i ++ ns) = some (i, ns) := by
  rw [encode_eq_actionCommands hi]
  simp [decodeAction, namedCommands_append h, readAction_actionCommands hi hw]

/-- A nibble decodes to the command whose value it is. -/
theorem decodeNibble_code {o : OpcTable} (h : o.wf = true) (c : Command) :
    decodeNibble o (o.code c) = some c.toInstr := by
  simp [decodeNibble, decodeCommand_code h]

/-- Settles O3: a command by its one nibble, a reserved value because the table leaves it unnamed, an
action of the encoder by its commands. -/
theorem decodeOfEncode : Obligations.DecodeOfEncode := by
  intro o l i ns h hw he
  cases hl : i.layer with
  | encoder => exact decodeAction_encode h hl hw l ns
  | engine =>
    cases i <;> simp only [Instr.layer, reduceCtorEq] at hl
    case reserved9 | reservedA | reservedB =>
      simp [decode, encode, decodeNibble, decodeCommand_eq_none.2 he]
    all_goals
      simp only [decode, encode, List.cons_append, List.nil_append, decodeNibble_code h]
      rfl

end Sys2Proof.Machine
end

section
/-! PROOFS. The byte image of a transaction's stream, parsed back to the encoder's actions and to its bus
events (rules R97, R103, R104). -/

namespace Sys2Proof.Machine

variable {s t : State}

/-! ### Packing a stream (rule R97) -/

theorem unpackAll_append (bs cs : List Byte) :
    unpackAll (bs ++ cs) = unpackAll bs ++ unpackAll cs := by
  induction bs with
  | nil => rfl
  | cons b bs ih => simp [unpackAll, ih]

/-- An even number of nibbles is unpacked as it was packed. -/
theorem unpackAll_packAll {filler : Nibble} {ns : List Nibble} (h : ns.length % 2 = 0) :
    unpackAll (packAll filler ns) = ns := by
  induction ns using packAll.induct with
  | case1 => rfl
  | case2 => simp at h
  | case3 n m ns ih =>
    simp only [List.length_cons] at h
    simp [packAll, unpackAll, ih (by omega)]

/-! ### The actions of a stream (rule R103) -/

/-- The commands of a message are those of its actions (rule R195). -/
theorem Message.flatMap_actionCommands (m : Message) (l : Bool) :
    m.actions.flatMap (actionCommands l) = m.commands := by
  cases m <;> simp [Message.actions, Message.commands, actionCommands, List.flatMap_map]

/-- In a valid transaction the actions of every message are well-formed: no read is empty (rule R194). -/
theorem validate_actions_wf {tx : Transaction} (hv : validate tx = true) {m : Message} (hm : m ∈ tx)
    {i : Instr} (hi : i ∈ m.actions) : i.wf = true := by
  obtain ⟨-, -, hread⟩ := validate_iff.1 hv
  cases m with
  | write a p =>
    simp only [Message.actions, List.mem_cons, List.mem_map] at hi
    rcases hi with rfl | rfl | ⟨b, -, rfl⟩ <;> rfl
  | read a r =>
    simp only [Message.actions, List.mem_cons, List.not_mem_nil, or_false] at hi
    rcases hi with rfl | rfl | rfl
    · rfl
    · rfl
    · exact decide_eq_true (hread _ hm rfl)

/-- No message calls for the termination. -/
theorem Message.terminate_notMem_actions (m : Message) : .terminate ∉ m.actions := by
  cases m <;> simp [Message.actions]

/-- The actions of a transaction before its termination (rules R103, R193). -/
def bodyActions (tx : Transaction) : List Instr := tx.flatMap Message.actions ++ [.stop]

theorem streamActions_eq (tx : Transaction) : streamActions tx = bodyActions tx ++ [.terminate] := by
  simp [streamActions, bodyActions]

theorem streamCommands_eq (tx : Transaction) (l : Bool) :
    streamCommands tx = (bodyActions tx).flatMap (actionCommands l) := by
  simp [streamCommands, bodyActions, List.flatMap_assoc, Message.flatMap_actionCommands,
    actionCommands]

/-- An action that can stand before the termination of a stream. -/
structure BodyAction (i : Instr) : Prop where
  encoder : i.layer = .encoder
  wellFormed : i.wf = true
  notTerminate : i ≠ .terminate

theorem bodyAction_of_mem {tx : Transaction} (hv : validate tx = true) {i : Instr}
    (hi : i ∈ bodyActions tx) : BodyAction i := by
  simp only [bodyActions, List.mem_append, List.mem_flatMap, List.mem_singleton] at hi
  rcases hi with ⟨m, hm, hi⟩ | rfl
  · refine ⟨Message.actions_layer hi, validate_actions_wf hv hm hi, ?_⟩
    rintro rfl
    exact m.terminate_notMem_actions hi
  · exact ⟨rfl, rfl, nofun⟩

/-- Only the termination depends on the parity of its place. -/
theorem BodyAction.actionCommands_eq {i : Instr} (hi : BodyAction i) (l k : Bool) :
    actionCommands l i = actionCommands k i := by
  cases i
  case terminate => exact absurd rfl hi.notTerminate
  all_goals rfl

/-- The scan takes the first action and goes on at the parity behind it. -/
theorem scanActions_cons {o : OpcTable} (h : o.wf = true) {i : Instr} (hi : BodyAction i)
    (fuel : Nat) (odd : Bool) (ns : List Nibble) :
    scanActions o (fuel + 1) odd ((actionCommands odd i).map o.code ++ ns) =
      (scanActions o fuel (odd ^^ ((actionCommands odd i).length % 2 == 1)) ns).map (i :: ·) := by
  have hdec := decodeAction_encode h hi.encoder hi.wellFormed odd ns
  rw [encode_eq_actionCommands hi.encoder] at hdec
  cases i
  case terminate => exact absurd rfl hi.notTerminate
  all_goals simp [scanActions, hdec]

/-- The parity of a position is that of the commands before it. -/
theorem parity_add (m n : Nat) : ((m % 2 == 1) ^^ (n % 2 == 1)) = ((m + n) % 2 == 1) := by
  rcases Nat.mod_two_eq_zero_or_one m with hm | hm <;>
    rcases Nat.mod_two_eq_zero_or_one n with hn | hn <;> simp [hm, hn, Nat.add_mod]

/-- The scan of a whole stream that starts at position `k` (rule R221): its actions in order, then the
termination that the parity behind them calls for. -/
theorem scanActions_stream {o : OpcTable} (h : o.wf = true) {is : List Instr}
    (his : ∀ i ∈ is, BodyAction i) {fuel : Nat} (hf : is.length < fuel) (k : Nat) :
    scanActions o fuel (k % 2 == 1)
      ((is.flatMap (actionCommands false) ++
        terminateCommands ((k + (is.flatMap (actionCommands false)).length) % 2 == 1)).map o.code) =
      some (is ++ [.terminate]) := by
  obtain ⟨fuel, rfl⟩ : ∃ f, fuel = f + 1 := ⟨fuel - 1, by omega⟩
  induction is generalizing fuel k with
  | nil =>
    have hdec := decodeAction_encode (i := .terminate) h rfl rfl (k % 2 == 1) []
    rw [encode_eq_actionCommands (by rfl)] at hdec
    have hdec : decodeAction o (k % 2 == 1)
        ((terminateCommands (k % 2 == 1)).map o.code) = some (.terminate, []) := by
      simpa [actionCommands] using hdec
    simp [scanActions, hdec]
  | cons i is ih =>
    obtain ⟨fuel, rfl⟩ : ∃ f, fuel = f + 1 := ⟨fuel - 1, by simp at hf; omega⟩
    have hi := his i (by simp)
    have htail := ih (fun j hj => his j (by simp [hj])) (k + (actionCommands false i).length) fuel
      (by simpa using hf)
    rw [← parity_add, Nat.add_assoc] at htail
    rw [List.flatMap_cons, List.append_assoc, List.map_append, List.length_append,
      hi.actionCommands_eq false (k % 2 == 1), scanActions_cons h hi]
    rw [hi.actionCommands_eq (k % 2 == 1) false, htail]
    rfl

/-! ### The events of a stream (rule R104) -/

/-- The commands that rule R104 reads as an event. -/
def eventCommands : StreamEvent → List Command
  | .start => startCommands
  | .written b => byteWriteCommands b
  | .byteRead true => readByteCommands ++ [.dataLowNoAck]
  | .byteRead false => readByteCommands ++ [.dataHighNoAck]
  | .stop => stopCommands

theorem readEvent_eventCommands (e : StreamEvent) (cs : List Command) :
    readEvent (eventCommands e ++ cs) = some (e, cs) := by
  cases e with
  | start | stop => rfl
  | written b =>
    have hread := readWrite_byteWriteCommands b cs
    obtain ⟨v, tail, hhead⟩ := byteWriteCommands_head b
    simp only [eventCommands, hhead] at hread ⊢
    cases v <;> simpa [readEvent, bitCommand] using hread
  | byteRead acknowledged => cases acknowledged <;> rfl

/-- Every event takes a command, and none begins with `End`. -/
theorem eventCommands_head (e : StreamEvent) :
    ∃ c tail, eventCommands e = c :: tail ∧ c ≠ Command.endCmd := by
  cases e with
  | start | stop => exact ⟨_, _, rfl, nofun⟩
  | written b =>
    obtain ⟨v, tail, hhead⟩ := byteWriteCommands_head b
    exact ⟨_, _, hhead, by cases v <;> nofun⟩
  | byteRead acknowledged => cases acknowledged <;> exact ⟨_, _, rfl, nofun⟩

/-- The events of a stream are read one by one up to its first `End`, whatever follows that. -/
theorem readEvents_eventCommands (es : List StreamEvent) (cs : List Command) {fuel : Nat}
    (hf : es.length ≤ fuel) :
    readEvents fuel (es.flatMap eventCommands ++ .endCmd :: cs) = some es := by
  induction es generalizing fuel with
  | nil => cases fuel <;> rfl
  | cons e es ih =>
    obtain ⟨fuel, rfl⟩ : ∃ f, fuel = f + 1 := ⟨fuel - 1, by simp at hf; omega⟩
    have hread := readEvent_eventCommands e (es.flatMap eventCommands ++ .endCmd :: cs)
    obtain ⟨c, tail, hhead, hc⟩ := eventCommands_head e
    rw [List.flatMap_cons, List.append_assoc]
    simp only [hhead, List.cons_append] at hread ⊢
    simp [readEvents, hread, hc, ih (fuel := fuel) (by simpa using hf)]

/-- The bus events of a message, as rule R104 reads them in its commands. -/
def Message.streamEvents : Message → List StreamEvent
  | .write a p => .start :: .written (Machine.addressByte a false) :: p.map .written
  | .read a r => .start :: .written (Machine.addressByte a true) ::
      (List.replicate (r.length - 1) (.byteRead true) ++ [.byteRead false])

theorem byteReadCommands_eq {n : Nat} (hn : 1 ≤ n) :
    byteReadCommands n =
      (List.replicate (n - 1) (StreamEvent.byteRead true) ++ [StreamEvent.byteRead false]).flatMap
        eventCommands := by
  induction n using byteReadCommands.induct with
  | case1 => omega
  | case2 => rfl
  | case3 n ih => simp [byteReadCommands, ih (by omega), List.replicate_succ, eventCommands]

theorem Message.commands_eq {m : Message} (h : m.isRead = true → 1 ≤ m.length) :
    m.commands = m.streamEvents.flatMap eventCommands := by
  cases m with
  | write a p =>
    simp [Message.commands, Message.streamEvents, eventCommands, List.flatMap_map]
  | read a r =>
    have hr : 1 ≤ r.length := h rfl
    simp [Message.commands, Message.streamEvents, eventCommands, byteReadCommands_eq hr]

/-- The stream of a valid transaction is the commands of its events. -/
theorem streamCommands_eq_events {tx : Transaction} (hv : validate tx = true) :
    streamCommands tx =
      (tx.flatMap Message.streamEvents ++ [StreamEvent.stop]).flatMap eventCommands := by
  obtain ⟨-, -, hread⟩ := validate_iff.1 hv
  have hmessages : ∀ m ∈ tx, m.commands = m.streamEvents.flatMap eventCommands :=
    fun m hm => Message.commands_eq (hread m hm)
  simp [streamCommands, List.flatMap_congr hmessages, List.flatMap_assoc, eventCommands]

/-! ### The byte image (rules R97, R103, R104, R221) -/

theorem terminateCommands_length (l : Bool) :
    (terminateCommands l).length = if l then 3 else 2 := by
  cases l <;> rfl

/-- The commands of a transaction with their termination, which brings them to an even number. -/
def imageCommands (tx : Transaction) : List Command :=
  streamCommands tx ++ terminateCommands ((streamCommands tx).length % 2 == 1)

theorem imageCommands_even (tx : Transaction) : (imageCommands tx).length % 2 = 0 := by
  rw [imageCommands, List.length_append, terminateCommands_length]
  simp only [beq_iff_eq]
  split <;> omega

theorem unpackAll_image (o : OpcTable) (tx : Transaction) :
    unpackAll (packAll o.endCmd ((imageCommands tx).map o.code)) = (imageCommands tx).map o.code :=
  unpackAll_packAll (by rw [List.length_map, imageCommands_even])

/-- A list is no longer than its image when each of its elements has a command there. -/
theorem length_le_length_flatMap {α β : Type} {f : α → List β} {l : List α}
    (h : ∀ a ∈ l, f a ≠ []) : l.length ≤ (l.flatMap f).length := by
  rw [List.length_flatMap]
  refine (List.length_map (fun a => (f a).length)).symm.le.trans
    (List.length_le_sum_of_one_le _ fun n hn => ?_)
  obtain ⟨a, ha, rfl⟩ := List.mem_map.1 hn
  exact List.length_pos_iff.2 (h a ha)

theorem BodyAction.actionCommands_ne_nil {i : Instr} (hi : BodyAction i) (l : Bool) :
    actionCommands l i ≠ [] := by
  have hlayer := hi.encoder
  cases i <;> simp only [Instr.layer, reduceCtorEq] at hlayer
  case byteRead n =>
    obtain ⟨tail, hhead⟩ := byteReadCommands_head (n := n) (by simpa [Instr.wf] using hi.wellFormed)
    simp [actionCommands, hhead]
  case terminate => exact absurd rfl hi.notTerminate
  all_goals nofun

/-- The byte image parses back to the actions that wrote it (rule R103). -/
theorem scanStream_image {o : OpcTable} {tx : Transaction} (h : o.wf = true)
    (hv : validate tx = true) :
    scanStream o (packAll o.endCmd ((imageCommands tx).map o.code)) = some (streamActions tx) := by
  have hbody : ∀ i ∈ bodyActions tx, BodyAction i := fun i hi => bodyAction_of_mem hv hi
  have hfuel : (bodyActions tx).length < (imageCommands tx).length := by
    have hle := length_le_length_flatMap fun i hi => (hbody i hi).actionCommands_ne_nil false
    rw [← streamCommands_eq] at hle
    rw [imageCommands, List.length_append, terminateCommands_length]
    split <;> omega
  have hscan := scanActions_stream h hbody hfuel 0
  rw [← streamCommands_eq, Nat.zero_add] at hscan
  rw [scanStream, unpackAll_image, List.length_map, streamActions_eq]
  exact hscan

/-- The byte image parses back to its bus events, whatever stands after it (rule R104). -/
theorem streamEvents_image {o : OpcTable} {tx : Transaction} (h : o.wf = true)
    (hv : validate tx = true) (after : List Byte) :
    streamEvents o (packAll o.endCmd ((imageCommands tx).map o.code) ++ after) =
      some (tx.flatMap Message.streamEvents ++ [.stop]) := by
  obtain ⟨ends, hends⟩ : ∃ ends, imageCommands tx = streamCommands tx ++ .endCmd :: ends := by
    rw [imageCommands]
    cases (streamCommands tx).length % 2 == 1 <;> exact ⟨_, rfl⟩
  have hfuel : (tx.flatMap Message.streamEvents ++ [StreamEvent.stop]).length ≤
      (unpackAll (packAll o.endCmd ((imageCommands tx).map o.code) ++ after)).length := by
    have hle := length_le_length_flatMap (f := eventCommands)
      (l := tx.flatMap Message.streamEvents ++ [.stop]) fun e _ => by
        obtain ⟨c, tail, hhead, -⟩ := eventCommands_head e
        simp [hhead]
    rw [← streamCommands_eq_events hv] at hle
    refine hle.trans ?_
    rw [unpackAll_append, unpackAll_image, hends]
    simp only [List.map_append, List.length_append, List.length_map]
    omega
  rw [streamEvents]
  generalize (unpackAll _).length = fuel at hfuel ⊢
  rw [unpackAll_append, unpackAll_image, namedCommands_append h, hends,
    streamCommands_eq_events hv, List.append_assoc, List.cons_append]
  exact readEvents_eventCommands _ _ hfuel

/-- Settles O4: the scan of the actions, and the events read up to the first `End`. -/
theorem streamParsesBack : Obligations.StreamParsesBack := by
  intro o tx h hv
  refine ⟨scanStream_image h hv, fun after => (streamEvents_image h hv after).trans ?_⟩
  congr 2
  refine congrArg (List.flatMap · tx) (funext fun m => ?_)
  cases m <;> rfl

end Sys2Proof.Machine
end

section
/-! PROOFS. The Sequence Buffer Writer: what an emission leaves in the command buffer (rules R97, R171 to
R175), and the encoding of a transaction (rules R193, R195, R196). -/

namespace Sys2Proof.Machine

variable {s t u : State}

/-! ### One command (rules R171, R172) -/

theorem Session.latchFull_iff {q : Session} : q.latchFull = true ↔ q.ncmd % 2 = 1 := by
  simp [Session.latchFull]

/-- A command-buffer byte reads the same where its window and the parameters are the same. -/
theorem State.cbRead_congr {i : Nat} (hdev : t.dev = s.dev)
    (h : t.readByte .command (s.dev.cbWinBase + i) = s.readByte .command (s.dev.cbWinBase + i)) :
    t.cbRead i = s.cbRead i := by
  rw [State.cbRead, State.cbRead, hdev, h]

/-- A position of the stream before a cursor below which no byte has changed holds what it held. -/
theorem streamNibble_congr {q r : Session} {k : Nat} (hdev : t.dev = s.dev)
    (hq : k / 2 < q.ncmd / 2) (hr : k / 2 < r.ncmd / 2)
    (h : ∀ a, a < s.dev.cbWinBase + s.cursor q → t.readByte .command a = s.readByte .command a) :
    t.streamNibble r k = s.streamNibble q k := by
  have hbyte : t.cbRead (s.dev.txBase + k / 2) = s.cbRead (s.dev.txBase + k / 2) :=
    State.cbRead_congr hdev (h _ (by simp only [State.cursor]; omega))
  simp only [State.streamNibble, hdev, hbyte, hq, hr, if_true]

theorem emitted_nil {q : Session} (hq : s.session = some q) : Emitted [] s q s :=
  ⟨q, hq, rfl, by rw [← hq], fun _ _ => rfl, nofun, fun _ _ => rfl⟩

/-- Emissions one after the other are one emission of all their commands. -/
theorem Emitted.trans {cs ds : List Command} {q r : Session} (h₁ : Emitted cs s q u)
    (hr : u.session = some r) (h₂ : Emitted ds u r t) : Emitted (cs ++ ds) s q t := by
  obtain ⟨r', hr', hn₁, hu, hold₁, hnew₁, hframe₁⟩ := h₁
  obtain rfl : r = r' := by simpa [hr] using hr'
  obtain ⟨q', hq', hn₂, ht, hold₂, hnew₂, hframe₂⟩ := h₂
  have hdev : u.dev = s.dev := by rw [hu]
  refine ⟨q', hq', by rw [hn₂, hn₁, List.length_append]; omega, by rw [ht, hu], fun k hk => ?_,
    fun k c hc => ?_, fun a ha => ?_⟩
  · rw [hold₂ k (by omega), hold₁ k hk]
  · by_cases hk : k < cs.length
    · rw [List.getElem?_append_left hk] at hc
      rw [hold₂ _ (by omega), hnew₁ k c hc]
    · rw [List.getElem?_append_right (by omega)] at hc
      have hpos : q.ncmd + k = r.ncmd + (k - cs.length) := by omega
      rw [hpos, hnew₂ _ c hc, hdev]
  · have hcursor : ∀ p, u.cursor p = s.cursor p := State.cursor_congr hdev
    simp only [hdev, hcursor] at hframe₂
    have hle₁ : s.cursor q ≤ s.cursor r := by simp only [State.cursor]; omega
    have hle₂ : s.cursor r ≤ s.cursor q' := by simp only [State.cursor]; omega
    rw [hframe₂ a (by omega), hframe₁ a (by omega)]

/-- The position behind the last committed byte is in the latch. -/
theorem streamNibble_latch {q : Session} {k : Nat} (h : q.ncmd / 2 ≤ k / 2) :
    s.streamNibble q k = q.latch :=
  if_neg (Nat.not_lt.2 h)

/-- A position in a committed byte is that byte's low or high nibble. -/
theorem streamNibble_committed {q : Session} {k : Nat} {lo hi : Nibble} (h : k / 2 < q.ncmd / 2)
    (hbyte : s.cbRead (s.dev.txBase + k / 2) = pack lo hi) :
    s.streamNibble q k = if k % 2 = 0 then lo else hi := by
  simp [State.streamNibble, h, hbyte]

/-- A buffered command: the count and the latch alone change. -/
theorem emitted_buffered {q : Session} (c : Command) (heven : q.ncmd % 2 = 0) :
    Emitted [c] s q
      { s with session := some { ncmd := q.ncmd + 1, latch := s.dev.opc.code c } } := by
  refine ⟨_, rfl, rfl, rfl, fun k hk => ?_, fun k d hd => ?_, fun a _ => rfl⟩
  · exact streamNibble_congr rfl (by omega) (by simp only; omega) fun _ _ => rfl
  · obtain ⟨rfl, rfl⟩ : k = 0 ∧ c = d := by simpa [List.getElem?_singleton] using hd
    exact streamNibble_latch (by simp only; omega)

/-- A committed byte: the latched command low, the new one high, and no other byte changed. -/
theorem emitted_committed {q : Session} {c : Command} (hodd : q.ncmd % 2 = 1)
    (ht : t = { s with
      session := some { q with ncmd := q.ncmd + 1 }, commandWin := t.commandWin })
    (hbyte : t.cbRead (s.cursor q) = pack q.latch (s.dev.opc.code c))
    (hother : ∀ a, a ≠ s.dev.cbWinBase + s.cursor q →
      t.readByte .command a = s.readByte .command a) : Emitted [c] s q t := by
  have hdev : t.dev = s.dev := by rw [ht]
  have hlast : ∀ k, k / 2 = q.ncmd / 2 → t.streamNibble { q with ncmd := q.ncmd + 1 } k =
      if k % 2 = 0 then q.latch else s.dev.opc.code c := fun k hk =>
    streamNibble_committed (by simp only; omega) (by rw [hk, hdev]; exact hbyte)
  refine ⟨_, by rw [ht], rfl, ht, fun k hk => ?_, fun k d hd => ?_, fun a ha => hother a ?_⟩
  · by_cases hcommitted : k / 2 < q.ncmd / 2
    · exact streamNibble_congr hdev hcommitted (by simp only; omega) fun a ha => hother a (by omega)
    · rw [streamNibble_latch (s := s) (by omega), hlast k (by omega), if_pos (by omega)]
  · obtain ⟨rfl, rfl⟩ : k = 0 ∧ c = d := by simpa [List.getElem?_singleton] using hd
    rw [hlast (q.ncmd + 0) rfl, if_neg (by omega)]
  · simp only [State.cursor] at ha ⊢
    omega

/-- With room for it a command is emitted: into the latch, or with the latched one into a byte. -/
theorem emit_emitted {q : Session} {c : Command} (h : s.canEmit q 1) :
    ∃ t, emit c s = .next t ∧ Emitted [c] s q t := by
  obtain ⟨hq, hidle, hroom⟩ := h
  rcases Nat.mod_two_eq_zero_or_one q.ncmd with heven | hodd
  · have hl : q.latchFull = false := by simp [Session.latchFull, heven]
    exact ⟨_, emit_empty hq hl c, emitted_buffered c heven⟩
  · have hcursor : s.cursor q < s.dev.cbCapacity := by simp only [State.cursor]; omega
    have hother : ∀ a, a ≠ s.dev.cbWinBase + s.cursor q →
        (s.writeByte .command (s.dev.cbWinBase + s.cursor q)
          (pack q.latch (s.dev.opc.code c))).readByte .command a = s.readByte .command a :=
      fun a ha => s.readByte_writeByte_other _ (.inr ha)
    exact ⟨_, emit_eq_next.2 ⟨q, hq, .inr ⟨Session.latchFull_iff.2 hodd, hcursor, hidle, rfl⟩⟩,
      emitted_committed hodd rfl (s.cbRead_writeByte_same _ _) hother⟩

/-- With room for them commands are emitted (rules R29, R78). -/
theorem emitAll_emitted {cs : List Command} {q : Session} (h : s.canEmit q cs.length) :
    ∃ t, emitAll cs s = .next t ∧ Emitted cs s q t := by
  induction cs generalizing s q with
  | nil => exact ⟨s, rfl, emitted_nil h.1⟩
  | cons c cs ih =>
    obtain ⟨hq, hidle, hroom⟩ := h
    rw [List.length_cons] at hroom
    obtain ⟨u, hu, hemitted⟩ := emit_emitted (c := c) (s := s) (q := q) ⟨hq, hidle, by omega⟩
    have ⟨r, hr, hn, hframe, _⟩ := hemitted
    have hroom' : u.canEmit r cs.length := by
      refine ⟨hr, by rw [hframe]; exact hidle, ?_⟩
      have hdev : u.dev = s.dev := by rw [hframe]
      rw [hdev, hn, List.length_singleton]
      omega
    obtain ⟨t, ht, hrest⟩ := ih hroom'
    exact ⟨t, by rw [emitAll_cons, hu, andThen_next, ht], hemitted.trans hr hrest⟩

/-! ### The whole of a session (rules R97, R173, R175) -/

/-- What `flush_partial` adds to a stream of `n` commands (rule R173). -/
def padding (n : Nat) : List Command := if n % 2 = 1 then [.endCmd] else []

theorem append_padding_length (cs : List Command) :
    (cs ++ padding cs.length).length = 2 * ((cs.length + 1) / 2) := by
  rw [List.length_append, padding]
  split
  · rw [List.length_singleton]
    omega
  · rw [List.length_nil]
    omega

/-- The padding of `flush_partial` is one more emission when the count is odd (rule R173). -/
theorem emitAll_flushPartial {cs : List Command} {q : Session} (hq : s.session = some q) :
    andThen (emitAll cs s) flushPartial =
      emitAll (cs ++ padding (q.ncmd + cs.length)) s := by
  rw [emitAll_append]
  cases ht : emitAll cs s with
  | fault r => rfl
  | refused r => rfl
  | next t =>
    obtain ⟨⟨r, hr, hn⟩, -⟩ := emitAll_frame ht hq
    have hl := Session.latchFull_iff (q := r)
    rw [hn] at hl
    simp only [andThen_next, flushPartial, hr, hl, padding]
    split
    · rw [emitAll_cons]
      cases emit .endCmd t <;> rfl
    · rfl

/-- The nibbles of the bytes at successive places, one by one. -/
theorem unpackAll_range (f : Nat → Byte) (n : Nat) :
    unpackAll ((List.range n).map f) = (List.range (2 * n)).map fun k =>
      if k % 2 = 0 then lowNibble (f (k / 2)) else highNibble (f (k / 2)) := by
  induction n with
  | zero => rfl
  | succ n ih =>
    have heven : 2 * n % 2 = 0 := by omega
    have hodd : (2 * n + 1) % 2 = 1 := by omega
    have hhalf : (2 * n + 1) / 2 = n := by omega
    rw [List.range_succ, List.map_append, unpackAll_append, ih, Nat.mul_succ, List.range_succ,
      List.range_succ]
    simp [unpackAll, heven, hodd, hhalf]

/-- Emitted from the start, an even number of commands stands in the bytes from `TX_BASE` on. -/
theorem Emitted.unpackAll_eq {cs : List Command} {q : Session} {n : Nat} (h : Emitted cs s q t)
    (hq : q.ncmd = 0) (hn : cs.length = 2 * n) :
    unpackAll ((List.range n).map fun j => t.cbRead (s.dev.txBase + j)) = cs.map s.dev.opc.code := by
  obtain ⟨r, -, hr, hframe, -, hnew, -⟩ := h
  have hdev : t.dev = s.dev := by rw [hframe]
  rw [unpackAll_range]
  refine List.ext_getElem (by simp [hn]) fun k hk hk' => ?_
  have hlt : k < cs.length := by simpa using hk'
  have hbyte : k / 2 < r.ncmd / 2 := by omega
  have hstream := hnew k cs[k] (List.getElem?_eq_getElem hlt)
  rw [hq, Nat.zero_add, State.streamNibble, if_pos hbyte, hdev] at hstream
  simpa using hstream

/-- The bytes that change lie from `TX_BASE` up to the end of the even number of commands. -/
theorem Emitted.readByte_outside {cs : List Command} {q : Session} {n a : Nat} (h : Emitted cs s q t)
    (hq : q.ncmd = 0) (hn : cs.length = 2 * n)
    (ha : a < s.dev.cbWinBase + s.dev.txBase ∨ s.dev.cbWinBase + (s.dev.txBase + n) ≤ a) :
    t.readByte .command a = s.readByte .command a := by
  obtain ⟨r, -, hr, -, -, -, houtside⟩ := h
  refine houtside a ?_
  simp only [State.cursor]
  omega

/-- Settles O22: the padded list is emitted, and its even number of commands unpacked. -/
theorem nibblePackingRoundTrip : Obligations.NibblePackingRoundTrip := by
  intro s cs hidle hroom
  have hstart : freshSession.ncmd = 0 := rfl
  have hflush := emitAll_flushPartial (cs := cs) (resetCursor_session s)
  rw [hstart, Nat.zero_add] at hflush
  have hlength := append_padding_length cs
  obtain ⟨t, ht, hemitted⟩ := emitAll_emitted (s := resetCursor s) (q := freshSession)
    (cs := cs ++ padding cs.length)
    ⟨rfl, hidle, by rw [hlength, hstart, resetCursor_dev]; omega⟩
  refine ⟨t, hflush.trans ht, hemitted.unpackAll_eq hstart hlength, ?_,
    fun a => hemitted.readByte_outside hstart hlength⟩
  rw [emitAll_changes ht]
  rfl

/-! ### The encoding of a transaction (rules R193, R195, R196, R220) -/

/-- The actions of the encoder that the sequencer has still to carry out before the pre-trigger wait, by
its place in `execute` of `tx`. -/
def State.pendingActions (s : State) (tx : Transaction) : List Instr :=
  match s.phase with
  | .encoding i =>
    ((tx.drop i).flatMap Message.actions).drop s.actionPos ++ [.stop, .terminate]
  | .stopping => [.stop, .terminate]
  | .terminating => [.terminate]
  | _ => []

/-- A list of actions carried out one after the other. -/
def execAll : List Instr → State → Out
  | [], s => .next s
  | i :: is, s => andThen (exec i s) (execAll is)

/-- The sequencer stands at an action of the encoder, within the message in hand when it encodes. -/
def State.atAction (s : State) (tx : Transaction) : Prop :=
  match s.phase with
  | .encoding i => ∃ m, tx[i]? = some m ∧ s.actionPos < m.actions.length
  | .stopping => True
  | .terminating => True
  | _ => False

/-- Within a message: its actions from the place on, then those of the later messages. -/
theorem pendingActions_encoding {tx : Transaction} {i : Nat} (hp : s.phase = .encoding i)
    (hi : i < tx.length) (hpos : s.actionPos ≤ tx[i].actions.length) :
    s.pendingActions tx = tx[i].actions.drop s.actionPos ++
      ((tx.drop (i + 1)).flatMap Message.actions ++ [.stop, .terminate]) := by
  rw [State.pendingActions]
  simp only [hp]
  rw [List.drop_eq_getElem_cons hi, List.flatMap_cons, List.drop_append_of_le_length hpos,
    List.append_assoc]

/-- In a message the next action is the one at the place, and the sequencer moves on to the message's
next action, to the next message, or to the Stop. -/
theorem nextAction_encoding {c : Call} {i : Nat} (hc : s.call = some c)
    (hp : s.phase = .encoding i) (hi : i < c.tx.length)
    (hpos : s.actionPos < c.tx[i].actions.length) :
    s.nextAction = some c.tx[i].actions[s.actionPos] ∧
      (advance s).pendingActions c.tx = c.tx[i].actions.drop (s.actionPos + 1) ++
        ((c.tx.drop (i + 1)).flatMap Message.actions ++ [.stop, .terminate]) ∧
      (advance s).atAction c.tx := by
  have hmsg : ∀ j, s.message j = c.tx[j]? := fun j => by simp [State.message, hc]
  refine ⟨by simp [State.nextAction, hp, hmsg, hi, hpos], ?_⟩
  by_cases hmore : s.actionPos + 1 < c.tx[i].actions.length
  · have hadv : advance s = { s with actionPos := s.actionPos + 1 } := by
      simp [advance, hp, hmsg, hi, hmore]
    rw [hadv]
    refine ⟨pendingActions_encoding (s := { s with actionPos := s.actionPos + 1 }) hp hi hmore.le,
      ?_⟩
    simp only [State.atAction, hp]
    exact ⟨_, List.getElem?_eq_getElem hi, hmore⟩
  · rw [List.drop_eq_nil_of_le (Nat.not_lt.1 hmore), List.nil_append]
    by_cases hnext : i + 1 < c.tx.length
    · have hadv : advance s = { s with phase := .encoding (i + 1), actionPos := 0 } := by
        simp [advance, hp, hmsg, hi, hmore, hnext]
      rw [hadv]
      exact ⟨rfl, _, List.getElem?_eq_getElem hnext, Message.actions_length_pos _⟩
    · have hadv : advance s = { s with phase := .stopping, actionPos := 0 } := by
        simp [advance, hp, hmsg, hi, hmore, hnext]
      rw [hadv, List.drop_eq_nil_of_le (Nat.not_lt.1 hnext)]
      exact ⟨rfl, trivial⟩

/-- At an action, the next one is the first of those pending; behind it stand the others, up to the
pre-trigger wait. -/
theorem nextAction_eq_head {c : Call} (hc : s.call = some c) (h : s.atAction c.tx) :
    ∃ i, s.nextAction = some i ∧
      s.pendingActions c.tx = i :: (advance s).pendingActions c.tx ∧
      ((advance s).atAction c.tx ∨ (advance s).phase = .preWait 0) := by
  cases hp : s.phase <;> simp only [State.atAction, hp] at h
  case encoding i =>
    obtain ⟨m, hm, hpos⟩ := h
    obtain ⟨hi, rfl⟩ := List.getElem?_eq_some_iff.1 hm
    obtain ⟨hnext, hrest, hat⟩ := nextAction_encoding hc hp hi hpos
    refine ⟨_, hnext, ?_, .inl hat⟩
    rw [hrest, pendingActions_encoding hp hi hpos.le, List.drop_eq_getElem_cons hpos,
      List.cons_append]
  case stopping =>
    exact ⟨.stop, by simp [State.nextAction, hp], by simp [State.pendingActions, advance, hp],
      .inl (by simp [State.atAction, advance, hp])⟩
  case terminating =>
    exact ⟨.terminate, by simp [State.nextAction, hp], by simp [State.pendingActions, advance, hp],
      .inr (by simp [advance, hp])⟩

/-- At an action the sequencer carries it out and moves on. -/
theorem sequencerStep_atAction {tx : Transaction} (h : s.atAction tx) :
    sequencerStep s = actionStep s := by
  cases hp : s.phase <;> simp only [State.atAction, hp] at h <;> simp [sequencerStep, hp]

/-- The state with the sequencer at another place of `execute`. -/
def State.atPlace (s : State) (ph : Phase) (pos : Nat) : State :=
  { s with phase := ph, actionPos := pos }

/-- Where the sequencer moves on to rests on its place and the call, not on what has been emitted. -/
theorem advance_eq_atPlace (hp : t.phase = s.phase) (hc : t.call = s.call)
    (ha : t.actionPos = s.actionPos) :
    advance t = t.atPlace (advance s).phase (advance s).actionPos := by
  have hmsg : ∀ j, t.message j = s.message j := fun j => by simp [State.message, hc]
  cases hs : s.phase <;> rw [hs] at hp <;> simp only [advance, hp, hs, ha, hmsg]
  case encoding i =>
    cases s.message i with
    | none => simp [State.atPlace, ← hp, ← ha, hs]
    | some m =>
      by_cases hmore : s.actionPos + 1 < m.actions.length
      · simp [State.atPlace, hmore, ← hp]
      · cases hn : s.message (i + 1) <;> simp [State.atPlace, hmore]
  all_goals simp [State.atPlace, ← hp, ← ha]

/-- An emission does not depend on the place in `execute`. -/
theorem emit_atPlace {c : Command} (h : emit c s = .next t) (ph : Phase) (pos : Nat) :
    emit c (s.atPlace ph pos) = .next (t.atPlace ph pos) := by
  obtain ⟨q, hq, ⟨hl, rfl⟩ | ⟨hl, hroom, hidle, rfl⟩⟩ := emit_eq_next.1 h
  · exact emit_eq_next.2 ⟨q, hq, .inl ⟨hl, rfl⟩⟩
  · exact emit_eq_next.2 ⟨q, hq, .inr ⟨hl, hroom, hidle, rfl⟩⟩

theorem emitAll_atPlace {cs : List Command} (h : emitAll cs s = .next t) (ph : Phase) (pos : Nat) :
    emitAll cs (s.atPlace ph pos) = .next (t.atPlace ph pos) := by
  induction cs generalizing s with
  | nil =>
    injection h with h
    rw [h]
    rfl
  | cons c cs ih =>
    obtain ⟨u, hu, h⟩ := andThen_eq_next.1 h
    rw [emitAll_cons, emit_atPlace hu, andThen_next, ih h]

theorem exec_atPlace {i : Instr} (hi : i.layer = .encoder) (h : exec i s = .next t) (ph : Phase)
    (pos : Nat) : exec i (s.atPlace ph pos) = .next (t.atPlace ph pos) := by
  cases i <;> simp only [Instr.layer, reduceCtorEq] at hi
  case terminate =>
    cases hq : s.session with
    | none => simp [exec, execTerminate, hq] at h
    | some q =>
      rw [exec, execTerminate_eq hq] at h
      exact (execTerminate_eq (s := s.atPlace ph pos) hq).trans (emitAll_atPlace h ph pos)
  all_goals exact emitAll_atPlace h ph pos

theorem execAll_atPlace {is : List Instr} (his : ∀ i ∈ is, i.layer = .encoder)
    (h : execAll is s = .next t) (ph : Phase) (pos : Nat) :
    execAll is (s.atPlace ph pos) = .next (t.atPlace ph pos) := by
  induction is generalizing s with
  | nil =>
    injection h with h
    rw [h]
    rfl
  | cons i is ih =>
    obtain ⟨u, hu, h⟩ := andThen_eq_next.1 h
    rw [execAll, exec_atPlace (his i (by simp)) hu, andThen_next,
      ih (fun j hj => his j (by simp [hj])) h]

/-- At an action that goes on the sequencer keeps what it emits and moves on from its place. -/
theorem sequencerStep_of_exec {tx : Transaction} {i : Instr} (hat : s.atAction tx)
    (hnext : s.nextAction = some i) (hu : exec i s = .next u) :
    sequencerStep s = .next (u.atPlace (advance s).phase (advance s).actionPos) ∧
      u.call = s.call := by
  obtain ⟨cs, hcs⟩ := exec_encoder_emits (nextAction_layer hnext) hu
  have hframe := emitAll_changes hcs
  have hcall : u.call = s.call := by rw [hframe]
  have hadv : advance u = u.atPlace (advance s).phase (advance s).actionPos :=
    advance_eq_atPlace (by rw [hframe]) hcall (by rw [hframe])
  rw [sequencerStep_atAction hat, actionStep, hnext, ← hadv]
  refine ⟨?_, hcall⟩
  simp only [hu, andThen_next]

/-- The sequencer comes to the pre-trigger wait by carrying out the pending actions, one a step. -/
theorem sequencerRun_pendingActions {c : Call} {is : List Instr} (hc : s.call = some c)
    (hat : s.atAction c.tx ∨ s.phase = .preWait 0) (his : s.pendingActions c.tx = is)
    (hlayer : ∀ i ∈ is, i.layer = .encoder) (h : execAll is s = .next t) :
    ∃ pos, sequencerRun is.length s = .next (t.atPlace (.preWait 0) pos) := by
  induction is generalizing s t with
  | nil =>
    rcases hat with hat | hp
    · obtain ⟨i, -, hhead, -⟩ := nextAction_eq_head hc hat
      rw [his] at hhead
      cases hhead
    · injection h with h
      refine ⟨s.actionPos, ?_⟩
      rw [← h, ← hp]
      rfl
  | cons i is ih =>
    rcases hat with hat | hp
    · obtain ⟨j, hnext, hhead, hafter⟩ := nextAction_eq_head hc hat
      rw [his] at hhead
      obtain ⟨rfl, hrest⟩ := List.cons.inj hhead
      obtain ⟨u, hu, h⟩ := andThen_eq_next.1 h
      obtain ⟨hstep, hcall⟩ := sequencerStep_of_exec hat hnext hu
      have htail : ∀ j ∈ is, j.layer = .encoder := fun j hj => hlayer j (by simp [hj])
      obtain ⟨pos, hrun⟩ := ih (s := u.atPlace (advance s).phase (advance s).actionPos)
        (hcall.trans hc) hafter hrest.symm htail (execAll_atPlace htail h _ _)
      refine ⟨pos, ?_⟩
      rw [List.length_cons, sequencerRun, hstep, andThen_next, hrun]
      rfl
    · simp [State.pendingActions, hp] at his

/-! ### The stream of a transaction (rules R103, R203) -/

theorem byteWriteCommands_length (b : Byte) : (byteWriteCommands b).length = 9 := rfl

theorem startCommands_length : startCommands.length = 4 := rfl

theorem stopCommands_length : stopCommands.length = 3 := rfl

theorem Message.commands_length (m : Message) : m.commands.length = 13 + 9 * m.length := by
  cases m with
  | write a p =>
    simp only [Message.commands, Message.length, List.length_append, List.length_flatMap,
      startCommands_length, byteWriteCommands_length, List.map_const', List.sum_replicate,
      smul_eq_mul]
    omega
  | read a r =>
    simp only [Message.commands, Message.length, List.length_append, startCommands_length,
      byteWriteCommands_length, Laws.byteReadCommands_length]
    omega

/-- The closed form of rule R203 counts the commands before the termination. -/
theorem streamCommands_length (tx : Transaction) : (streamCommands tx).length = commandCount tx := by
  simp only [streamCommands, commandCount, List.length_append, List.length_flatMap,
    Message.commands_length, stopCommands_length]
  omega

/-- Carrying out an action before the termination is the emission of its commands. -/
theorem BodyAction.exec_eq {i : Instr} (hi : BodyAction i) (s : State) :
    exec i s = emitAll (actionCommands false i) s := by
  have hlayer := hi.encoder
  cases i <;> simp only [Instr.layer, reduceCtorEq] at hlayer
  case terminate => exact absurd rfl hi.notTerminate
  all_goals rfl

theorem andThen_execAll_nil (o : Out) : andThen o (execAll []) = o := by
  cases o <;> rfl

/-- The actions of a stream up to its termination emit its commands; the termination then emits what the
parity behind them calls for (rules R103, R221). -/
theorem execAll_stream {is : List Instr} (his : ∀ i ∈ is, BodyAction i) {q : Session}
    (hq : s.session = some q) :
    execAll (is ++ [.terminate]) s =
      emitAll (is.flatMap (actionCommands false) ++ terminateCommands
        ((q.ncmd + (is.flatMap (actionCommands false)).length) % 2 == 1)) s := by
  induction is generalizing s q with
  | nil =>
    rw [List.nil_append, execAll, andThen_execAll_nil, exec, execTerminate_eq hq]
    rfl
  | cons i is ih =>
    rw [List.flatMap_cons, List.append_assoc, emitAll_append, List.cons_append, execAll,
      (his i (by simp)).exec_eq]
    cases hu : emitAll (actionCommands false i) s with
    | fault r => rfl
    | refused r => rfl
    | next u =>
      obtain ⟨⟨r, hr, hn⟩, -⟩ := emitAll_frame hu hq
      rw [andThen_next, andThen_next, ih (fun j hj => his j (by simp [hj])) hr, hn, Nat.add_assoc,
        List.length_append]

/-- A stream with its termination needs one byte more than its commands (rule R203). -/
theorem streamImage_length (n : Nat) :
    (n + (terminateCommands (n % 2 == 1)).length) / 2 = (n + 1) / 2 + 1 := by
  rw [terminateCommands_length]
  simp only [beq_iff_eq]
  split <;> omega

/-- Settles O49: the pending actions are those of the stream, whose emission fits. -/
theorem encodingWritesStream : Obligations.EncodingWritesStream := by
  intro s q c hp hpos hq hn hc hv hroom hidle
  have hbody : ∀ i ∈ bodyActions c.tx, BodyAction i := fun i hi => bodyAction_of_mem hv hi
  have hpending : s.pendingActions c.tx = bodyActions c.tx ++ [.terminate] := by
    rw [← streamActions_eq]
    simp [State.pendingActions, hp, hpos, streamActions]
  have hat : s.atAction c.tx := by
    simp only [State.atAction, hp, hpos]
    exact ⟨_, List.getElem?_eq_getElem (validate_length_pos hv), Message.actions_length_pos _⟩
  have hlayer : ∀ i ∈ bodyActions c.tx ++ [.terminate], i.layer = .encoder := by
    simp only [List.mem_append, List.mem_singleton]
    rintro i (hi | rfl)
    · exact (hbody i hi).encoder
    · rfl
  have hexec := execAll_stream hbody hq
  rw [← streamCommands_eq, hn, Nat.zero_add, streamCommands_length] at hexec
  obtain ⟨t, ht, hemitted⟩ := emitAll_emitted (s := s) (q := q)
    (cs := streamCommands c.tx ++ terminateCommands (commandCount c.tx % 2 == 1))
    ⟨hq, hidle, by
      rw [hn, Nat.zero_add, List.length_append, streamCommands_length, streamImage_length]
      omega⟩
  obtain ⟨pos, hrun⟩ :=
    sequencerRun_pendingActions hc (.inl hat) hpending hlayer (hexec.trans ht)
  refine ⟨_, _, hrun, rfl, ?_⟩
  have hback : t.atPlace s.phase s.actionPos = t := by
    rw [emitAll_changes ht]
    rfl
  exact hback.symm ▸ hemitted

end Sys2Proof.Machine
end

section
/-! PROOFS. The primitive commands on the engine, and what one step of the machine is: the statements of
file 40_primitives.md. -/

namespace Sys2Proof.Machine

variable {s t u : State}

/-! ### The lines (rule R134) -/

/-- The data line falling is a START exactly from high, with the clock high. -/
theorem State.edge_false (s : State) :
    s.edge false = if s.scl = true ∧ s.sdam = true then [.start] else [] := by
  cases hc : s.scl <;> cases hd : s.sdam <;> simp [State.edge, hc, hd]

/-- The data line rising is a STOP exactly from low, with the clock high. -/
theorem State.edge_true (s : State) :
    s.edge true = if s.scl = true ∧ s.sdam = false then [.stop] else [] := by
  cases hc : s.scl <;> cases hd : s.sdam <;> simp [State.edge, hc, hd]

theorem State.setSda_false_eq (s : State) :
    s.setSda false = { s with
      sdam := false
      wire := s.wire ++ if s.scl = true ∧ s.sdam = true then [.start] else [] } := by
  rw [State.setSda, s.edge_false]

theorem State.setSda_true_eq (s : State) :
    s.setSda true = { s with
      sdam := true
      wire := s.wire ++ if s.scl = true ∧ s.sdam = false then [.stop] else [] } := by
  rw [State.setSda, s.edge_true]

/-- Setting the clock to the level it has changes nothing. -/
theorem State.setScl_of_scl {v : Level} (h : s.scl = v) : s.setScl v = s := by
  subst h
  rfl

/-- Releasing the released data line changes nothing: it is no edge. -/
theorem State.setSda_true_of_released (h : s.sdam = true) : s.setSda true = s := by
  have hedge : s.edge true = [] := by simp [s.edge_true, h]
  rw [State.setSda, hedge, List.append_nil, ← h]

/-! ### A sample with the data line released (rules R131, R132, R135) -/

/-- A sample uses up the slave's answer, or a draw, and changes nothing else. -/
theorem State.afterSample_eq (s : State) :
    s.afterSample = { s with slave := s.slave.tail, draws := s.afterSample.draws } := by
  unfold State.afterSample
  split <;> rename_i hslave <;> simp [hslave]

/-- The state after a sample with the data line released, its event `e` recorded, the clock still high. -/
def State.releasedSample (s : State) (e : BusEvent) : State :=
  { s with
    scl := true, sdam := true
    wire := s.wire ++ (if s.scl = true ∧ s.sdam = false then [.stop] else []) ++ [e]
    slave := s.slave.tail
    draws := ((s.setSda true).setScl true).afterSample.draws }

theorem State.releasedSample_eq (s : State) (e : BusEvent) :
    ((s.setSda true).setScl true).afterSample.record e = s.releasedSample e := by
  rw [State.afterSample_eq, State.releasedSample, s.setSda_true_eq]
  rfl

/-- A byte write changes the two windows only. -/
theorem State.writeByte_eq (s : State) (w : Window) (a : Nat) (v : Byte) :
    s.writeByte w a v = { s with
      commandWin := (s.writeByte w a v).commandWin
      controlWin := (s.writeByte w a v).controlWin } := by
  cases w <;> rfl

/-- A readback byte that the playback has committed reads as the byte stored there (rule R37). -/
theorem State.rbRead_of_readByte {i : Nat} {v : Byte} (hi : i < s.rptr)
    (h : s.readByte s.dev.rbWindow (s.dev.rbBase + i) = some v) : s.rbRead i = v := by
  rw [State.rbRead, if_pos hi, h, Option.getD_some]

/-- The bits that a failed sample sets are a non-empty subset of the two (rule R132). -/
theorem ackSubsetBits_mem (e : AckSubset) : ackSubsetBits e ∈ [0b01#2, 0b10#2, 0b11#2] := by
  cases e <;> decide

/-! ### The commands (rules R121 to R133) -/

/-- The engine's step is the execution of what it has fetched, past the fetch (rule R120). -/
theorem engineStep_of_decoded {i : Instr} (h : decodeNibble s.dev.opc s.fetchNibble = some i) :
    engineStep s = exec i s.pastFetch := by
  rw [engineStep, h]

/-- Settles O12: the sampled bit is collected in the state of the released sample, in the three ways a bit
can be collected. -/
theorem dataHighReadCollectsBit : Obligations.DataHighReadCollectsBit := by
  intro s
  have hexec : exec .dataHighRead s = execDataHighRead s := rfl
  rw [hexec, execDataHighRead_eq, s.releasedSample_eq]
  refine ⟨fun hbit => ?_, fun hbit hroom => ?_, fun hbit hfull => ?_⟩
  · rw [collectBit_partial (s := s.releasedSample _) hbit]
    exact ⟨_, rfl, rfl⟩
  · rw [collectBit_commit (s := s.releasedSample _) hbit hroom, State.writeByte_eq]
    refine ⟨_, rfl, rfl, State.rbRead_of_readByte (Nat.lt_succ_self _) ?_, fun w a hne => ?_⟩
    · exact (State.readByte_congr rfl rfl _ _).trans (State.readByte_writeByte_same _ _ _ _)
    · exact (State.readByte_congr rfl rfl _ _).trans (State.readByte_writeByte_other _ _ hne)
  · rw [collectBit_full (s := s.releasedSample _) hbit hfull, andThen_refused]
    rfl

/-- Settles O13: the released sample, and what each sampled level adds to the acknowledgement bits. -/
theorem dataHighAck0SamplesAck : Obligations.DataHighAck0SamplesAck := by
  intro s
  have hexec : exec .dataHighAck0 s = execDataHighAck0 s := rfl
  rw [hexec, execDataHighAck0_eq, s.releasedSample_eq]
  let failure := Config.ackFailure (s.releasedSample (.acks s.slaveDrive)).draws
  refine ⟨_, rfl, rfl, fun hack => ?_, fun hack => ⟨_, ackSubsetBits_mem failure, ?_⟩⟩ <;>
    rw [State.setScl_ackf, State.noteAck_ackf, hack] <;> rfl

/-- Settles O8: with `busy` cleared the engine is not enabled, wherever `fp` stands. -/
theorem endStopsPlayback : Obligations.EndStopsPlayback := fun _ =>
  ⟨rfl, rfl, engineStep_of_decoded⟩

/-- Settles O9: each command is one write of the clock line. -/
theorem clockCommandsSetClock : Obligations.ClockCommandsSetClock := fun _ =>
  ⟨rfl, fun h => congrArg _ (State.setScl_of_scl h), rfl, fun h => congrArg _ (State.setScl_of_scl h)⟩

/-- Settles O10: each command is one write of the data line. -/
theorem dataCommandsDriveData : Obligations.DataCommandsDriveData := fun s =>
  ⟨congrArg _ s.setSda_false_eq, congrArg _ s.setSda_true_eq,
    fun h => congrArg _ (State.setSda_true_of_released h)⟩

/-- Settles O11: the write of the data line, then the bit, between two writes of the clock line. -/
theorem noAckCommandsSendBit : Obligations.NoAckCommandsSendBit := by
  intro s
  have hlow : exec .dataLowNoAck s = execDataLowNoAck s := rfl
  have hhigh : exec .dataHighNoAck s = execDataHighNoAck s := rfl
  rw [hlow, hhigh, execDataLowNoAck_eq, execDataHighNoAck_eq, s.setSda_false_eq, s.setSda_true_eq]
  exact ⟨rfl, rfl⟩

/-- Settles O14: the four refusals of entry U2. -/
theorem nameOnlyCommandsAreRefused : Obligations.NameOnlyCommandsAreRefused := fun _ =>
  ⟨rfl, rfl, rfl, rfl⟩

/-! ### One step of the machine (rules R120, R193) -/

/-- On its turn the engine takes its step. -/
theorem step_of_engine_turn (h : s.turn = some (.engine, u)) : step s = engineStep u := by
  simp [step, turnStep, h]

/-- On its turn the sequencer takes its step. -/
theorem step_of_sequencer_turn (h : s.turn = some (.sequencer, u)) : step s = sequencerStep u := by
  simp [step, turnStep, h]

/-- In a phase that has a next action the sequencer's step is that of an action. -/
theorem sequencerStep_of_nextAction {i : Instr} (h : s.nextAction = some i) :
    sequencerStep s = andThen (exec i s) fun t => .next (advance t) := by
  have haction : sequencerStep s = actionStep s := by
    cases hp : s.phase <;> simp only [State.nextAction, hp, reduceCtorEq] at h <;>
      simp only [sequencerStep, hp]
  rw [haction, actionStep, h]

/-- Settles O37: the step of the agent whose turn it is, on what it has decoded or does next. -/
theorem stepRunsDecodedInstruction : Obligations.StepRunsDecodedInstruction := by
  refine ⟨fun s u i hturn hdecode => ?_, fun s u i hturn hnext => ?_⟩
  · obtain ⟨hchoice, henabled, -⟩ := turn_frame hturn
    exact ⟨(step_of_engine_turn hturn).trans (engineStep_of_decoded hdecode), hchoice, henabled rfl⟩
  · exact ⟨(step_of_sequencer_turn hturn).trans (sequencerStep_of_nextAction hnext),
      (turn_frame hturn).1⟩

/-! ### No step faults (log entry 16): the engine -/

/-- A sequence faults only in its first part or in its second. -/
theorem andThen_no_fault {o : Out} {f : State → Out} {r : Fault} (ho : o ≠ .fault r)
    (hf : ∀ u, o = .next u → f u ≠ .fault r) : andThen o f ≠ .fault r := by
  cases o with
  | next u => exact hf u rfl
  | fault q => exact ho
  | refused q => nofun

theorem andThen_next_no_fault {o : Out} {f : State → State} {r : Fault} (ho : o ≠ .fault r) :
    andThen o (fun u => .next (f u)) ≠ .fault r :=
  andThen_no_fault ho fun _ _ => nofun

/-- What the engine decodes from a nibble is an instruction of its own layer. -/
theorem decodeNibble_layer {o : OpcTable} {n : Nibble} {i : Instr} (h : decodeNibble o n = some i) :
    i.layer = .engine := by
  unfold decodeNibble at h
  split at h
  · rename_i c hc
    obtain rfl := Option.some.inj h
    cases c <;> rfl
  · split_ifs at h <;> obtain rfl := Option.some.inj h <;> rfl

/-- No instruction of the engine faults: all but `DataHighRead` answer at once, and a collected bit is
shifted in, committed or refused. -/
theorem exec_engine_no_fault {i : Instr} {r : Fault} (hi : i.layer = .engine) :
    exec i s ≠ .fault r := by
  cases i <;> simp only [Instr.layer, reduceCtorEq] at hi
  case dataHighRead => exact andThen_next_no_fault collectBit_no_fault
  all_goals nofun

theorem engineStep_no_fault {r : Fault} : engineStep s ≠ .fault r := by
  unfold engineStep
  split
  · nofun
  · rename_i i hi
    exact exec_engine_no_fault (decodeNibble_layer hi)

/-! ### No step faults: the sequencer -/

/-- In a session an emission does not fault. -/
theorem emitAll_no_fault {cs : List Command} {q : Session} {r : Fault} (hq : s.session = some q) :
    emitAll cs s ≠ .fault r := by
  induction cs generalizing s q with
  | nil => nofun
  | cons c cs ih =>
    refine andThen_no_fault ?_ fun u hu => ?_
    · cases hl : q.latchFull
      · rw [emit_empty hq hl]
        nofun
      · rw [emit_full hq hl]
        exact andThen_next_no_fault cbWrite_no_fault
    · obtain ⟨p, -, ⟨-, rfl⟩ | ⟨-, -, -, rfl⟩⟩ := emit_eq_next.1 hu
      · exact ih rfl
      · exact ih rfl

/-- In a session, at a place that names an action, carrying it out does not fault. -/
theorem actionStep_no_fault {i : Instr} {r : Fault} (hi : s.nextAction = some i)
    (hsession : s.session.isSome = true) : actionStep s ≠ .fault r := by
  obtain ⟨q, hq⟩ := Option.isSome_iff_exists.1 hsession
  obtain ⟨f, hf⟩ := nextAction_emits hi
  rw [actionStep, hi]
  refine andThen_next_no_fault ?_
  rw [hf s q hq]
  exact emitAll_no_fault hq

theorem acquire_no_fault {r : Fault} : acquire s ≠ .fault r := by
  unfold acquire
  split
  case h_4 => split <;> nofun
  all_goals nofun

theorem validateStep_no_fault {c : Call} {r : Fault} (hc : s.call = some c) :
    validateStep s ≠ .fault r := by
  rw [validateStep, hc]
  dsimp only
  split <;> nofun

theorem preWaitStep_no_fault {k : Nat} {r : Fault} : preWaitStep k s ≠ .fault r := by
  unfold preWaitStep
  split
  · split <;> nofun
  · nofun

theorem triggerStep_no_fault {r : Fault} : triggerStep s ≠ .fault r :=
  andThen_next_no_fault triggerWrite_no_fault

theorem postWaitStep_no_fault {k : Nat} {r : Fault} : postWaitStep k s ≠ .fault r := by
  unfold postWaitStep
  split <;> nofun

theorem decodeStep_no_fault {r : Fault} : decodeStep s ≠ .fault r := by
  unfold decodeStep
  split <;> nofun

theorem readbackStep_no_fault {i : Nat} {c : Call} {r : Fault} (hc : s.call = some c)
    (hi : i < c.tx.length) : readbackStep i s ≠ .fault r := by
  rw [readbackStep, hc]
  simp only [List.getElem?_eq_getElem hi]
  split <;> nofun

theorem doneStep_no_fault {res : Result} {c : Call} {r : Fault} (hc : s.call = some c) :
    doneStep res s ≠ .fault r := by
  rw [doneStep, hc]
  nofun

/-- The sequencer finds in each phase what that phase rests on (rules R193, R220). -/
theorem sequencerStep_no_fault {r : Fault} (h : s.phaseOk) : sequencerStep s ≠ .fault r := by
  cases hp : s.phase <;> simp only [State.phaseOk, hp] at h <;> simp only [sequencerStep, hp]
  case idle => exact acquire_no_fault
  case validating =>
    obtain ⟨⟨c, hc, -⟩, -⟩ := h
    exact validateStep_no_fault hc
  case encoding i =>
    obtain ⟨⟨c, hc, -, -, m, hm, hpos⟩, hsession⟩ := h
    refine actionStep_no_fault (i := m.actions[s.actionPos]) ?_ hsession
    simp [State.nextAction, hp, State.message, hc, hm]
  case stopping => exact actionStep_no_fault (i := .stop) (by simp [State.nextAction, hp]) h.2
  case terminating => exact actionStep_no_fault (i := .terminate) (by simp [State.nextAction, hp]) h.2
  case preWait => exact preWaitStep_no_fault
  case triggering => exact triggerStep_no_fault
  case postWait => exact postWaitStep_no_fault
  case decoding => exact decodeStep_no_fault
  case readback =>
    obtain ⟨⟨c, hc, -, -, hi⟩, -⟩ := h
    exact readbackStep_no_fault hc hi
  case done =>
    obtain ⟨c, hc, -⟩ := h
    exact doneStep_no_fault hc

/-- Settles O42: the turn keeps the invariant, whose phase clause is all that the sequencer needs. -/
theorem stepNeverFaults : Obligations.StepNeverFaults := by
  intro s r hs
  match hturn : s.turn with
  | none =>
    rw [step, turnStep, hturn]
    nofun
  | some (.engine, u) =>
    rw [step_of_engine_turn hturn]
    exact engineStep_no_fault
  | some (.sequencer, u) =>
    rw [step_of_sequencer_turn hturn, (turn_frame hturn).1]
    exact sequencerStep_no_fault hs.of_fetch_and_choice.phases

end Sys2Proof.Machine
end

section
/-! PROOFS. The Opcode Encoder: what its actions emit, and what their commands are when the engine plays
them (rules R151 to R157). -/

namespace Sys2Proof.Machine

variable {s t u : State}

/-! ### The commands of an action and of a transaction (rules R153, R155, R157, R203) -/

/-- A written byte is read back from its first eight commands (rules R65, R99). -/
theorem readBits_byteWriteCommands (b : Byte) :
    readBits 8 0#8 (byteWriteCommands b) = some (b, [.dataHighAck0]) := by
  have hbits := readBits_bitCommands (byteBits b) 0#8 [.dataHighAck0]
  rwa [foldl_shiftIn_byteBits] at hbits

/-- Settles O6: a byte that is read back from its commands is determined by them. -/
theorem byteWriteDeterminism : Obligations.ByteWriteDeterminism := by
  refine ⟨fun b => ⟨byteWriteCommands_length b, readBits_byteWriteCommands b⟩, fun b c hbc => ?_⟩
  have hread := readBits_byteWriteCommands b
  rw [hbc, readBits_byteWriteCommands c] at hread
  simpa using hread.symm

/-- The bytes of the read buffers are counted message by message. -/
theorem receivedData_length (tx : Transaction) : (receivedData tx).length = readBytes tx := by
  rw [receivedData, readBytes, List.length_flatMap]
  refine congrArg List.sum (List.map_congr_left fun m _ => ?_)
  cases m <;> rfl

/-- Settles O7: the stream's length is the closed form, and the termination brings it to whole bytes. -/
theorem streamSizes : Obligations.StreamSizes := by
  intro tx
  refine ⟨streamCommands_length tx, ?_, ?_, receivedData_length tx⟩
  · rw [terminateCommands_length]
    simp only [beq_iff_eq]
    split <;> split <;> omega
  · rw [streamImage_length, streamCommands_length, bufferBytes]

/-- Received bytes are all but the last acknowledged (rule R153). -/
theorem byteReadCommands_succ (n : Nat) :
    byteReadCommands (n + 1) =
      (List.replicate n (readByteCommands ++ [.dataLowNoAck])).flatten ++
        (readByteCommands ++ [.dataHighNoAck]) := by
  rw [byteReadCommands_eq (Nat.le_add_left 1 n), List.flatMap_append, List.flatMap_replicate,
    List.flatMap_singleton]
  rfl

/-- The same with the acknowledgement given by the index of the byte. -/
theorem byteReadCommands_eq_range {n : Nat} (hn : 1 ≤ n) :
    byteReadCommands n = (List.range n).flatMap fun k =>
      List.replicate 8 Command.dataHighRead ++
        [if k + 1 < n then Command.dataLowNoAck else Command.dataHighNoAck] := by
  obtain ⟨n, rfl⟩ := Nat.exists_eq_add_of_le' hn
  have hacknowledged : ∀ k ∈ List.range n,
      (List.replicate 8 Command.dataHighRead ++
        [if k + 1 < n + 1 then Command.dataLowNoAck else Command.dataHighNoAck]) =
      readByteCommands ++ [.dataLowNoAck] := fun k hk => by
    rw [if_pos (Nat.succ_lt_succ (List.mem_range.1 hk))]
    rfl
  rw [List.range_succ, List.flatMap_append, List.flatMap_congr hacknowledged, List.flatMap_singleton,
    if_neg (Nat.lt_irrefl _), byteReadCommands_succ, List.flatMap_def, List.map_const',
    List.length_range]
  rfl

/-! ### Playing commands (rule R120) -/

/-- What is played after commands that complete. -/
theorem play_append {cs : List Command} (h : play cs s = .next u) (ds : List Command) :
    play (cs ++ ds) s = play ds u := by
  induction cs generalizing s with
  | nil =>
    obtain rfl : s = u := by simpa [play] using h
    rfl
  | cons c cs ih =>
    obtain ⟨v, hv, hrest⟩ := andThen_eq_next.1 h
    rw [List.cons_append, play, hv, andThen_next, ih hrest]

/-- What is played after one command that completes. -/
theorem play_cons {c : Command} (h : exec c.toInstr s = .next u) (ds : List Command) :
    play (c :: ds) s = play ds u := by
  rw [play, h, andThen_next]

theorem play_singleton {c : Command} (h : exec c.toInstr s = .next u) : play [c] s = .next u :=
  play_cons h []

/-! ### START and STOP on the bus (rules R134, R151, R154) -/

/-- The bus is where a `Start` is played: idle, or with the clock parked low (rules R151, R156). -/
def State.startable (s : State) : Prop := (s.scl = true ∧ s.sdam = true) ∨ s.scl = false

/-- Where a `Start` is played, its release of the data line is no edge. -/
theorem State.startable.edge_true (h : s.startable) : s.edge true = [] := by
  rcases h with ⟨-, hdata⟩ | hclock
  · simp [s.edge_true, hdata]
  · exact s.edge_scl_low true hclock

theorem play_startCommands (h : s.startable) :
    play startCommands s =
      .next { s with scl := false, sdam := false, wire := s.wire ++ [.start] } := by
  have hplay : play startCommands s =
      .next { s with scl := false, sdam := false, wire := s.wire ++ s.edge true ++ [.start] } := rfl
  rw [hplay, h.edge_true, List.append_nil]

theorem play_stopCommands (h : s.scl = false) :
    play stopCommands s = .next { s with scl := true, sdam := true, wire := s.wire ++ [.stop] } := by
  have hplay : play stopCommands s =
      .next { s with scl := true, sdam := true, wire := s.wire ++ s.edge false ++ [.stop] } := rfl
  rw [hplay, s.edge_scl_low false h, List.append_nil]

/-- Settles O16: the emission of four commands, and the two bus states in which they are played. -/
theorem startEmitsAndPlays : Obligations.StartEmitsAndPlays :=
  ⟨by decide, fun _ _ h => emitAll_emitted (cs := startCommands) h, fun _ h => play_startCommands h⟩

/-- Settles O19: the emission of three commands, and their playback. -/
theorem stopEmitsAndPlays : Obligations.StopEmitsAndPlays :=
  ⟨by decide, fun _ _ h => emitAll_emitted (cs := stopCommands) h, fun _ h => play_stopCommands h⟩

/-! ### Written bytes on the bus (rules R129, R130, R132, R152) -/

/-- With the clock low on entry a bit command drives the data line and records the bit. -/
theorem exec_bitCommand (h : s.scl = false) (v : Bool) :
    exec (bitCommand v).toInstr s =
      .next { s with scl := false, sdam := v, wire := s.wire ++ [.wbit v] } := by
  obtain ⟨hlow, hhigh⟩ := noAckCommandsSendBit s
  simp only [h, Bool.false_eq_true, false_and, if_false, List.append_nil] at hlow hhigh
  cases v
  · exact hlow
  · exact hhigh

/-- Bits sent one after the other; the data line stays where the last of them leaves it. -/
theorem play_bitCommands (h : s.scl = false) (vs : List Bool) :
    play (vs.map bitCommand) s =
      .next { s with scl := false, sdam := vs.getLastD s.sdam, wire := s.wire ++ vs.map .wbit } := by
  induction vs generalizing s with
  | nil => simp [play, ← h]
  | cons v vs ih =>
    rw [List.map_cons, play_cons (exec_bitCommand h v), ih rfl, List.getLastD_cons, List.map_cons,
      List.append_assoc, List.singleton_append]

/-- A written byte: its bits, then the sample of the acknowledgement with the slave's drive. -/
theorem play_byteWriteCommands (h : s.scl = false) (b : Byte) :
    ∃ t, play (byteWriteCommands b) s = .next t ∧
      t = { s with
        scl := false, sdam := true
        wire := s.wire ++ (byteBits b).map .wbit ++ [.acks s.slaveDrive]
        ackf := t.ackf, slave := s.slave.tail, draws := t.draws } ∧
      (s.slaveDrive = false → t.ackf = s.ackf) := by
  have hbits := play_bitCommands h (byteBits b)
  obtain ⟨t, ht, hframe, hacked, -⟩ := dataHighAck0SamplesAck { s with
    scl := false, sdam := (byteBits b).getLastD s.sdam, wire := s.wire ++ (byteBits b).map .wbit }
  simp only [Bool.false_eq_true, false_and, if_false, List.append_nil] at hframe
  exact ⟨t, (play_append hbits _).trans (play_singleton (c := .dataHighAck0) ht), hframe, hacked⟩

theorem encode_byteWrite (b : Byte) :
    encode .standard false (.byteWrite b) =
      (byteBits b).map (fun v => if v then 0xC#4 else 0x8#4) ++ [0xE#4] := by
  have hcode : ∀ v, OpcTable.standard.code (bitCommand v) = if v then 0xC#4 else 0x8#4 := by decide
  rw [encode, byteWriteCommands_eq, List.map_append, List.map_map]
  exact congrArg (· ++ [0xE#4]) (List.map_congr_left fun v _ => hcode v)

/-- Settles O17: the emission of nine commands, and their playback. -/
theorem byteWriteEmitsAndPlays : Obligations.ByteWriteEmitsAndPlays :=
  ⟨encode_byteWrite, fun _ _ b h => emitAll_emitted (cs := byteWriteCommands b) h,
    fun _ b h => play_byteWriteCommands h b⟩

/-! ### What the slaves drive at the next samples (rule R135) -/

/-- The state after `k` samples: listed answers are used up first, then values are drawn. -/
def State.afterSamples (s : State) (k : Nat) : State :=
  { s with slave := s.slave.drop k, draws := s.draws + (k - s.slave.length) }

/-- The levels the slaves drive at the next `k` samples. -/
def State.samples : Nat → State → List Level
  | 0, _ => []
  | k + 1, s => s.slaveDrive :: State.samples k s.afterSample

theorem State.afterSample_eq_afterSamples (s : State) : s.afterSample = s.afterSamples 1 := by
  cases hs : s.slave <;> simp [State.afterSample, State.afterSamples, hs]

theorem State.afterSamples_add (s : State) (j k : Nat) :
    (s.afterSamples j).afterSamples k = s.afterSamples (j + k) := by
  have hdraws : s.draws + (j - s.slave.length) + (k - (s.slave.length - j)) =
      s.draws + (j + k - s.slave.length) := by omega
  simp only [State.afterSamples, List.drop_drop, List.length_drop, hdraws]

/-- The levels depend on the listed answers and the counter of draws alone. -/
theorem State.samples_congr (hslave : t.slave = s.slave) (hdraws : t.draws = s.draws) (k : Nat) :
    State.samples k t = State.samples k s := by
  induction k generalizing s t with
  | zero => rfl
  | succ k ih =>
    have hdrive : t.slaveDrive = s.slaveDrive := by
      rw [State.slaveDrive, State.slaveDrive, hslave, hdraws]
    rw [State.samples, State.samples, hdrive, t.afterSample_eq_afterSamples,
      s.afterSample_eq_afterSamples]
    refine congrArg _ (ih ?_ ?_) <;> simp only [State.afterSamples, hslave, hdraws]

theorem State.samples_add (s : State) (j k : Nat) :
    State.samples (j + k) s = State.samples j s ++ State.samples k (s.afterSamples j) := by
  induction j generalizing s with
  | zero =>
    rw [Nat.zero_add, State.samples, List.nil_append]
    exact State.samples_congr (by rfl) (by simp [State.afterSamples]) k
  | succ j ih =>
    rw [Nat.add_right_comm, State.samples, State.samples, ih, s.afterSample_eq_afterSamples,
      State.afterSamples_add, Nat.add_comm 1 j, List.cons_append]

theorem State.samples_length (s : State) (k : Nat) : (State.samples k s).length = k := by
  induction k generalizing s with
  | zero => rfl
  | succ k ih => rw [State.samples, List.length_cons, ih]

/-- Listed answers are what the slaves drive. -/
theorem State.samples_of_slave {vs rest : List Level} (h : s.slave = vs ++ rest) :
    State.samples vs.length s = vs := by
  induction vs generalizing s with
  | nil => rfl
  | cons v vs ih =>
    have hdrive : s.slaveDrive = v := by simp [State.slaveDrive, h]
    have hrest : s.afterSample.slave = vs ++ rest := by simp [State.afterSample, h]
    rw [List.length_cons, State.samples, hdrive, ih hrest]

theorem State.afterSamples_of_slave {vs rest : List Level} (h : s.slave = vs ++ rest) :
    s.afterSamples vs.length = { s with slave := rest } := by
  simp [State.afterSamples, h]

/-- Every eight levels are the bits of a byte. -/
theorem exists_byteBits {vs : List Level} (h : vs.length = 8) : ∃ b, byteBits b = vs := by
  match vs, h with
  | [v₇, v₆, v₅, v₄, v₃, v₂, v₁, v₀], _ =>
    refine ⟨[v₇, v₆, v₅, v₄, v₃, v₂, v₁, v₀].foldl shiftIn 0#8, ?_⟩
    simp [byteBits, BitVec.getLsbD_eq_getElem, getElem_shiftIn]

/-- Whatever the slaves drive, it is the bits of some bytes. -/
theorem exists_bytes {n : Nat} {vs : List Level} (h : vs.length = 8 * n) :
    ∃ ds : List Byte, ds.length = n ∧ ds.flatMap byteBits = vs := by
  induction n generalizing vs with
  | zero => exact ⟨[], rfl, (List.length_eq_zero_iff.1 h).symm⟩
  | succ n ih =>
    obtain ⟨d, hd⟩ := exists_byteBits (vs := vs.take 8) (by rw [List.length_take]; omega)
    obtain ⟨ds, hlength, hds⟩ := ih (vs := vs.drop 8) (by rw [List.length_drop]; omega)
    exact ⟨d :: ds, by rw [List.length_cons, hlength],
      by rw [List.flatMap_cons, hd, hds, List.take_append_drop]⟩

theorem byteBits_length (b : Byte) : (byteBits b).length = 8 := rfl

theorem flatMap_byteBits_length (ds : List Byte) : (ds.flatMap byteBits).length = 8 * ds.length := by
  simp only [List.length_flatMap, byteBits_length, List.map_const', List.sum_replicate, smul_eq_mul,
    Nat.mul_comm]

/-! ### Received bytes on the bus (rules R131, R153) -/

/-- With the clock low on entry a sample with the data line released records its event alone. -/
theorem State.releasedSample_of_clock_low (h : s.scl = false) (e : BusEvent) :
    s.releasedSample e =
      { s.afterSamples 1 with scl := true, sdam := true, wire := s.wire ++ [e] } := by
  rw [State.releasedSample, State.afterSample_eq_afterSamples]
  simp [h, State.afterSamples]

/-- The state after a read of the level `v` that does not complete a byte. -/
def State.bitCollected (s : State) (v : Level) : State :=
  { s.afterSamples 1 with
    scl := false, sdam := true, wire := s.wire ++ [.rbit v]
    rsh := shiftIn s.rsh v, rcnt := s.rcnt + 1 }

/-- The state after reads of the levels `vs` that complete the byte `b`, which is committed. -/
def State.byteCommitted (s : State) (vs : List Level) (b : Byte) : State :=
  State.writeByte
    { s.afterSamples vs.length with
      scl := false, sdam := true, wire := s.wire ++ vs.map .rbit
      rsh := b, rcnt := 0, rptr := s.rptr + 1 }
    s.dev.rbWindow (s.dev.rbBase + s.rptr) b

/-- The commit of a byte and the updates around it touch different fields. -/
theorem State.writeByte_then_registers (s : State) (w : Window) (a : Nat) (b : Byte) :
    ({ s.writeByte w a b with rsh := b, rcnt := 0, rptr := s.rptr + 1 } : State).setScl false =
      State.writeByte { s with scl := false, rsh := b, rcnt := 0, rptr := s.rptr + 1 } w a b := by
  cases w <;> rfl

/-- A read collects the slave's drive in the state of the released sample. -/
theorem exec_dataHighRead_eq (s : State) :
    exec .dataHighRead s =
      andThen (collectBit s.slaveDrive (s.releasedSample (.rbit s.slaveDrive)))
        fun t => .next (t.setScl false) := by
  have hexec : exec .dataHighRead s = execDataHighRead s := rfl
  rw [hexec, execDataHighRead_eq, s.releasedSample_eq]

theorem exec_dataHighRead_partial (hclock : s.scl = false) (hbit : s.rcnt ≠ 7) :
    exec .dataHighRead s = .next (s.bitCollected s.slaveDrive) := by
  rw [exec_dataHighRead_eq, collectBit_partial (s := s.releasedSample _) hbit,
    State.releasedSample_of_clock_low hclock]
  rfl

theorem exec_dataHighRead_commit (hclock : s.scl = false) (hbit : s.rcnt = 7)
    (hroom : s.rptr < s.dev.rbCapacity) :
    exec .dataHighRead s = .next (s.byteCommitted [s.slaveDrive] (shiftIn s.rsh s.slaveDrive)) := by
  rw [exec_dataHighRead_eq, collectBit_commit (s := s.releasedSample _) hbit hroom,
    State.releasedSample_of_clock_low hclock]
  exact congrArg Host.Outcome.next (State.writeByte_then_registers _ _ _ _)

/-- The bits before the one that completes a byte are part of the reads that do. -/
theorem State.byteCommitted_bitCollected (s : State) (v : Level) (vs : List Level) (b : Byte) :
    (s.bitCollected v).byteCommitted vs b = s.byteCommitted (v :: vs) b := by
  have hsamples := State.afterSamples_add s 1 vs.length
  rw [Nat.add_comm 1] at hsamples
  simp only [State.byteCommitted, List.length_cons, ← hsamples]
  simp only [State.bitCollected, State.afterSamples, List.map_cons, List.append_assoc,
    List.singleton_append]

/-- The reads that complete a byte: the bits before the last are shifted in, the last commits it. -/
theorem play_reads_to_commit {k : Nat} (hclock : s.scl = false) (hbits : s.rcnt.val + k = 7)
    (hroom : s.rptr < s.dev.rbCapacity) :
    play (List.replicate (k + 1) .dataHighRead) s =
      .next (s.byteCommitted (State.samples (k + 1) s)
        ((State.samples (k + 1) s).foldl shiftIn s.rsh)) := by
  induction k generalizing s with
  | zero => exact play_singleton (exec_dataHighRead_commit hclock (Fin.ext hbits) hroom)
  | succ k ih =>
    have hpartial : s.rcnt ≠ 7 := fun hlast => by simp [hlast] at hbits
    have hcount : (s.rcnt + 1).val + k = 7 := by
      rw [Fin.val_add_one_of_lt' (by omega)]
      omega
    have hrest : State.samples (k + 1) (s.bitCollected s.slaveDrive) =
        State.samples (k + 1) s.afterSample := by
      rw [s.afterSample_eq_afterSamples]
      exact State.samples_congr (by rfl) (by rfl) _
    rw [List.replicate_succ, play_cons (c := .dataHighRead) (exec_dataHighRead_partial hclock hpartial),
      ih (s := s.bitCollected s.slaveDrive) rfl hcount hroom, hrest,
      State.byteCommitted_bitCollected]
    rfl

/-- A byte that the slaves send is read and committed. -/
theorem play_readByteCommands {b : Byte} (hclock : s.scl = false) (hbits : s.rcnt = 0)
    (hroom : s.rptr < s.dev.rbCapacity) (hsent : State.samples 8 s = byteBits b) :
    play readByteCommands s = .next (s.byteCommitted (byteBits b) b) := by
  have hplay := play_reads_to_commit (k := 7) hclock (by rw [hbits]; rfl) hroom
  rwa [hsent, foldl_shiftIn_byteBits] at hplay

/-- From `s` to `t` the bytes `ds` have been delivered to the readback window, and no other byte of a
window has changed (rules R37, R131). -/
structure Delivered (ds : List Byte) (s t : State) : Prop where
  dev : t.dev = s.dev
  rptr : t.rptr = s.rptr + ds.length
  bytes : ∀ k d, ds[k]? = some d →
    t.readByte s.dev.rbWindow (s.dev.rbBase + (s.rptr + k)) = some d
  frame : ∀ (w : Window) (a : Nat), (w ≠ s.dev.rbWindow ∨ a < s.dev.rbBase + s.rptr ∨
    s.dev.rbBase + (s.rptr + ds.length) ≤ a) → t.readByte w a = s.readByte w a

/-- Delivered bytes are read back (rule R37). -/
theorem Delivered.rbRead {ds : List Byte} (h : Delivered ds s t) {k : Nat} {d : Byte}
    (hd : ds[k]? = some d) : t.rbRead (s.rptr + k) = d := by
  have hk : k < ds.length := (List.getElem?_eq_some_iff.1 hd).1
  refine State.rbRead_of_readByte (by rw [h.rptr]; omega) ?_
  rw [h.dev]
  exact h.bytes k d hd

/-- Bytes delivered one group after the other. -/
theorem Delivered.trans {ds es : List Byte} (h₁ : Delivered ds s u) (h₂ : Delivered es u t) :
    Delivered (ds ++ es) s t := by
  obtain ⟨hdev₁, hptr₁, hbytes₁, hframe₁⟩ := h₁
  obtain ⟨hdev₂, hptr₂, hbytes₂, hframe₂⟩ := h₂
  rw [hdev₁, hptr₁] at hbytes₂ hframe₂
  refine ⟨hdev₂.trans hdev₁, by rw [hptr₂, hptr₁, List.length_append, Nat.add_assoc],
    fun k d hd => ?_, fun w a ha => ?_⟩
  · by_cases hk : k < ds.length
    · rw [List.getElem?_append_left hk] at hd
      rw [hframe₂ _ _ (.inr (.inl (by omega))), hbytes₁ k d hd]
    · rw [List.getElem?_append_right (by omega)] at hd
      have hpos : s.rptr + k = s.rptr + ds.length + (k - ds.length) := by omega
      rw [hpos, hbytes₂ _ d hd]
  · rw [List.length_append] at ha
    rw [hframe₂ w a (ha.imp_right (by omega)), hframe₁ w a (ha.imp_right (by omega))]

theorem delivered_byteCommitted (s : State) (vs : List Level) (b : Byte) :
    Delivered [b] s (s.byteCommitted vs b) := by
  refine ⟨by rw [State.byteCommitted, State.writeByte_eq]; rfl,
    by rw [State.byteCommitted, State.writeByte_eq]; rfl, fun k d hd => ?_, fun w a ha => ?_⟩
  · obtain ⟨rfl, rfl⟩ : k = 0 ∧ b = d := by simpa [List.getElem?_singleton] using hd
    exact State.readByte_writeByte_same _ _ _ _
  · rw [List.length_singleton] at ha
    exact State.readByte_writeByte_other _ _ (ha.imp_right (by omega))

/-- A commit that follows whole bytes leaves the count of collected bits at 0. -/
theorem State.byteCommitted_eq (hbits : s.rcnt = 0) (vs : List Level) (b : Byte) :
    s.byteCommitted vs b = { s.afterSamples vs.length with
      scl := false, sdam := true, wire := s.wire ++ vs.map .rbit, rsh := b, rptr := s.rptr + 1
      commandWin := (s.byteCommitted vs b).commandWin
      controlWin := (s.byteCommitted vs b).controlWin } := by
  rw [State.byteCommitted, State.writeByte_eq]
  simp only [State.afterSamples, hbits]

/-- A received byte and the master's answer to it. -/
theorem play_receivedByte {b : Byte} (hclock : s.scl = false) (hbits : s.rcnt = 0)
    (hroom : s.rptr < s.dev.rbCapacity) (hsent : State.samples 8 s = byteBits b) (v : Bool) :
    ∃ t, play (readByteCommands ++ [bitCommand v]) s = .next t ∧
      t = { s.afterSamples 8 with
        scl := false, sdam := v, wire := s.wire ++ ((byteBits b).map .rbit ++ [.wbit v])
        rsh := b, rptr := s.rptr + 1, commandWin := t.commandWin, controlWin := t.controlWin } ∧
      Delivered [b] s t := by
  have hread := play_readByteCommands hclock hbits hroom hsent
  have hdelivered := delivered_byteCommitted s (byteBits b) b
  have hcommitted := State.byteCommitted_eq hbits (byteBits b) b
  generalize s.byteCommitted (byteBits b) b = u at hread hdelivered hcommitted
  have hanswer := exec_bitCommand (s := u) (by rw [hcommitted]) v
  refine ⟨_, (play_append hread _).trans (play_singleton hanswer), ?_,
    ⟨hdelivered.dev, hdelivered.rptr, hdelivered.bytes, hdelivered.frame⟩⟩
  rw [hcommitted, ← List.append_assoc]
  rfl

/-- The bytes that the slaves send are read one after the other, each but the last acknowledged. -/
theorem play_byteReadCommands {ds : List Byte} (hne : ds ≠ []) (hclock : s.scl = false)
    (hbits : s.rcnt = 0) (hroom : s.rptr + ds.length ≤ s.dev.rbCapacity)
    (hsent : State.samples (8 * ds.length) s = ds.flatMap byteBits) :
    ∃ t, play (byteReadCommands ds.length) s = .next t ∧
      t = { s.afterSamples (8 * ds.length) with
        scl := false, sdam := true, wire := s.wire ++ receivedBytes ds
        rsh := t.rsh, rptr := s.rptr + ds.length
        commandWin := t.commandWin, controlWin := t.controlWin } ∧
      Delivered ds s t := by
  induction ds using receivedBytes.induct generalizing s with
  | case1 => exact absurd rfl hne
  | case2 d =>
    obtain ⟨t, ht, hframe, hdelivered⟩ := play_receivedByte hclock hbits hroom
      (hsent.trans (List.flatMap_singleton _ _)) true
    refine ⟨t, ht, ?_, hdelivered⟩
    rw [hframe]
    rfl
  | case3 d e ds ih =>
    have hlength : 8 * (d :: e :: ds).length = 8 + 8 * (e :: ds).length := by
      simp only [List.length_cons]
      omega
    rw [hlength, State.samples_add, List.flatMap_cons] at hsent
    obtain ⟨hfirst, hrest⟩ := List.append_inj hsent (State.samples_length s 8)
    rw [List.length_cons] at hroom
    obtain ⟨u, hu, hframe, hdelivered⟩ :=
      play_receivedByte hclock hbits (by omega) hfirst false
    have hslave : u.slave = (s.afterSamples 8).slave := by rw [hframe]
    have hdraws : u.draws = (s.afterSamples 8).draws := by rw [hframe]
    rw [← State.samples_congr hslave hdraws] at hrest
    obtain ⟨t, ht, hframe', hdelivered'⟩ := ih (List.cons_ne_nil e ds) (by rw [hframe])
      (by rw [hframe]; exact hbits)
      (by rw [hdelivered.dev, hdelivered.rptr, List.length_singleton]; omega) hrest
    refine ⟨t, ?_, ?_, hdelivered.trans hdelivered'⟩
    · rw [← ht, ← play_append hu]
      rfl
    · have hafter : u.afterSamples (8 * (e :: ds).length) = { u with
          slave := (s.afterSamples (8 * (d :: e :: ds).length)).slave
          draws := (s.afterSamples (8 * (d :: e :: ds).length)).draws } := by
        rw [hlength, ← State.afterSamples_add, hframe]
        rfl
      have hptr : s.rptr + 1 + (e :: ds).length = s.rptr + (d :: e :: ds).length := by
        simp only [List.length_cons]
        omega
      rw [hafter, hframe] at hframe'
      rw [hframe']
      simp only [State.afterSamples, receivedBytes, hptr, List.append_assoc, List.singleton_append]

theorem encode_byteRead_succ (n : Nat) :
    encode .standard false (.byteRead (n + 1)) =
      (List.replicate n [0xD#4, 0xD#4, 0xD#4, 0xD#4, 0xD#4, 0xD#4, 0xD#4, 0xD#4, 0x8#4]).flatten ++
        [0xD#4, 0xD#4, 0xD#4, 0xD#4, 0xD#4, 0xD#4, 0xD#4, 0xD#4, 0xC#4] := by
  rw [encode, byteReadCommands_succ, List.map_append, List.map_flatten, List.map_replicate]
  rfl

/-- Settles O18: the emission of the commands by the index of the byte, and their playback with the
listed answers as the bits that the slave sends. -/
theorem byteReadEmitsAndPlays : Obligations.ByteReadEmitsAndPlays := by
  refine ⟨encode_byteRead_succ, fun s q n hn hroom => ?_,
    fun s ds rest hne hclock hbits hslave hroom => ?_⟩
  · rw [← byteReadCommands_eq_range hn]
    exact emitAll_emitted (by rwa [Laws.byteReadCommands_length])
  · have hsent := State.samples_of_slave hslave
    have hafter := State.afterSamples_of_slave hslave
    rw [flatMap_byteBits_length] at hsent hafter
    obtain ⟨t, ht, hframe, hdelivered⟩ := play_byteReadCommands hne hclock hbits hroom hsent
    rw [hafter] at hframe
    exact ⟨t, ht, hframe, fun _ _ => hdelivered.rbRead, hdelivered.frame⟩

end Sys2Proof.Machine
end

section
/-! PROOFS. The playback of a transaction, whatever the slaves answer (rules R156, R196, R197, R289). -/

namespace Sys2Proof.Machine

variable {s t u : State}

/-! ### One list of commands after the other -/

/-- From `s` to `t` commands have been played that record `starts` STARTs and no STOP, receive `received`
whole bytes, and park the clock low (rule R156). -/
structure Played (starts received : Nat) (s t : State) : Prop where
  dev : t.dev = s.dev
  busy : t.busy = s.busy
  clock : t.scl = false
  bits : t.rcnt = s.rcnt
  rptr : t.rptr = s.rptr + received
  wire : ∃ es, t.wire = s.wire ++ es ∧ es.count .start = starts ∧ es.count .stop = 0

theorem Played.refl (h : s.scl = false) : Played 0 0 s s :=
  ⟨rfl, rfl, h, rfl, rfl, [], (List.append_nil _).symm, rfl, rfl⟩

theorem Played.trans {a b m n : Nat} (h₁ : Played a m s u) (h₂ : Played b n u t) :
    Played (a + b) (m + n) s t := by
  obtain ⟨es, hes, hstart, hstop⟩ := h₁.wire
  obtain ⟨fs, hfs, hstart', hstop'⟩ := h₂.wire
  refine ⟨h₂.dev.trans h₁.dev, h₂.busy.trans h₁.busy, h₂.clock, h₂.bits.trans h₁.bits,
    by rw [h₂.rptr, h₁.rptr, Nat.add_assoc], es ++ fs, by rw [hfs, hes, List.append_assoc], ?_, ?_⟩
  · rw [List.count_append, hstart, hstart']
  · rw [List.count_append, hstop, hstop']

/-- Commands played one list after the other. -/
theorem exists_played_append {cs ds : List Command} {a b m n : Nat}
    (h₁ : ∃ u, play cs s = .next u ∧ Played a m s u)
    (h₂ : ∀ u, Played a m s u → ∃ t, play ds u = .next t ∧ Played b n u t) :
    ∃ t, play (cs ++ ds) s = .next t ∧ Played (a + b) (m + n) s t := by
  obtain ⟨u, hu, hplayed⟩ := h₁
  obtain ⟨t, ht, hplayed'⟩ := h₂ u hplayed
  exact ⟨t, (play_append hu ds).trans ht, hplayed.trans hplayed'⟩

/-! ### The actions, the messages and the transaction -/

theorem exists_played_start (h : s.startable) :
    ∃ t, play startCommands s = .next t ∧ Played 1 0 s t :=
  ⟨_, play_startCommands h, rfl, rfl, rfl, rfl, rfl, _, rfl, rfl, rfl⟩

theorem exists_played_byteWrite (h : s.scl = false) (b : Byte) :
    ∃ t, play (byteWriteCommands b) s = .next t ∧ Played 0 0 s t := by
  obtain ⟨t, ht, hframe, -⟩ := play_byteWriteCommands h b
  rw [List.append_assoc] at hframe
  refine ⟨t, ht, ?_⟩
  rw [hframe]
  exact ⟨rfl, rfl, rfl, rfl, rfl, _, rfl, by simp [byteBits], by simp [byteBits]⟩

theorem exists_played_payload (h : s.scl = false) (p : List Byte) :
    ∃ t, play (p.flatMap byteWriteCommands) s = .next t ∧ Played 0 0 s t := by
  induction p generalizing s with
  | nil => exact ⟨s, rfl, .refl h⟩
  | cons b p ih =>
    exact exists_played_append (exists_played_byteWrite h b) fun u hu => ih hu.clock

/-- Receiving bytes is no START and no STOP. -/
theorem count_receivedBytes (ds : List Byte) :
    (receivedBytes ds).count .start = 0 ∧ (receivedBytes ds).count .stop = 0 := by
  induction ds using receivedBytes.induct with
  | case1 => exact ⟨rfl, rfl⟩
  | case2 d => simp [receivedBytes, byteBits]
  | case3 d e ds ih => simpa [receivedBytes, byteBits] using ih

/-- Whatever the slaves drive, a read receives some bytes. -/
theorem exists_played_byteRead {n : Nat} (hn : 1 ≤ n) (hclock : s.scl = false) (hbits : s.rcnt = 0)
    (hroom : s.rptr + n ≤ s.dev.rbCapacity) :
    ∃ t, play (byteReadCommands n) s = .next t ∧ Played 0 n s t := by
  obtain ⟨ds, rfl, hds⟩ := exists_bytes (State.samples_length s (8 * n))
  have hne : ds ≠ [] := List.ne_nil_of_length_pos hn
  obtain ⟨t, ht, hframe, -⟩ := play_byteReadCommands hne hclock hbits hroom hds.symm
  obtain ⟨hstart, hstop⟩ := count_receivedBytes ds
  refine ⟨t, ht, ?_⟩
  rw [hframe]
  exact ⟨rfl, rfl, rfl, rfl, rfl, _, rfl, hstart, hstop⟩

/-- A message is one START and its bytes. -/
theorem exists_played_message {m : Message} (hread : m.isRead = true → 1 ≤ m.length)
    (hstart : s.startable) (hbits : s.rcnt = 0)
    (hroom : s.rptr + m.readLength ≤ s.dev.rbCapacity) :
    ∃ t, play m.commands s = .next t ∧ Played 1 m.readLength s t := by
  cases m with
  | write a p =>
    exact exists_played_append (exists_played_start hstart) fun u hu =>
      exists_played_append (exists_played_byteWrite hu.clock _) fun v hv =>
        exists_played_payload hv.clock p
  | read a r =>
    have haddressed := exists_played_append (exists_played_start hstart) fun u hu =>
      exists_played_byteWrite hu.clock (addressByte a true)
    have hplayed := exists_played_append haddressed fun v hv =>
      exists_played_byteRead (hread rfl) hv.clock (hv.bits.trans hbits)
        (by rw [hv.dev, hv.rptr]; exact hroom)
    rw [Nat.zero_add] at hplayed
    rwa [List.append_assoc] at hplayed

/-- The messages of a transaction: one START for each, repeated with the clock parked low for each but
the first (rule R197). -/
theorem exists_played_messages {m : Message} {ms : List Message}
    (hread : ∀ x ∈ m :: ms, x.isRead = true → 1 ≤ x.length) (hstart : s.startable)
    (hbits : s.rcnt = 0)
    (hroom : s.rptr + readBytes (m :: ms) ≤ s.dev.rbCapacity) :
    ∃ t, play ((m :: ms).flatMap Message.commands) s = .next t ∧
      Played (m :: ms).length (readBytes (m :: ms)) s t := by
  induction ms generalizing m s with
  | nil =>
    rw [List.flatMap_singleton]
    exact exists_played_message (hread m List.mem_cons_self) hstart hbits hroom
  | cons n ms ih =>
    have hbytes : readBytes (m :: n :: ms) = m.readLength + readBytes (n :: ms) := rfl
    have hcount : (m :: n :: ms).length = 1 + (n :: ms).length := Nat.add_comm _ _
    rw [hbytes] at hroom
    rw [List.flatMap_cons, hbytes, hcount]
    have hfirst := exists_played_message (hread m List.mem_cons_self) hstart hbits (by omega)
    exact exists_played_append hfirst fun u hu =>
      ih (fun x hx => hread x (List.mem_cons_of_mem m hx)) (.inr hu.clock) (hu.bits.trans hbits)
        (by rw [hu.dev, hu.rptr]; omega)

/-- Settles O50: the messages leave the clock parked low, from where the one `Stop` idles the bus. -/
theorem busIsIdleAfterPlayback : Obligations.BusIsIdleAfterPlayback := by
  intro s tx hv hclock hdata hbits hroom
  cases tx with
  | nil => exact absurd (validate_length_pos hv) (Nat.lt_irrefl 0)
  | cons m ms =>
    obtain ⟨-, -, hread⟩ := validate_iff.1 hv
    obtain ⟨u, hu, hplayed⟩ := exists_played_messages hread (.inl ⟨hclock, hdata⟩) hbits hroom
    obtain ⟨es, hes, hstarts, hstops⟩ := hplayed.wire
    have hplay := (play_append hu stopCommands).trans (play_stopCommands hplayed.clock)
    exact ⟨_, es, hplay, rfl, rfl, hplayed.bits.trans hbits, hplayed.busy, hplayed.rptr,
      congrArg (· ++ [.stop]) hes, hstarts, hstops⟩

end Sys2Proof.Machine
end

section
/-! PROOFS. The write of one command through the Sequence Buffer Writer (rules R29, R171). -/

namespace Sys2Proof.Machine

variable {s : State}

theorem Session.latchFull_eq_false_iff {q : Session} : q.latchFull = false ↔ q.ncmd % 2 = 0 := by
  simp [Session.latchFull]

/-- The second command of a pair finds no room with the cursor past the buffer (log entry 13). -/
theorem emit_beyond_buffer {q : Session} (hq : s.session = some q) (hfull : q.latchFull = true)
    (h : s.dev.cbCapacity ≤ s.cursor q) (c : Command) :
    emit c s = .refused (.commandBufferFull (s.cursor q)) := by
  rw [emit_full hq hfull, cbWrite_beyond_buffer h, andThen_refused]

/-- Settles O21: an empty latch takes the command, a full one makes it the byte write at the cursor. -/
theorem writeBuffersThenCommits : Obligations.WriteBuffersThenCommits := by
  intro s q c hq
  refine ⟨fun heven => ?buffered, fun hodd hroom hidle => ?committed, fun hodd hbeyond => ?refused⟩
  case buffered => exact emit_empty hq (Session.latchFull_eq_false_iff.2 heven) c
  case committed =>
    have hfull : q.latchFull = true := Session.latchFull_iff.2 hodd
    have hother : ∀ a, a ≠ s.dev.cbWinBase + s.cursor q →
        (s.writeByte .command (s.dev.cbWinBase + s.cursor q)
          (pack q.latch (s.dev.opc.code c))).readByte .command a = s.readByte .command a :=
      fun a hne => s.readByte_writeByte_other _ (.inr hne)
    exact ⟨_, emit_eq_next.2 ⟨q, hq, .inr ⟨hfull, hroom, hidle, rfl⟩⟩, rfl,
      s.cbRead_writeByte_same _ _, hother⟩
  case refused => exact emit_beyond_buffer hq (Session.latchFull_iff.2 hodd) hbeyond c

end Sys2Proof.Machine
end

section
/-! PROOFS. The playback of a transaction whose slaves acknowledge every byte and send listed bytes (rule
R204): its events, its answers used up and its bytes delivered. -/

namespace Sys2Proof.Machine

variable {s t u : State}

/-! ### One list of commands after the other -/

/-- From `s` to `t` commands have been played that record the events `es`, deliver the bytes `ds`, set no
acknowledgement bit, leave the listed answers `rest` and park the clock low (rules R156, R204). -/
structure Carried (es : List BusEvent) (ds : List Byte) (rest : List Level) (s t : State) : Prop where
  wire : t.wire = s.wire ++ es
  delivered : Delivered ds s t
  acked : t.ackf = s.ackf
  slave : t.slave = rest
  clock : t.scl = false
  bits : t.rcnt = s.rcnt

/-- Nothing is delivered where the parameters, the readback pointer and the windows are the same. -/
theorem delivered_nil (hdev : t.dev = s.dev) (hptr : t.rptr = s.rptr)
    (hcmd : t.commandWin = s.commandWin) (hctl : t.controlWin = s.controlWin) :
    Delivered [] s t :=
  ⟨hdev, hptr, nofun, fun w a _ => State.readByte_congr hcmd hctl w a⟩

theorem Carried.trans {es fs : List BusEvent} {ds bs : List Byte} {mid rest : List Level}
    (h₁ : Carried es ds mid s u) (h₂ : Carried fs bs rest u t) :
    Carried (es ++ fs) (ds ++ bs) rest s t :=
  ⟨by rw [h₂.wire, h₁.wire, List.append_assoc], h₁.delivered.trans h₂.delivered,
    h₂.acked.trans h₁.acked, h₂.slave, h₂.clock, h₂.bits.trans h₁.bits⟩

/-- Commands carried one list after the other. -/
theorem exists_carried_append {cs cs' : List Command} {es fs : List BusEvent} {ds bs : List Byte}
    {mid rest : List Level} (h₁ : ∃ u, play cs s = .next u ∧ Carried es ds mid s u)
    (h₂ : ∀ u, Carried es ds mid s u → ∃ t, play cs' u = .next t ∧ Carried fs bs rest u t) :
    ∃ t, play (cs ++ cs') s = .next t ∧ Carried (es ++ fs) (ds ++ bs) rest s t := by
  obtain ⟨u, hu, hcarried⟩ := h₁
  obtain ⟨t, ht, hcarried'⟩ := h₂ u hcarried
  exact ⟨t, (play_append hu cs').trans ht, hcarried.trans hcarried'⟩

/-! ### The actions -/

theorem exists_carried_start (h : s.startable) :
    ∃ t, play startCommands s = .next t ∧ Carried [.start] [] s.slave s t :=
  ⟨_, play_startCommands h, rfl, delivered_nil rfl rfl rfl rfl, rfl, rfl, rfl, rfl⟩

/-- A byte that the slave acknowledges. -/
theorem exists_carried_byteWrite {rest : List Level} (h : s.scl = false)
    (hslave : s.slave = false :: rest) (b : Byte) :
    ∃ t, play (byteWriteCommands b) s = .next t ∧ Carried (writtenByte b) [] rest s t := by
  obtain ⟨t, ht, hframe, hacked⟩ := play_byteWriteCommands h b
  have hdrive : s.slaveDrive = false := by rw [State.slaveDrive, hslave]
  have hrest : s.slave.tail = rest := by rw [hslave, List.tail_cons]
  have hackf := hacked hdrive
  rw [hdrive, hackf, hrest, List.append_assoc] at hframe
  refine ⟨t, ht, ?_⟩
  rw [hframe]
  exact ⟨rfl, delivered_nil rfl rfl rfl rfl, rfl, rfl, rfl, rfl⟩

theorem exists_carried_payload {rest : List Level} (h : s.scl = false) (p : List Byte)
    (hslave : s.slave = List.replicate p.length false ++ rest) :
    ∃ t, play (p.flatMap byteWriteCommands) s = .next t ∧
      Carried (p.flatMap writtenByte) [] rest s t := by
  induction p generalizing s with
  | nil =>
    exact ⟨s, rfl, (List.append_nil _).symm, delivered_nil rfl rfl rfl rfl, rfl, hslave, h, rfl⟩
  | cons b p ih =>
    exact exists_carried_append (exists_carried_byteWrite h hslave b) fun u hu => ih hu.clock hu.slave

/-- The bytes that the slave sends. -/
theorem exists_carried_byteRead {ds : List Byte} {rest : List Level} (hne : ds ≠ [])
    (hclock : s.scl = false) (hbits : s.rcnt = 0) (hslave : s.slave = ds.flatMap byteBits ++ rest)
    (hroom : s.rptr + ds.length ≤ s.dev.rbCapacity) :
    ∃ t, play (byteReadCommands ds.length) s = .next t ∧ Carried (receivedBytes ds) ds rest s t := by
  have hsent := State.samples_of_slave hslave
  have hafter := State.afterSamples_of_slave hslave
  rw [flatMap_byteBits_length] at hsent hafter
  obtain ⟨t, ht, hframe, hdelivered⟩ := play_byteReadCommands hne hclock hbits hroom hsent
  rw [hafter] at hframe
  exact ⟨t, ht, by rw [hframe], hdelivered, by rw [hframe], by rw [hframe], by rw [hframe],
    by rw [hframe]⟩

/-! ### The messages and the transaction -/

/-- The bytes of a message's read buffer. -/
def Message.received : Message → List Byte
  | .write _ _ => []
  | .read _ r => r

theorem Message.received_length (m : Message) : m.received.length = m.readLength := by
  cases m <;> rfl

theorem receivedData_eq (tx : Transaction) : receivedData tx = tx.flatMap Message.received :=
  List.flatMap_congr fun m _ => by cases m <;> rfl

/-- A message whose bytes are acknowledged, a read receiving the bytes of its buffer. -/
theorem exists_carried_message {m : Message} {rest : List Level}
    (hread : m.isRead = true → 1 ≤ m.length) (hstart : s.startable) (hbits : s.rcnt = 0)
    (hslave : s.slave = m.answers ++ rest)
    (hroom : s.rptr + m.readLength ≤ s.dev.rbCapacity) :
    ∃ t, play m.commands s = .next t ∧ Carried m.events m.received rest s t := by
  cases m with
  | write a p =>
    have hanswers : s.slave = false :: (List.replicate p.length false ++ rest) := by
      rw [hslave, Message.answers, Nat.add_comm, List.replicate_succ, List.cons_append]
    exact exists_carried_append (exists_carried_start hstart) fun u hu =>
      exists_carried_append (exists_carried_byteWrite hu.clock (hu.slave.trans hanswers) _)
        fun v hv => exists_carried_payload hv.clock p hv.slave
  | read a r =>
    have hanswers : s.slave = false :: (r.flatMap byteBits ++ rest) := hslave
    have hne : r ≠ [] := List.ne_nil_of_length_pos (hread rfl)
    exact exists_carried_append (exists_carried_start hstart) fun u hu =>
      exists_carried_append (exists_carried_byteWrite hu.clock (hu.slave.trans hanswers) _)
        fun v hv => exists_carried_byteRead hne hv.clock ((hv.bits.trans hu.bits).trans hbits)
          hv.slave (by
            rw [hv.delivered.dev, hv.delivered.rptr, hu.delivered.dev, hu.delivered.rptr]
            exact hroom)

theorem exists_carried_messages {m : Message} {ms : List Message} {rest : List Level}
    (hread : ∀ x ∈ m :: ms, x.isRead = true → 1 ≤ x.length) (hstart : s.startable)
    (hbits : s.rcnt = 0) (hslave : s.slave = (m :: ms).flatMap Message.answers ++ rest)
    (hroom : s.rptr + readBytes (m :: ms) ≤ s.dev.rbCapacity) :
    ∃ t, play ((m :: ms).flatMap Message.commands) s = .next t ∧
      Carried ((m :: ms).flatMap Message.events) ((m :: ms).flatMap Message.received) rest s t := by
  induction ms generalizing m s with
  | nil =>
    rw [List.flatMap_singleton] at hslave ⊢
    rw [List.flatMap_singleton, List.flatMap_singleton]
    exact exists_carried_message (hread m List.mem_cons_self) hstart hbits hslave hroom
  | cons n ms ih =>
    have hbytes : readBytes (m :: n :: ms) = m.readLength + readBytes (n :: ms) := rfl
    rw [hbytes] at hroom
    rw [List.flatMap_cons, List.append_assoc] at hslave
    have hfirst := exists_carried_message (hread m List.mem_cons_self) hstart hbits hslave
      (by omega)
    exact exists_carried_append hfirst fun u hu =>
      ih (fun x hx => hread x (List.mem_cons_of_mem m hx)) (.inr hu.clock) (hu.bits.trans hbits)
        hu.slave (by rw [hu.delivered.dev, hu.delivered.rptr, m.received_length]; omega)

/-- Settles O51: the messages leave the clock parked low, from where the one `Stop` idles the bus. -/
theorem playbackPutsTransactionOnBus : Obligations.PlaybackPutsTransactionOnBus := by
  intro s tx rest hv hclock hdata hbits hroom hslave
  cases tx with
  | nil => exact absurd (validate_length_pos hv) (Nat.lt_irrefl 0)
  | cons m ms =>
    obtain ⟨-, -, hread⟩ := validate_iff.1 hv
    obtain ⟨u, hu, hcarried⟩ :=
      exists_carried_messages hread (.inl ⟨hclock, hdata⟩) hbits hslave hroom
    rw [← receivedData_eq] at hcarried
    have hdelivered := hcarried.delivered
    have hlength := receivedData_length (m :: ms)
    have hplay := (play_append hu stopCommands).trans (play_stopCommands hcarried.clock)
    refine ⟨_, hplay, ?_, hcarried.acked, hcarried.slave, hlength ▸ hdelivered.rptr,
      fun k d => hdelivered.rbRead, hlength ▸ hdelivered.frame⟩
    rw [busEvents, ← List.append_assoc, ← hcarried.wire]

end Sys2Proof.Machine
end

section
/-! PROOFS. The Transaction Driver's own steps: validation, the lock, the readback of a message: the
statements of file 43_transaction_driver.md about one step. -/

namespace Sys2Proof.Machine

variable {s t : State}

/-! ### Validation (rules R193, R194, R281) -/

theorem Message.isRead_eq_false_iff {m : Message} : m.isRead = false ↔ ∃ a p, m = .write a p := by
  cases m <;> simp [Message.isRead]

/-- Settles O27: `validate_iff` with the messages written out as writes and reads. -/
theorem validationCriterion : Obligations.ValidationCriterion := by
  intro tx
  constructor
  · intro hv
    obtain ⟨hlength, ⟨m, hm, hwrite⟩, hread⟩ := validate_iff.1 hv
    obtain ⟨a, p, rfl⟩ := Message.isRead_eq_false_iff.1 hwrite
    exact ⟨validate_length_pos hv, hlength, ⟨a, p, hm⟩, fun b r hmem => hread _ hmem rfl⟩
  · rintro ⟨-, hlength, ⟨a, p, hm⟩, hread⟩
    refine validate_iff.2 ⟨hlength, ⟨_, hm, rfl⟩, fun m hmem hisread => ?_⟩
    cases m with
    | write b q => cases hisread
    | read b r => exact hread b r hmem

theorem validateStep_of_valid {c : Call} (hc : s.call = some c) (hv : validate c.tx = true) :
    validateStep s = .next { resetCursor s with phase := .encoding 0, actionPos := 0 } := by
  simp [validateStep, hc, hv]

theorem validateStep_of_invalid {c : Call} (hc : s.call = some c) (hv : validate c.tx = false) :
    validateStep s = .next (raise .unsupportedTransaction s) := by
  simp [validateStep, hc, hv]

theorem sequencerStep_validating (hp : s.phase = .validating) : sequencerStep s = validateStep s := by
  simp only [sequencerStep, hp]

/-- Settles O28: the two outcomes of the validation. -/
theorem validationStep : Obligations.ValidationStep := by
  intro s c hp hc
  rw [sequencerStep_validating hp]
  exact ⟨validateStep_of_invalid hc, fun hv => ⟨freshSession, rfl, validateStep_of_valid hc hv⟩⟩

/-! ### The lock (rules R191, R192) -/

/-- The element that a search finds is the one that an erasure takes out. -/
theorem exists_find?_eraseP {α : Type} {l : List α} {p : α → Bool} {a : α} (ha : a ∈ l) (hp : p a) :
    ∃ c before after, l.find? p = some c ∧ l.eraseP p = before ++ after ∧
      l = before ++ c :: after ∧ p c ∧ ∀ b ∈ before, ¬ p b := by
  obtain ⟨c, before, after, hbefore, hc, hsplit, herase⟩ := List.exists_of_eraseP ha hp
  refine ⟨c, before, after, ?_, herase, hsplit, hc, hbefore⟩
  rw [hsplit, List.find?_append, List.find?_eq_none.2 hbefore, Option.none_or,
    List.find?_cons_of_pos hc]

/-- Some call wins, the earliest of its thread; the calls before it and after it are left waiting. -/
theorem exists_winner {w : List Call} (hw : w ≠ []) (k : Nat) :
    ∃ c before after, winner k w = some (c, before ++ after) ∧ w = before ++ c :: after ∧
      ∀ b ∈ before, b.thread ≠ c.thread := by
  have hk : k % w.length < w.length := Nat.mod_lt _ (List.length_pos_of_ne_nil hw)
  obtain ⟨c, before, after, hfind, herase, hsplit, hc, hbefore⟩ :=
    exists_find?_eraseP (p := fun c => c.thread == w[k % w.length].thread) (List.getElem_mem hk)
      (beq_self_eq_true _)
  have hthread : c.thread = w[k % w.length].thread := beq_iff_eq.1 hc
  refine ⟨c, before, after, ?_, hsplit, fun b hb => ?_⟩
  · simp only [winner, List.getElem?_eq_getElem hk, hfind, herase]
  · rw [hthread]
    exact fun heq => hbefore b hb (beq_iff_eq.2 heq)

theorem acquire_of_held {thread : Nat} (hl : s.lock = .held thread) : acquire s = .next s := by
  simp only [acquire, hl]

theorem acquire_of_one_waiting {c : Call} (hl : s.lock = .free) (hw : s.waiting = [c]) :
    acquire s = .next (takeLock c [] s) := by
  simp only [acquire, hl, hw]

/-- The free lock goes to the earliest call of some waiting thread (rule R191). -/
theorem exists_acquire (hl : s.lock = .free) (hw : s.waiting ≠ []) :
    ∃ c before after draws, s.waiting = before ++ c :: after ∧
      (∀ b ∈ before, b.thread ≠ c.thread) ∧
      acquire s = .next (takeLock c (before ++ after) { s with draws := draws }) := by
  match hwaiting : s.waiting with
  | [] => exact absurd hwaiting hw
  | [c] => exact ⟨c, [], [], s.draws, rfl, nofun, acquire_of_one_waiting hl hwaiting⟩
  | c :: d :: cs =>
    obtain ⟨w, before, after, hwinner, hsplit, hbefore⟩ :=
      exists_winner (List.cons_ne_nil c (d :: cs)) (Config.nextWaiter s.draws)
    exact ⟨w, before, after, s.draws + 1, hsplit, hbefore, by
      simp only [acquire, hl, hwaiting, hwinner]⟩

theorem sequencerStep_idle (hp : s.phase = .idle) : sequencerStep s = acquire s := by
  simp only [sequencerStep, hp]

/-- Settles O29: by the state of the lock. -/
theorem acquireTakesFreeLock : Obligations.AcquireTakesFreeLock := by
  intro s hp
  rw [sequencerStep_idle hp]
  refine ⟨fun _ => acquire_of_held, fun hl hw => ?_⟩
  obtain ⟨c, before, after, draws, hsplit, hbefore, hstep⟩ := exists_acquire hl hw
  exact ⟨c, before, after, _, hsplit, hbefore, hstep, rfl⟩

/-- A step of the sequencer leaves a held lock alone, but for the last one of `execute`. -/
theorem sequencerStep_lock {thread : Nat} (hl : s.lock = .held thread)
    (h : sequencerStep s = .next t) :
    t.lock = s.lock ∨ (t.lock = .free ∧ ∃ r, s.phase = .done r ∧ t.phase = .idle) := by
  cases hp : s.phase <;> simp only [sequencerStep, hp] at h
  case done r =>
    obtain ⟨c, -, rfl⟩ := doneStep_next h
    exact .inr ⟨rfl, r, rfl, rfl⟩
  all_goals left
  case idle =>
    obtain rfl | ⟨hfree, -⟩ := acquire_next h
    · rfl
    · simp [hl] at hfree
  case validating =>
    obtain ⟨c, -, ⟨-, rfl⟩ | ⟨-, rfl⟩⟩ := validateStep_next h <;> rfl
  case encoding | stopping | terminating =>
    obtain ⟨cs, u, hu, rfl⟩ := actionStep_next h
    rw [advance_frame u, emitAll_changes hu]
  case preWait =>
    obtain rfl | rfl | ⟨-, rfl⟩ := preWaitStep_next h <;> rfl
  case triggering =>
    obtain ⟨-, rfl⟩ := triggerStep_next h
    rfl
  case postWait =>
    obtain rfl | ⟨-, rfl⟩ := postWaitStep_next h <;> rfl
  case decoding =>
    obtain ⟨-, rfl⟩ | ⟨e, rfl⟩ := decodeStep_next h <;> rfl
  case readback =>
    obtain ⟨c, m, -, -, rfl⟩ := readbackStep_next h
    rfl

/-- Settles O36: the engine has no part in the lock, and the sequencer frees it at the return alone. -/
theorem lockIsHeldThroughout : Obligations.LockIsHeldThroughout := by
  intro s t thread h hl
  rw [← hl]
  rcases step_cases h with rfl | ⟨sched, draws, ⟨-, h⟩ | ⟨-, h⟩⟩
  · exact .inl rfl
  · obtain ⟨c, -, hc⟩ := engineStep_next h
    exact .inl (exec_command_next hc).1.lock
  · exact sequencerStep_lock (s := { s with sched := sched, draws := draws }) hl h

/-! ### The readback of a message (rule R200) -/

/-- A message whose bytes lie in the window is copied out. -/
theorem readbackStep_of_room {c : Call} {m : Message} {i : Nat} (hc : s.call = some c)
    (hm : c.tx[i]? = some m) (hroom : readOffset c.tx i + m.readLength ≤ s.dev.rbCapacity) :
    readbackStep i s = .next { s with
      call := some { c with
        tx := c.tx.set i (m.withResult (s.rbBytes (readOffset c.tx i) m.readLength)) }
      phase := afterReadback c.tx i } := by
  simp [readbackStep, hc, hm, Nat.not_lt.2 hroom]

theorem sequencerStep_readback {i : Nat} (hp : s.phase = .readback i) :
    sequencerStep s = readbackStep i s := by
  simp only [sequencerStep, hp]

theorem State.rbBytes_getElem? (s : State) {j n k : Nat} (h : k < n) :
    (s.rbBytes j n)[k]? = some (s.rbRead (j + k)) := by
  simp [State.rbBytes, h]

/-- Settles O34: the copy of a message that is a read, and of one that is a write. -/
theorem readbackCopies : Obligations.ReadbackCopies := by
  intro s c i hp hc
  rw [sequencerStep_readback hp]
  refine ⟨fun a r hm hroom => ?_, fun a p hm hroom => ?_⟩
  · exact ⟨_, s.rbBytes (readOffset c.tx i) r.length, readbackStep_of_room hc hm hroom, rfl,
      s.rbBytes_length _ _, fun k hk => s.rbBytes_getElem? hk⟩
  · rw [readbackStep_of_room hc hm hroom]
    obtain ⟨hi, hwrite⟩ := List.getElem?_eq_some_iff.1 hm
    have hsame : c.tx.set i (.write a p) = c.tx := by rw [← hwrite, List.set_getElem_self]
    simp only [Message.withResult, hsame, ← hc]
    rfl

end Sys2Proof.Machine
end

section
/-! PROOFS. Runs of the machine: the sequencer while the engine is idle, and the engine while the schedule
lists it (rules R120, R193, R226). -/

namespace Sys2Proof.Machine

variable {s t u : State}

/-! ### States that a run comes to -/

/-- Some number of steps leads from `s` to `t`. -/
def Reaches (s t : State) : Prop := ∃ n, run n s = .next t

theorem Reaches.refl (s : State) : Reaches s s := ⟨0, rfl⟩

theorem Reaches.head (h : step s = .next u) (hrest : Reaches u t) : Reaches s t := by
  obtain ⟨n, hn⟩ := hrest
  exact ⟨n + 1, by rw [run, h, andThen_next, hn]⟩

theorem Reaches.trans (h₁ : Reaches s u) (h₂ : Reaches u t) : Reaches s t := by
  obtain ⟨m, hm⟩ := h₁
  induction m generalizing s with
  | zero =>
    injection hm with hm
    rwa [hm]
  | succ m ih =>
    obtain ⟨v, hv, hm⟩ := andThen_eq_next.1 hm
    exact .head hv (ih hm)

theorem Reaches.keeps_inv (hs : Inv s) (h : Reaches s t) : Inv t := by
  obtain ⟨n, hn⟩ := h
  induction n generalizing s with
  | zero =>
    injection hn with hn
    rwa [← hn]
  | succ n ih =>
    obtain ⟨v, hv, hn⟩ := andThen_eq_next.1 hn
    exact ih (stepKeepsInvariant s v hs hv) hn

/-! ### The sequencer while the engine is idle -/

/-- The sequencer has no step only where its step would wait for the lock. -/
theorem sequencerStep_of_disabled (h : s.sequencerEnabled = false) : sequencerStep s = .next s := by
  cases hp : s.phase <;> simp only [State.sequencerEnabled, hp, reduceCtorEq] at h
  rw [sequencerStep_idle hp]
  cases hl : s.lock with
  | held thread => exact acquire_of_held hl
  | free =>
    have hw : s.waiting = [] := by simpa [hl] using h
    simp only [acquire, hl, hw]

/-- With the engine idle a step is the sequencer's (rule R226). -/
theorem step_of_engine_idle (h : s.busy = false) : step s = sequencerStep s := by
  have hengine : s.engineEnabled = false := by simp [State.engineEnabled, h]
  cases hs : s.sequencerEnabled with
  | false => rw [step_of_nobody_enabled hengine hs, sequencerStep_of_disabled hs]
  | true => exact step_of_sequencer_turn (by simp [State.turn, hengine, hs])

theorem Reaches.of_sequencerStep (h : sequencerStep s = .next t) (hidle : s.busy = false) :
    Reaches s t :=
  .head ((step_of_engine_idle hidle).trans h) (.refl t)

/-- The sequencer never clears `busy` (rules R34, R79). -/
theorem sequencerStep_idle_before (h : sequencerStep s = .next t) (ht : t.busy = false) :
    s.busy = false := by
  rcases sequencerStep_next h with hf | ⟨-, -, rfl⟩
  · exact hf.busy.symm.trans ht
  · cases ht

/-- A run of the sequencer that leaves the engine idle is a run of the machine. -/
theorem Reaches.of_sequencerRun {n : Nat} (h : sequencerRun n s = .next t) (ht : t.busy = false) :
    s.busy = false ∧ Reaches s t := by
  induction n generalizing s with
  | zero =>
    injection h with h
    subst h
    exact ⟨ht, .refl s⟩
  | succ n ih =>
    obtain ⟨u, hu, h⟩ := andThen_eq_next.1 h
    obtain ⟨hidle, hrest⟩ := ih h
    have hs := sequencerStep_idle_before hu hidle
    exact ⟨hs, (Reaches.of_sequencerStep hu hs).trans hrest⟩

/-! ### A command does not rest on the fetch pointer or the schedule -/

/-- The state with another fetch pointer and another schedule. -/
def State.atFetch (s : State) (fp : Nat) (sched : List Agent) : State :=
  { s with fp := fp, sched := sched }

theorem State.writeByte_atFetch (s : State) (fp : Nat) (sched : List Agent) (w : Window) (a : Nat)
    (b : Byte) : (s.atFetch fp sched).writeByte w a b = (s.writeByte w a b).atFetch fp sched := by
  cases w <;> rfl

theorem State.releasedSample_atFetch (s : State) (fp : Nat) (sched : List Agent) (e : BusEvent) :
    (s.atFetch fp sched).releasedSample e = (s.releasedSample e).atFetch fp sched := by
  rw [State.releasedSample, State.releasedSample, State.afterSample_eq_afterSamples,
    State.afterSample_eq_afterSamples]
  rfl

theorem collectBit_atFetch {b : Level} (h : collectBit b s = .next t) (fp : Nat)
    (sched : List Agent) : collectBit b (s.atFetch fp sched) = .next (t.atFetch fp sched) := by
  rcases collectBit_eq_next.1 h with ⟨hbit, rfl⟩ | ⟨hbit, hroom, rfl⟩
  · exact collectBit_partial hbit
  · rw [collectBit_commit (s := s.atFetch fp sched) hbit hroom, State.writeByte_atFetch]
    rfl

theorem exec_atFetch {c : Command} (h : exec c.toInstr s = .next t) (fp : Nat)
    (sched : List Agent) :
    exec c.toInstr (s.atFetch fp sched) = .next (t.atFetch fp sched) := by
  cases c
  case setAddress | reset | idle | dataHighAck1 => cases h
  case dataHighRead =>
    simp only [Command.toInstr, exec_dataHighRead_eq] at h ⊢
    obtain ⟨u, hu, h⟩ := andThen_eq_next.1 h
    injection h with h
    subst h
    rw [State.releasedSample_atFetch]
    exact andThen_eq_next.2 ⟨_, collectBit_atFetch hu fp sched, rfl⟩
  case dataHighAck0 =>
    have hexec : ∀ x : State, exec Command.dataHighAck0.toInstr x = .next
        (((x.releasedSample (.acks x.slaveDrive)).noteAck x.slaveDrive).setScl false) := fun x =>
      (execDataHighAck0_eq x).trans (by rw [x.releasedSample_eq])
    rw [hexec] at h ⊢
    injection h with h
    rw [← h, State.releasedSample_atFetch]
    rfl
  all_goals
    injection h with h
    subst h
    rfl

theorem play_atFetch {cs : List Command} (h : play cs s = .next t) (fp : Nat)
    (sched : List Agent) : play cs (s.atFetch fp sched) = .next (t.atFetch fp sched) := by
  induction cs generalizing s with
  | nil =>
    injection h with h
    rw [h]
    rfl
  | cons c cs ih =>
    obtain ⟨u, hu, h⟩ := andThen_eq_next.1 h
    rw [play_cons (exec_atFetch hu fp sched), ih h]

/-! ### The frame of a playback -/

/-- Playing leaves the sequencer's half, the fetch pointer and the schedule alone (rule R79). -/
theorem play_changes {cs : List Command} (h : play cs s = .next t) :
    t = { s with
      commandWin := t.commandWin, controlWin := t.controlWin, busy := t.busy, ackf := t.ackf
      rsh := t.rsh, rcnt := t.rcnt, rptr := t.rptr, scl := t.scl, sdam := t.sdam, wire := t.wire
      slave := t.slave, draws := t.draws } := by
  induction cs generalizing s with
  | nil =>
    injection h with h
    subst h
    rfl
  | cons c cs ih =>
    obtain ⟨u, hu, h⟩ := andThen_eq_next.1 h
    have hf := (exec_command_next hu).1
    rw [ih h, hf.dev, hf.lock, hf.session, hf.phase, hf.call, hf.actionPos, hf.waiting,
      hf.returned, hf.fp, hf.sched, hf.plays]

/-- Playing never sets `busy` (rule R34). -/
theorem play_busy_before {cs : List Command} (h : play cs s = .next t) (ht : t.busy = true) :
    s.busy = true := by
  induction cs generalizing s with
  | nil =>
    injection h with h
    rwa [h]
  | cons c cs ih =>
    obtain ⟨u, hu, h⟩ := andThen_eq_next.1 h
    have hb := (exec_command_next hu).2
    rw [ih h] at hb
    split at hb
    · cases hb
    · exact hb.symm

/-! ### The engine at a stream -/

/-- The engine runs, and from its fetch pointer on the command buffer holds the commands `cs` and an `End`
behind them (rules R31, R221). -/
structure AtStream (cs : List Command) (s : State) : Prop where
  params : s.dev.wf = true
  busy : s.busy = true
  room : s.fp + cs.length < 2 * s.dev.cbCapacity
  nibbles : ∀ k c, (cs ++ [.endCmd])[k]? = some c → s.nibbleAt (s.fp + k) = s.dev.opc.code c

theorem AtStream.engineEnabled {cs : List Command} (h : AtStream cs s) : s.engineEnabled = true := by
  have hroom := h.room
  simp only [State.engineEnabled, h.busy, Bool.true_and, decide_eq_true_eq]
  omega

/-- The engine fetches the first of the commands. -/
theorem AtStream.decoded {cs ds : List Command} {c : Command} (h : AtStream cs s)
    (hc : cs ++ [.endCmd] = c :: ds) : decodeNibble s.dev.opc s.fetchNibble = some c.toInstr := by
  have hfetch : s.fetchNibble = s.dev.opc.code c := h.nibbles 0 c (by rw [hc]; rfl)
  have hopc : s.dev.opc.wf = true := by
    have hparams := h.params
    simp only [Params.wf, Bool.and_eq_true] at hparams
    obtain ⟨⟨⟨⟨hopc, -⟩, -⟩, -⟩, -⟩ := hparams
    exact hopc
  rw [hfetch, decodeNibble_code hopc]

/-- A command that goes on leaves the nibbles of the command buffer alone (rule R79). -/
theorem EngineFrame.nibbleAt (hf : EngineFrame s t) (hparams : s.dev.wf = true) {p : Nat}
    (hp : p < 2 * s.dev.cbCapacity) : t.nibbleAt p = s.nibbleAt p := by
  have hbyte : t.cbRead (p / 2) = s.cbRead (p / 2) :=
    State.cbRead_congr hf.dev (hf.readByte_outside_readback fun j hj =>
      (Params.readback_ne_command hparams (by omega) hj).imp Ne.symm Ne.symm)
  rw [State.nibbleAt, State.nibbleAt, hbyte]

/-- Behind its first command the engine stands at the rest of the stream. -/
theorem AtStream.tail {c : Command} {cs : List Command} (h : AtStream (c :: cs) s)
    (hc : exec c.toInstr s = .next t) (ht : t.busy = true) (sched : List Agent) :
    AtStream cs (t.atFetch (s.fp + 1) sched) := by
  have hf := (exec_command_next hc).1
  have hroom := h.room
  rw [List.length_cons] at hroom
  refine ⟨hf.dev ▸ h.params, ht, ?_, fun k d hd => ?_⟩
  · have hdev : (t.atFetch (s.fp + 1) sched).dev = s.dev := hf.dev
    rw [hdev]
    simp only [State.atFetch]
    omega
  · have hk : k < (cs ++ [Command.endCmd]).length := (List.getElem?_eq_some_iff.1 hd).1
    rw [List.length_append, List.length_singleton] at hk
    have hsame : t.nibbleAt (s.fp + (k + 1)) = s.nibbleAt (s.fp + (k + 1)) :=
      hf.nibbleAt h.params (by omega)
    have hcode : s.nibbleAt (s.fp + (k + 1)) = s.dev.opc.code d := h.nibbles (k + 1) d hd
    have hdev : (t.atFetch (s.fp + 1) sched).dev = s.dev := hf.dev
    rw [hdev, ← hcode, ← hsame, Nat.add_comm k 1, ← Nat.add_assoc]
    rfl

/-- A step of both agents' choice that the schedule gives to the engine. -/
theorem step_of_listed_engine {later : List Agent} (hengine : s.engineEnabled = true)
    (hseq : s.sequencerEnabled = true) (hsched : s.sched = .engine :: later) :
    step s = engineStep (s.atFetch s.fp later) :=
  step_of_engine_turn (by simp [State.turn, hengine, hseq, hsched, State.atFetch])

/-- The step of an engine that the schedule lists executes the first command of the stream. -/
theorem AtStream.step_eq {cs ds : List Command} {c : Command} {later : List Agent}
    (h : AtStream cs s) (hc : cs ++ [.endCmd] = c :: ds) (hseq : s.sequencerEnabled = true)
    (hsched : s.sched = .engine :: later) (ht : exec c.toInstr s = .next t) :
    step s = .next (t.atFetch (s.fp + 1) later) := by
  rw [step_of_listed_engine h.engineEnabled hseq hsched]
  exact (engineStep_of_decoded (s := s.atFetch s.fp later) (h.decoded hc)).trans
    (exec_atFetch ht (s.fp + 1) later)

theorem EngineFrame.sequencerEnabled (hf : EngineFrame s t) :
    t.sequencerEnabled = s.sequencerEnabled := by
  simp only [State.sequencerEnabled, hf.phase, hf.lock, hf.waiting]

/-- An engine that the schedule lists for the whole of a stream plays it and stops one past its `End`
(rules R121, R322). -/
theorem AtStream.reaches {cs : List Command} {later : List Agent} (h : AtStream cs s)
    (hseq : s.sequencerEnabled = true)
    (hsched : s.sched = List.replicate (cs.length + 1) .engine ++ later)
    (hplay : play cs s = .next u) (hbusy : u.busy = true) :
    Reaches s { u with fp := s.fp + cs.length + 1, sched := later, busy := false } := by
  induction cs generalizing s u with
  | nil =>
    injection hplay with hplay
    subst hplay
    exact .head (h.step_eq rfl hseq hsched rfl) (.refl _)
  | cons c cs ih =>
    obtain ⟨v, hv, hrest⟩ := andThen_eq_next.1 hplay
    have hvbusy := play_busy_before hrest hbusy
    let sched := List.replicate (cs.length + 1) Agent.engine ++ later
    have hreach := ih (s := v.atFetch (s.fp + 1) sched) (u := u.atFetch (s.fp + 1) sched)
      (h.tail hv hvbusy sched) ((exec_command_next hv).1.sequencerEnabled.trans hseq) rfl
      (play_atFetch hrest _ _) hbusy
    have hfp : s.fp + (c :: cs).length + 1 = s.fp + 1 + cs.length + 1 := by
      rw [List.length_cons]
      omega
    rw [hfp]
    exact .head (h.step_eq rfl hseq hsched hv) hreach

end Sys2Proof.Machine
end

section
/-! PROOFS. A whole transfer: from the call to the trigger, the playback, and from the status to the return
(rules R193, R200, R220, R229, R288). -/

namespace Sys2Proof.Machine

variable {s t u : State}

/-! ### Transactions that differ in their result buffers only -/

/-- `m'` is the message `m` with some contents in its result buffer. -/
structure Message.Filled (m m' : Message) : Prop where
  received_length : m'.received.length = m.readLength
  eq_withResult : m' = m.withResult m'.received

/-- Transactions of the same shape, message by message. -/
theorem filled_of_sameShape {tx tx' : Transaction} (h : sameShape tx tx') :
    List.Forall₂ Message.Filled tx tx' := by
  induction tx, tx' using sameShape.induct with
  | case1 => exact .nil
  | case2 a p tx b q tx' ih =>
    obtain ⟨rfl, rfl, hrest⟩ := h
    exact .cons ⟨rfl, rfl⟩ (ih hrest)
  | case3 a r tx b u tx' ih =>
    obtain ⟨rfl, hlength, hrest⟩ := h
    exact .cons ⟨hlength.symm, rfl⟩ (ih hrest)
  | case4 | case5 | case6 | case7 => simp [sameShape] at h

/-- What does not rest on the contents of a result buffer is the same for both transactions. -/
theorem map_eq_of_filled {α : Type} {tx tx' : Transaction} (h : List.Forall₂ Message.Filled tx tx')
    {f : Message → α} (hf : ∀ m m', Message.Filled m m' → f m' = f m) : tx'.map f = tx.map f := by
  induction h with
  | nil => rfl
  | cons hm _ ih => rw [List.map_cons, List.map_cons, hf _ _ hm, ih]

theorem Message.Filled.readLength_eq {m m' : Message} (h : m.Filled m') :
    m'.readLength = m.readLength := by
  rw [← m'.received_length, h.received_length]

theorem Message.Filled.isRead_eq {m m' : Message} (h : m.Filled m') : m'.isRead = m.isRead := by
  rw [h.eq_withResult, Message.withResult_isRead]

theorem Message.Filled.length_eq {m m' : Message} (h : m.Filled m') : m'.length = m.length := by
  rw [h.eq_withResult, Message.withResult_length h.received_length]

theorem Message.Filled.commands_eq {m m' : Message} (h : m.Filled m') :
    m'.commands = m.commands := by
  obtain ⟨hlength, hm'⟩ := h
  rw [hm']
  cases m with
  | write a p => rfl
  | read a r => simp only [Message.withResult, Message.commands, hlength, Message.readLength]

theorem streamCommands_of_filled {tx tx' : Transaction} (h : List.Forall₂ Message.Filled tx tx') :
    streamCommands tx' = streamCommands tx := by
  simp only [streamCommands, List.flatMap_def,
    map_eq_of_filled h fun _ _ => Message.Filled.commands_eq]

theorem readBytes_of_filled {tx tx' : Transaction} (h : List.Forall₂ Message.Filled tx tx') :
    readBytes tx' = readBytes tx := by
  rw [readBytes, readBytes, map_eq_of_filled h fun _ _ => Message.Filled.readLength_eq]

theorem validate_of_filled {tx tx' : Transaction} (h : List.Forall₂ Message.Filled tx tx') :
    validate tx' = validate tx := by
  have hall := map_eq_of_filled h (f := fun x => !x.isRead || decide (1 ≤ x.length))
    fun m m' hm => by rw [hm.isRead_eq, hm.length_eq]
  have hcount := h.length_eq
  cases h with
  | nil => rfl
  | cons hm hms =>
    rw [validate, validate, hm.isRead_eq, ← hcount]
    congr 1
    simpa [List.all_map] using congrArg (List.all · id) hall

/-! ### From the call to the trigger -/

/-- A command emitted from the start of a session, in a committed byte, is where a playback from `TX_BASE`
finds it (rules R31, R172). -/
theorem Emitted.nibbleAt {cs : List Command} {q : Session} {k : Nat} {c : Command}
    (h : Emitted cs s q t) (hq : q.ncmd = 0) (hc : cs[k]? = some c) (hk : k / 2 < cs.length / 2) :
    t.nibbleAt (2 * s.dev.txBase + k) = s.dev.opc.code c := by
  obtain ⟨r, -, hr, hframe, -, hnew, -⟩ := h
  have hdev : t.dev = s.dev := by rw [hframe]
  have hstream := hnew k c hc
  rw [hq, Nat.zero_add] at hr hstream
  rw [State.streamNibble, if_pos (by rw [hr]; exact hk), hdev] at hstream
  rw [← hstream, State.nibbleAt, Nat.mul_add_mod, Nat.mul_add_div Nat.two_pos]

/-- The commands of a transaction and the `End` behind them lie in committed bytes (rule R221). -/
theorem Emitted.streamNibbles {tx : Transaction} {q : Session}
    (h : Emitted (streamCommands tx ++ terminateCommands (commandCount tx % 2 == 1)) s q t)
    (hq : q.ncmd = 0) {k : Nat} {c : Command} (hc : (streamCommands tx ++ [.endCmd])[k]? = some c) :
    t.nibbleAt (2 * s.dev.txBase + k) = s.dev.opc.code c := by
  have hk : k < (streamCommands tx ++ [Command.endCmd]).length := (List.getElem?_eq_some_iff.1 hc).1
  obtain ⟨ends, hends⟩ : ∃ ends, terminateCommands (commandCount tx % 2 == 1) = .endCmd :: ends := by
    cases commandCount tx % 2 == 1 <;> exact ⟨_, rfl⟩
  refine h.nibbleAt hq ?_ ?_
  · rw [hends, ← List.singleton_append, ← List.append_assoc, List.getElem?_append_left hk, hc]
  · rw [List.length_append, streamCommands_length, streamImage_length]
    rw [List.length_append, streamCommands_length, List.length_singleton] at hk
    omega

/-- The state right after the trigger of the call `c`, taken from the only waiting one in `s`. -/
structure Triggered (c : Call) (s t : State) : Prop where
  frame : t = { s with
    lock := .held c.thread, call := some c, waiting := [], session := t.session
    phase := .postWait 0, actionPos := t.actionPos, commandWin := t.commandWin
    busy := true, ackf := 0#2, fp := 2 * s.dev.txBase, rcnt := 0, rptr := 0
    plays := s.plays + 1, draws := t.draws }
  stream : AtStream (streamCommands c.tx) t

/-- `fits`, clause by clause (rules R29, R203). -/
theorem fits_iff {p : Params} {tx : Transaction} :
    fits p tx = true ↔
      p.txBase + (commandCount tx + 1) / 2 < p.cbCapacity ∧ readBytes tx ≤ p.rbCapacity := by
  simp [fits]

/-- From the validation on, a valid transaction that fits is encoded up to the pre-trigger wait. -/
theorem reaches_preWait {c : Call} (hp : s.phase = .validating) (hc : s.call = some c)
    (hidle : s.busy = false) (hv : validate c.tx = true)
    (hroom : s.dev.txBase + (commandCount c.tx + 1) / 2 < s.dev.cbCapacity) :
    ∃ t, Reaches s t ∧
      t = { s with
        session := t.session, phase := .preWait 0, actionPos := t.actionPos
        commandWin := t.commandWin } ∧
      ∀ k d, (streamCommands c.tx ++ [.endCmd])[k]? = some d →
        t.nibbleAt (2 * t.dev.txBase + k) = t.dev.opc.code d := by
  have hvalidated := (sequencerStep_validating hp).trans (validateStep_of_valid hc hv)
  obtain ⟨n, t, hrun, hphase, hemitted⟩ := encodingWritesStream
    { resetCursor s with phase := .encoding 0, actionPos := 0 } freshSession c
    rfl rfl rfl rfl hc hv hroom hidle
  have ⟨q, hq, _, hframe, _⟩ := hemitted
  have hq : t.session = some q := hq
  have hsame : t = t.atPlace (.preWait 0) t.actionPos := by rw [← hphase]; rfl
  have ht : t = { s with
      session := t.session, phase := .preWait 0, actionPos := t.actionPos
      commandWin := t.commandWin } := by
    rw [hq]
    exact hsame.trans (congrArg (State.atPlace · (.preWait 0) t.actionPos) hframe)
  have htdev : t.dev = s.dev := by rw [ht]
  have htidle : t.busy = false := by rw [ht]; exact hidle
  obtain ⟨-, hreach⟩ := Reaches.of_sequencerRun hrun htidle
  refine ⟨t, (Reaches.of_sequencerStep hvalidated hidle).trans hreach, ht, fun k d hd => ?_⟩
  rw [htdev]
  exact hemitted.streamNibbles rfl hd

theorem sequencerStep_preWait {k : Nat} (hp : s.phase = .preWait k) (hidle : s.busy = false) :
    sequencerStep s = .next { s.afterStatusRead with phase := .triggering } := by
  simp [sequencerStep, hp, preWaitStep, hidle]

theorem sequencerStep_triggering (hp : s.phase = .triggering) (hidle : s.busy = false)
    (hroom : s.dev.txBase < s.dev.cbCapacity) :
    sequencerStep s = .next { s with
      busy := true, ackf := 0#2, fp := 2 * s.dev.txBase, rcnt := 0, rptr := 0,
      plays := s.plays + 1, phase := .postWait 0 } := by
  simp only [sequencerStep, hp]
  exact andThen_eq_next.2 ⟨_, triggerWrite_eq_next.2 ⟨hidle, hroom, rfl⟩, rfl⟩

/-- On a machine that may run a transfer, the only waiting call comes to its trigger (rules R191, R193,
R220, R225). -/
theorem Ready.reaches_triggered {c : Call} (hs : Ready s) (hw : s.waiting = [c])
    (hv : validate c.tx = true) (hfits : fits s.dev c.tx = true) :
    ∃ t, Reaches s t ∧ Triggered c s t := by
  obtain ⟨hroom, -⟩ := fits_iff.1 hfits
  have hphase := hs.inv.phases
  simp only [State.phaseOk, hs.phase] at hphase
  obtain ⟨hfree, -, -⟩ := hphase
  have hacquired := (sequencerStep_idle hs.phase).trans (acquire_of_one_waiting hfree hw)
  obtain ⟨u, hencoded, hu, hnibbles⟩ :=
    reaches_preWait (s := takeLock c [] s) rfl rfl hs.engine hv hroom
  have huidle : u.busy = false := by rw [hu]; exact hs.engine
  have hupolled := sequencerStep_preWait (k := 0) (by rw [hu]) huidle
  have hudev : u.dev = s.dev := by rw [hu]; rfl
  have htriggered := sequencerStep_triggering (s := { u.afterStatusRead with phase := .triggering })
    rfl huidle (by simp only [State.afterStatusRead_dev, hudev]; omega)
  refine ⟨_, (Reaches.of_sequencerStep hacquired hs.engine).trans (hencoded.trans
    ((Reaches.of_sequencerStep hupolled huidle).trans
      (Reaches.of_sequencerStep htriggered huidle))), ?_, ?params, rfl, ?room, hnibbles⟩
  · rw [hu]
    rfl
  case params =>
    simp only [State.afterStatusRead_dev, hudev]
    exact hs.inv.params
  case room =>
    simp only [State.afterStatusRead_dev, hudev, streamCommands_length]
    omega

/-! ### From the status to the return -/

theorem sequencerStep_postWait {k : Nat} (hp : s.phase = .postWait k) (hidle : s.busy = false) :
    sequencerStep s = .next { s.afterStatusRead with phase := .decoding } := by
  simp [sequencerStep, hp, postWaitStep, hidle]

theorem sequencerStep_decoding (hp : s.phase = .decoding) (hidle : s.busy = false)
    (hacked : s.ackf = 0#2) :
    sequencerStep s = .next { s.afterStatusRead with phase := .readback 0 } := by
  simp [sequencerStep, hp, decodeStep, decodeStatus, hidle, hacked]

/-- The return, the last step of `execute` (rules R192, R287). -/
theorem sequencerStep_done {c : Call} {r : Result} (hp : s.phase = .done r) (hc : s.call = some c) :
    sequencerStep s = .next (leave c r s) := by
  simp only [sequencerStep, hp, doneStep, hc]

/-- The phase of the readback at message `i`, or behind the last one (rule R193). -/
def readbackFrom (tx : Transaction) (i : Nat) : Phase :=
  if i < tx.length then .readback i else .done .ok

theorem readBytes_append (tx ux : Transaction) :
    readBytes (tx ++ ux) = readBytes tx + readBytes ux := by
  simp [readBytes]

theorem State.rbBytes_eq {j : Nat} {ds : List Byte}
    (h : ∀ k d, ds[k]? = some d → s.rbRead (j + k) = d) : s.rbBytes j ds.length = ds := by
  refine List.ext_getElem (s.rbBytes_length _ _) fun k hk hk' => ?_
  have hread := h k ds[k] (List.getElem?_eq_getElem hk')
  simpa [State.rbBytes] using hread

/-- The state with a call in hand at a phase of `execute`. -/
def State.withCall (s : State) (c : Call) (ph : Phase) : State := { s with call := some c, phase := ph }

/-- The readback of one message, its bytes in the window (rule R200). -/
theorem sequencerStep_readback_filled {thread : Nat} {front ms : List Message} {m m' : Message}
    (hm : m.Filled m') (hroom : readBytes front + m.readLength ≤ s.dev.rbCapacity)
    (hbytes : s.rbBytes (readBytes front) m'.received.length = m'.received) :
    sequencerStep (s.withCall ⟨thread, front ++ m :: ms⟩ (.readback front.length)) =
      .next (s.withCall ⟨thread, front ++ [m'] ++ ms⟩
        (readbackFrom (front ++ [m'] ++ ms) (front ++ [m']).length)) := by
  have hmessage : (front ++ m :: ms)[front.length]? = some m := by simp
  have hoffset : readOffset (front ++ m :: ms) front.length = readBytes front := by
    rw [readOffset, List.take_left]
  have hfilled : (front ++ m :: ms).set front.length m' = front ++ [m'] ++ ms := by
    rw [List.set_append_right _ _ (Nat.le_refl _), Nat.sub_self, List.set_cons_zero,
      List.append_cons]
  have hphase : afterReadback (front ++ m :: ms) front.length =
      readbackFrom (front ++ [m'] ++ ms) (front ++ [m']).length := by
    simp [afterReadback, readbackFrom]
  have hstep := readbackStep_of_room
    (s := s.withCall ⟨thread, front ++ m :: ms⟩ (.readback front.length)) rfl hmessage
    (hoffset ▸ hroom)
  have hresult : (s.withCall ⟨thread, front ++ m :: ms⟩ (.readback front.length)).rbBytes
      (readBytes front) m.readLength = m'.received := hm.received_length ▸ hbytes
  simp only [hoffset, hresult, ← hm.eq_withResult, hfilled, hphase] at hstep
  exact hstep

/-- The readback of the messages `ms` behind those of `front` fills their result buffers with the bytes that
lie in the window (rule R200). -/
theorem reaches_readback {thread : Nat} {front ms ms' : List Message}
    (h : List.Forall₂ Message.Filled ms ms') (hidle : s.busy = false)
    (hroom : readBytes (front ++ ms) ≤ s.dev.rbCapacity)
    (hbytes : ∀ k d, (receivedData ms')[k]? = some d → s.rbRead (readBytes front + k) = d) :
    Reaches
      (s.withCall ⟨thread, front ++ ms⟩ (readbackFrom (front ++ ms) front.length))
      (s.withCall ⟨thread, front ++ ms'⟩ (.done .ok)) := by
  induction h generalizing front with
  | nil =>
    have hdone : readbackFrom (front ++ []) front.length = .done .ok := if_neg (by simp)
    rw [hdone]
    exact .refl _
  | @cons m m' ms ms' hm _ ih =>
    have hreadback : readbackFrom (front ++ m :: ms) front.length = .readback front.length :=
      if_pos (by simp)
    have hdata : receivedData (m' :: ms') = m'.received ++ receivedData ms' := by
      rw [receivedData_eq, receivedData_eq, List.flatMap_cons]
    have hfront : readBytes (front ++ [m']) = readBytes front + m'.received.length := by
      rw [readBytes_append, m'.received_length]
      rfl
    have hone : readBytes [m] = m.readLength := rfl
    rw [List.append_cons, readBytes_append, readBytes_append, hone] at hroom
    rw [hdata] at hbytes
    have hstep := sequencerStep_readback_filled (thread := thread) (ms := ms) hm (by omega)
      (State.rbBytes_eq fun k d hd => hbytes k d (by
        rw [List.getElem?_append_left (List.getElem?_eq_some_iff.1 hd).1, hd]))
    rw [hreadback, List.append_cons front m' ms']
    refine (Reaches.of_sequencerStep hstep hidle).trans (ih ?_ fun k d hd => ?_)
    · rw [readBytes_append, hfront, hm.received_length]
      exact hroom
    · rw [hfront, Nat.add_assoc]
      exact hbytes _ d (by rw [List.getElem?_append_right (by omega), Nat.add_sub_cancel_left, hd])

/-- After a playback that was acknowledged the call returns `Ok`, its result buffers filled from the
readback window (rules R193, R200, R229). -/
theorem reaches_ok {c : Call} {k : Nat} {tx' : Transaction} (hidle : s.busy = false)
    (hacked : s.ackf = 0#2) (hp : s.phase = .postWait k) (hc : s.call = some c)
    (hpos : 0 < c.tx.length) (hfilled : List.Forall₂ Message.Filled c.tx tx')
    (hroom : readBytes c.tx ≤ s.dev.rbCapacity)
    (hbytes : ∀ k d, (receivedData tx')[k]? = some d → s.rbRead k = d) :
    Reaches s (leave { c with tx := tx' } .ok { s with draws := s.draws + 2 }) := by
  have hpolled := sequencerStep_postWait hp hidle
  have hdecoded := sequencerStep_decoding (s := { s.afterStatusRead with phase := .decoding })
    rfl hidle hacked
  have hfirst : readbackFrom c.tx 0 = .readback 0 := if_pos hpos
  have hreadback := reaches_readback (s := { s with draws := s.draws + 2 }) (front := [])
    (thread := c.thread) hfilled hidle hroom fun k d hd =>
      (congrArg s.rbRead (Nat.zero_add k)).trans (hbytes k d hd)
  have hbegun : State.withCall { s with draws := s.draws + 2 } c (readbackFrom c.tx 0) =
      { s with draws := s.draws + 2, phase := .readback 0 } := by
    rw [hfirst, State.withCall, ← hc]
  exact (Reaches.of_sequencerStep hpolled hidle).trans
    ((Reaches.of_sequencerStep hdecoded hidle).trans
      ((hbegun ▸ hreadback).trans (Reaches.of_sequencerStep (sequencerStep_done rfl rfl) hidle)))

/-! ### The whole of a transfer -/

/-- An acknowledged playback right after a trigger: what O50 says of its bus and O51 of its events and bytes
is said of one state. -/
theorem exists_play_acknowledged {tx : Transaction} {rest : List Level} (hv : validate tx = true)
    (hclock : s.scl = true) (hdata : s.sdam = true) (hbits : s.rcnt = 0) (hptr : s.rptr = 0)
    (hroom : readBytes tx ≤ s.dev.rbCapacity) (hslave : s.slave = slaveAnswers tx ++ rest) :
    ∃ t, play (streamCommands tx) s = .next t ∧ (t.scl = true ∧ t.sdam = true ∧ t.rcnt = 0) ∧
      t.busy = s.busy ∧ t.wire = s.wire ++ busEvents tx ∧ t.ackf = s.ackf ∧ t.slave = rest ∧
      ∀ k d, (receivedData tx)[k]? = some d → t.rbRead k = d := by
  have hwindow : s.rptr + readBytes tx ≤ s.dev.rbCapacity := by rwa [hptr, Nat.zero_add]
  obtain ⟨t, -, hplay, htclock, htdata, htbits, hbusy, -⟩ :=
    busIsIdleAfterPlayback s tx hv hclock hdata hbits hwindow
  obtain ⟨t', hplay', hwire, hacked, hrest, -, hread, -⟩ :=
    playbackPutsTransactionOnBus s tx rest hv hclock hdata hbits hwindow hslave
  obtain rfl : t = t' := by simpa [hplay] using hplay'
  simp only [hptr, Nat.zero_add] at hread
  exact ⟨t, hplay, ⟨htclock, htdata, htbits⟩, hbusy, hwire, hacked, hrest, hread⟩

/-- The playback that the schedule lets run first, up to the engine's stop. -/
theorem Triggered.reaches_played {c : Call} {later : List Agent} (h : Triggered c s t)
    (hsched : s.sched = List.replicate (commandCount c.tx + 1) .engine ++ later)
    (hplay : play (streamCommands c.tx) t = .next u) (hbusy : u.busy = t.busy) :
    Reaches t { u with
      fp := t.fp + (streamCommands c.tx).length + 1, sched := later, busy := false } := by
  obtain ⟨ht, hstream⟩ := h
  refine hstream.reaches ?_ ?_ hplay (hbusy.trans hstream.busy)
  · rw [ht]
    rfl
  · rw [streamCommands_length, ht]
    exact hsched

/-- Settles O53: the trigger, the playback that the schedule lets run first, and the return. -/
theorem transferReturnsOk : Obligations.TransferReturnsOk := by
  intro s c tx' rest later hs _ _ hw hv hfits hshape hslave hsched
  have hfilled := filled_of_sameShape hshape
  obtain ⟨-, hroom⟩ := fits_iff.1 hfits
  obtain ⟨t, hcalled, htriggered⟩ := hs.reaches_triggered hw hv hfits
  have ht := htriggered.frame
  have hready : t.scl = true ∧ t.sdam = true ∧ t.rcnt = 0 ∧ t.rptr = 0 := by
    rw [ht]
    exact ⟨hs.clock, hs.data, rfl, rfl⟩
  obtain ⟨hclock, hdata, hbits, hptr⟩ := hready
  obtain ⟨u, hplay, hidle, hbusy, hwire, hacked, hrest, hread⟩ :=
    exists_play_acknowledged ((validate_of_filled hfilled).trans hv) hclock hdata hbits hptr
      (by rw [readBytes_of_filled hfilled, ht]; exact hroom) (by rw [ht]; exact hslave)
  rw [streamCommands_of_filled hfilled] at hplay
  have hu := play_changes hplay
  have hplayed := htriggered.reaches_played hsched hplay hbusy
  have hreturned := reaches_ok (c := c) (k := 0) (tx' := tx')
    (s := { u with
      fp := t.fp + (streamCommands c.tx).length + 1, sched := later, busy := false })
    rfl (hacked.trans (by rw [ht])) (by rw [hu, ht]) (by rw [hu, ht]) (validate_length_pos hv) hfilled
    (by rw [hu, ht]; exact hroom) hread
  have hreach := hcalled.trans (hplayed.trans hreturned)
  have ⟨n, hrun⟩ := hreach
  obtain ⟨huclock, hudata, hubits⟩ := hidle
  refine ⟨n, _, hrun, ?returned, hwire.trans (by rw [ht]), hacked.trans (by rw [ht]), ?waiting, hrest,
    rfl, rfl, hreach.keeps_inv hs.inv, rfl, rfl, huclock, hudata, hubits⟩
  case returned =>
    rw [hu, ht]
    rfl
  case waiting =>
    rw [hu, ht]
    rfl

end Sys2Proof.Machine
end

section
/-! PROOFS. The Flush & Status Controller: the termination, the polls of the two waits, the decode of the
status, and which step ends a transfer in which error: the statements of file 44_flush_status.md. -/

namespace Sys2Proof.Machine

variable {s t : State}

/-! ### The termination (rule R221) -/

/-- The padding included, two `End` commands after an even count and three after an odd one. -/
theorem terminateCommands_eq_replicate (q : Session) :
    terminateCommands q.latchFull = List.replicate (if q.ncmd % 2 = 0 then 2 else 3) .endCmd := by
  rcases Nat.mod_two_eq_zero_or_one q.ncmd with heven | hodd
  · rw [Session.latchFull_eq_false_iff.2 heven, if_pos heven]
    rfl
  · rw [Session.latchFull_iff.2 hodd, if_neg (by omega)]
    rfl

/-- Settles O20: the emission of the termination's commands, which bring the count to an even number. -/
theorem terminateEmits : Obligations.TerminateEmits := by
  intro s q hroom
  have ⟨hq, _, _⟩ := hroom
  have hexec : exec .terminate s = emitAll (terminateCommands q.latchFull) s := execTerminate_eq hq
  rw [terminateCommands_eq_replicate] at hexec
  obtain ⟨t, ht, hemitted⟩ := emitAll_emitted
    (cs := List.replicate (if q.ncmd % 2 = 0 then 2 else 3) .endCmd) (by rwa [List.length_replicate])
  have ⟨r, hr, hcount, _⟩ := hemitted
  refine ⟨t, hexec.trans ht, hemitted, fun q' hq' => ?_⟩
  obtain rfl : r = q' := Option.some.inj (hr.symm.trans hq')
  rw [hcount, List.length_replicate]
  split <;> omega

/-! ### The polls of the two waits (rules R222, R223, R226) -/

@[simp] theorem boundExhausted_inf (k : Nat) : boundExhausted .inf k = false := rfl

@[simp] theorem boundExhausted_finite (n k : Nat) : boundExhausted (.finite n) k = decide (n ≤ k) := rfl

/-- Where the poll of index `k` of the pre-trigger wait leads. -/
def State.afterPrePoll (s : State) (k : Nat) : Phase :=
  if s.busy then
    if boundExhausted s.dev.preWaitBound k then .done (.error .timeout) else .preWait (k + 1)
  else .triggering

/-- Where the poll of index `k` of the post-trigger wait leads. -/
def State.afterPostPoll (s : State) (k : Nat) : Phase :=
  if s.busy && !boundExhausted s.dev.postWaitBound k then .postWait (k + 1) else .decoding

/-- A poll of the pre-trigger wait reads the status once and moves the phase on. -/
theorem sequencerStep_prePoll {k : Nat} (hp : s.phase = .preWait k) :
    sequencerStep s = .next { s.afterStatusRead with phase := s.afterPrePoll k } := by
  simp only [sequencerStep, hp, preWaitStep, State.afterPrePoll]
  rw [State.statusWord_busy]
  split_ifs <;> rfl

/-- A poll of the post-trigger wait reads the status once and moves the phase on. -/
theorem sequencerStep_postPoll {k : Nat} (hp : s.phase = .postWait k) :
    sequencerStep s = .next { s.afterStatusRead with phase := s.afterPostPoll k } := by
  simp only [sequencerStep, hp, postWaitStep, State.afterPostPoll]
  rw [State.statusWord_busy]
  split_ifs <;> rfl

/-- Settles O30: by what the poll reads and by the bound. -/
theorem preTriggerWait : Obligations.PreTriggerWait := by
  intro s k hp
  refine ⟨_, sequencerStep_prePoll hp, rfl, fun hidle => ?_, fun hbusy hinf => ?_,
    fun n hbusy hfinite => ?_⟩
  · simp [State.afterPrePoll, hidle]
  · simp [State.afterPrePoll, hbusy, hinf]
  · simp [State.afterPrePoll, hbusy, hfinite]

/-- Settles O31: by what the poll reads and by the bound. -/
theorem postTriggerWait : Obligations.PostTriggerWait := by
  intro s k hp
  refine ⟨_, sequencerStep_postPoll hp, rfl, fun hidle => ?_, fun hbusy hinf => ?_,
    fun n hbusy hfinite => ?_⟩
  · simp [State.afterPostPoll, hidle]
  · simp [State.afterPostPoll, hbusy, hinf]
  · by_cases hn : n ≤ k <;> simp [State.afterPostPoll, hbusy, hfinite, hn]

/-! ### The decode of the status (rules R227, R228) -/

section
variable {w : Nat} {x : StatusWord w}

theorem decodeStatus_of_busy (hbusy : x.busy = true) : decodeStatus x = .error .driverMalfunction := by
  simp [decodeStatus, hbusy]

theorem decodeStatus_of_missed_ack (hidle : x.busy = false) (hackf : x.ackf ≠ 0#2) :
    decodeStatus x = .error .ackFailure := by
  simp [decodeStatus, hidle, hackf]

theorem decodeStatus_of_acked (hidle : x.busy = false) (hackf : x.ackf = 0#2) :
    decodeStatus x = .ok := by
  simp [decodeStatus, hidle, hackf]

/-- The decoder knows two errors, `DriverMalfunction` for a running engine only. -/
theorem decodeStatus_eq_error {e : BusError} (h : decodeStatus x = .error e) :
    (e = .driverMalfunction ∧ x.busy = true) ∨ e = .ackFailure := by
  unfold decodeStatus at h
  split_ifs at h with hbusy <;> cases h
  · exact .inl ⟨rfl, hbusy⟩
  · exact .inr rfl

end

/-- The acknowledgement field of a word given as bits is its bits 1 and 2. -/
theorem StatusWord.ofBits_ackf_ne_zero {w : Nat} (b : BitVec (w + 2 + 1)) :
    (StatusWord.ofBits b).ackf ≠ 0#2 ↔ b.getLsbD 1 = true ∨ b.getLsbD 2 = true := by
  have hbits : ∀ a : BitVec 2, a ≠ 0#2 ↔ a.getLsbD 0 = true ∨ a.getLsbD 1 = true := by decide
  rw [hbits]
  simp [StatusWord.ofBits]

/-- `decode_status` on the bits of a word. -/
theorem decodeStatus_ofBits {w : Nat} (b : BitVec (w + 2 + 1)) :
    decodeStatus (StatusWord.ofBits b) =
      if b.getLsbD 0 = true then .error .driverMalfunction
      else if b.getLsbD 1 = true ∨ b.getLsbD 2 = true then .error .ackFailure
      else .ok := by
  have hackf := StatusWord.ofBits_ackf_ne_zero b
  split_ifs with hbusy hmissed
  · exact decodeStatus_of_busy hbusy
  · exact decodeStatus_of_missed_ack (Bool.eq_false_iff.2 hbusy) (hackf.2 hmissed)
  · exact decodeStatus_of_acked (Bool.eq_false_iff.2 hbusy) (not_not.1 (mt hackf.1 hmissed))

/-- Where the decode of a status leads. -/
def phaseAfterDecode : Result → Phase
  | .ok => .readback 0
  | .error e => .done (.error e)

/-- The decode reads the status once and moves the phase on. -/
theorem sequencerStep_decode (hp : s.phase = .decoding) :
    sequencerStep s =
      .next { s.afterStatusRead with phase := phaseAfterDecode (decodeStatus s.statusWord) } := by
  simp only [sequencerStep, hp, decodeStep]
  cases decodeStatus s.statusWord <;> rfl

/-- Behind an unbounded wait the decode finds the engine idle (decision D15). -/
theorem Inv.idle_at_decode (hs : Inv s) (hp : s.phase = .decoding) (hinf : s.dev.postWaitBound = .inf) :
    s.busy = false := by
  have hphase := hs.phases
  simp only [State.phaseOk, hp] at hphase
  obtain ⟨-, -, hidle⟩ := hphase
  exact hidle hinf

/-- Behind an unbounded wait the decode knows no error but `AckFailure` (decision D15). -/
theorem Inv.decode_error (hs : Inv s) (hp : s.phase = .decoding) (hinf : s.dev.postWaitBound = .inf)
    {e : BusError} (h : decodeStatus s.statusWord = .error e) : e = .ackFailure := by
  rcases decodeStatus_eq_error h with ⟨-, hbusy⟩ | he
  · rw [State.statusWord_busy, hs.idle_at_decode hp hinf] at hbusy
    cases hbusy
  · exact he

/-- The decode ends the transfer in the error that the status decodes to, and in that one only. -/
theorem phaseAfterDecode_eq_error {r : Result} {e : BusError} :
    phaseAfterDecode r = .done (.error e) ↔ r = .error e := by
  cases r <;> simp [phaseAfterDecode]

/-- Settles O26: the decoder bit by bit, and the decode of the status that the sequencer reads. -/
theorem statusIsDecoded : Obligations.StatusIsDecoded := by
  refine ⟨fun _ => decodeStatus_ofBits, fun s hp => ⟨_, sequencerStep_decode hp, rfl, fun hbusy => ?_,
    fun hidle hackf => ?_, fun hidle hackf => ?_, fun hs hinf hdone => ?_⟩⟩
  · exact congrArg phaseAfterDecode (decodeStatus_of_busy hbusy)
  · exact congrArg phaseAfterDecode (decodeStatus_of_missed_ack hidle hackf)
  · exact congrArg phaseAfterDecode (decodeStatus_of_acked hidle hackf)
  · cases hs.decode_error hp hinf (phaseAfterDecode_eq_error.1 hdone)

/-! ### Which step raises which error (rules R223, R227, R281, R283, R284) -/

theorem State.afterPrePoll_eq_error {k : Nat} {e : BusError} (h : s.afterPrePoll k = .done (.error e)) :
    boundExhausted s.dev.preWaitBound k = true ∧ e = .timeout := by
  unfold State.afterPrePoll at h
  split_ifs at h with _ hexhausted
  cases h
  exact ⟨hexhausted, rfl⟩

/-- Moving on among the encoder's actions does not end a transfer. -/
theorem advance_phase_ne_done {r : Result} (h : s.phase ≠ .done r) : (advance s).phase ≠ .done r := by
  cases hp : s.phase <;> simp only [advance, hp]
  case encoding i =>
    split
    · split
      · simp
      · split <;> simp
    · simp [hp]
  case done => exact hp ▸ h
  all_goals simp

/-- Carrying out an action does not end a transfer. -/
theorem actionStep_phase_ne_done {r : Result} (hp : s.phase ≠ .done r) (h : actionStep s = .next t) :
    t.phase ≠ .done r := by
  obtain ⟨cs, u, hu, rfl⟩ := actionStep_next h
  refine advance_phase_ne_done ?_
  rw [emitAll_changes hu]
  exact hp

/-- The readback ends a transfer in `Ok` only. -/
theorem afterReadback_ne_error (tx : Transaction) (i : Nat) (e : BusError) :
    afterReadback tx i ≠ .done (.error e) := by
  unfold afterReadback
  split <;> simp

/-- A step of the sequencer that ends a transfer in an error is the validation, a poll of the pre-trigger
wait that uses up its bound, or the decode. -/
theorem sequencerStep_raises {e : BusError} (h : sequencerStep s = .next t)
    (ht : t.phase = .done (.error e)) :
    (s.phase = .validating ∧ e = .unsupportedTransaction) ∨
      (∃ k, s.phase = .preWait k ∧ boundExhausted s.dev.preWaitBound k = true ∧ e = .timeout) ∨
        (s.phase = .decoding ∧ decodeStatus s.statusWord = .error e) := by
  cases hp : s.phase
  case preWait k =>
    rw [sequencerStep_prePoll hp] at h
    cases h
    exact .inr (.inl ⟨k, rfl, State.afterPrePoll_eq_error ht⟩)
  case decoding =>
    rw [sequencerStep_decode hp] at h
    cases h
    exact .inr (.inr ⟨rfl, phaseAfterDecode_eq_error.1 ht⟩)
  all_goals simp only [sequencerStep, hp] at h
  case validating =>
    obtain ⟨c, -, ⟨-, rfl⟩ | ⟨-, rfl⟩⟩ := validateStep_next h <;> cases ht
    exact .inl ⟨rfl, rfl⟩
  all_goals exfalso
  case idle =>
    rcases acquire_next h with rfl | ⟨-, c, -, hstate⟩
    · simp [hp] at ht
    · rw [hstate] at ht
      cases ht
  case encoding | stopping | terminating =>
    exact actionStep_phase_ne_done (by simp [hp]) h ht
  case triggering =>
    obtain ⟨-, rfl⟩ := triggerStep_next h
    cases ht
  case postWait =>
    obtain rfl | ⟨-, rfl⟩ := postWaitStep_next h <;> cases ht
  case readback i =>
    obtain ⟨c, m, -, -, rfl⟩ := readbackStep_next h
    exact afterReadback_ne_error c.tx i e ht
  case done =>
    obtain ⟨c, -, rfl⟩ := doneStep_next h
    cases ht

/-- With unbounded waits a step of the sequencer ends a transfer in two kinds of error at most. -/
theorem sequencerStep_raises_unbounded {e : BusError} (hs : Inv s) (hpre : s.dev.preWaitBound = .inf)
    (hpost : s.dev.postWaitBound = .inf) (h : sequencerStep s = .next t)
    (ht : t.phase = .done (.error e)) : e = .unsupportedTransaction ∨ e = .ackFailure := by
  rcases sequencerStep_raises h ht with ⟨-, he⟩ | ⟨k, -, hexhausted, -⟩ | ⟨hp, hdecode⟩
  · exact .inl he
  · rw [hpre, boundExhausted_inf] at hexhausted
    cases hexhausted
  · exact .inr (hs.decode_error hp hpost hdecode)

/-- Settles O33: the engine leaves the phase alone, and the sequencer raises neither error. -/
theorem unboundedWaitsRaiseNothing : Obligations.UnboundedWaitsRaiseNothing := by
  intro s t hs hpre hpost h e he hp ht
  rcases step_cases h with rfl | ⟨sched, draws, ⟨-, h⟩ | ⟨-, h⟩⟩
  · exact hp ht
  · obtain ⟨c, -, hc⟩ := engineStep_next h
    exact hp ((exec_command_next hc).1.phase.symm.trans ht)
  · have hs : Inv { s with sched := sched, draws := draws } := hs.of_fetch_and_choice
    rcases sequencerStep_raises_unbounded hs hpre hpost h ht with rfl | rfl <;> simp at he

end Sys2Proof.Machine
end

section
/-! PROOFS. The Tuner Frequency Programmer: the frequency word, the spur table, the polling and the register
program: the statements of file 45_tuner_client.md. -/

namespace Sys2Proof.Machine

/-! ### The frequency word (rules R252, R253)

An iteration halves the divisor of the division with remainder that it is given, so the six of them divide
the target by `1000000 / 2 ^ 6 = 15625`. -/

/-- From quotient and remainder by `2 * d` to those by `d`. -/
theorem freqIteration_div_mod {d : Nat} (hd : 0 < d) (n : Nat) :
    freqIteration (n / (2 * d)) (n % (2 * d)) (2 * d) = (n / d, n % d, d) := by
  have hhalf : 2 * d / 2 = d := Nat.mul_div_cancel_left d (by decide)
  have hdiv : n / (2 * d) = n / d / 2 := by rw [mul_comm, Nat.div_div_eq_div_mul]
  have hmod : n % (2 * d) = n % d + d * (n / d % 2) := by rw [mul_comm, Nat.mod_mul]
  have hlt : n % d < d := Nat.mod_lt n hd
  unfold freqIteration
  rw [hhalf, hdiv, hmod]
  rcases Nat.mod_two_eq_zero_or_one (n / d) with heven | hodd
  · rw [heven, if_neg (by omega)]
    congr 1
    omega
  · rw [hodd, mul_one, if_pos (by omega), Nat.add_sub_cancel]
    congr 1
    omega

/-- `k` iterations from quotient and remainder by `2 ^ k * d`, by induction on `k`. -/
theorem freqIterations_div_mod {d : Nat} (hd : 0 < d) (n k : Nat) :
    freqIterations k (n / (2 ^ k * d), n % (2 ^ k * d), 2 ^ k * d) = (n / d, n % d, d) := by
  induction k with
  | zero => simp [freqIterations]
  | succ k ih =>
    rw [pow_succ', mul_assoc, freqIterations, freqIteration_div_mod (by positivity), ih]

/-- The bump rounds to nearest: a leftover above 7812 is one that 7812 more carry to the next unit. -/
theorem freqWord_eq (f : BitVec 32) : freqWord f = (f.toNat + 7812) / 15625 := by
  have hiterations := freqIterations_div_mod (d := 15625) (by decide) f.toNat 6
  norm_num only at hiterations
  rw [freqWord, hiterations, freqBump]
  split <;> omega

/-- Settles O56: the closed form of the word is a truncating division, which is monotone. -/
theorem frequencyWordIsMonotone : Obligations.FrequencyWordIsMonotone := by
  intro f g hfg
  rw [freqWord_eq, freqWord_eq]
  exact Nat.div_le_div_right (Nat.add_le_add_right hfg 7812)

/-- Settles O57, by the closed form of the word. -/
theorem frequencyWordRoundsToNearest : Obligations.FrequencyWordRoundsToNearest := by
  intro f
  rw [freqWord_eq]
  omega

/-! ### Spur avoidance (rule R255) -/

theorem SpurEntry.covers_iff {e : SpurEntry} {target : Nat} :
    e.covers target = true ↔ target ≤ e.center + e.tolerance ∧ e.center ≤ target + e.tolerance := by
  simp [SpurEntry.covers]

theorem SpurEntry.covers_center (e : SpurEntry) : e.covers e.center = true :=
  SpurEntry.covers_iff.2 ⟨Nat.le_add_right _ _, Nat.le_add_right _ _⟩

section
variable {before : List SpurEntry} {inert : SpurShift} {target : Nat}

/-- Outside every range the lookup answers the inert value. -/
theorem spurLookup_of_uncovered (h : ∀ d ∈ before, ¬ d.covers target = true) :
    spurLookup before inert target = inert := by
  rw [spurLookup, List.find?_eq_none.2 h]

/-- The first entry that covers the target decides. -/
theorem spurLookup_of_first {e : SpurEntry} (h : ∀ d ∈ before, ¬ d.covers target = true)
    (he : e.covers target = true) (after : List SpurEntry) :
    spurLookup (before ++ e :: after) inert target = e.shift := by
  have hfind : (e :: after).find? (fun d => d.covers target) = some e := List.find?_cons_of_pos he
  rw [spurLookup, List.find?_append, List.find?_eq_none.2 h, Option.none_or, hfind]

end

/-- Settles O58: the entry after those that do not cover the target is the first that does. -/
theorem spurLookupIsFirstFit : Obligations.SpurLookupIsFirstFit := by
  intro before after e inert target hbefore
  simp only [← SpurEntry.covers_iff] at hbefore ⊢
  refine ⟨spurLookup_of_uncovered hbefore, fun he => spurLookup_of_first hbefore he after, ?_⟩
  rintro rfl
  exact spurLookup_of_first hbefore e.covers_center after

/-! ### The polling (rules R257 to R259) -/

section
variable {dev : TunerDevice}

/-- A poll that shows both bits ends the polling, whatever its number. -/
theorem tuneNext_of_lock {b : Byte} (h : b &&& dev.lockMask = dev.lockMask) (a : Nat) :
    tuneNext dev (.polling a) .ok (dev.lockStatus.transaction b) = .gainControl := by
  simp [tuneNext, lockSeen_transaction, h]

/-- A poll that does not show both bits is followed by another, unless it is the hundredth. -/
theorem tuneNext_of_no_lock {b : Byte} (h : b &&& dev.lockMask ≠ dev.lockMask) (a : Nat) :
    tuneNext dev (.polling a) .ok (dev.lockStatus.transaction b) =
      if a + 1 < tunePolls then .polling (a + 1) else .timedOut := by
  simp [tuneNext, lockSeen_transaction, h]

/-- The state after polls that never show both bits, by induction on the polls from the last one on. -/
theorem foldl_polls_of_no_lock {polls : List Byte}
    (h : ∀ p ∈ polls, p &&& dev.lockMask ≠ dev.lockMask) (hlength : polls.length ≤ 100) :
    polls.foldl (fun st p => tuneNext dev st .ok (dev.lockStatus.transaction p)) (.polling 0) =
      if polls.length = 100 then .timedOut else .polling polls.length := by
  induction polls using List.reverseRecOn with
  | nil => rfl
  | append_singleton polls p ih =>
    obtain ⟨hpolls, hp⟩ := List.forall_mem_append.1 h
    rw [List.length_append, List.length_singleton] at hlength ⊢
    rw [List.foldl_append, ih hpolls (by omega), if_neg (by omega), List.foldl_cons, List.foldl_nil,
      tuneNext_of_no_lock (hp p List.mem_cons_self), tunePolls]
    rcases hlength.lt_or_eq with hlt | heq
    · rw [if_pos hlt, if_neg hlt.ne]
    · rw [if_neg heq.not_lt, if_pos heq]

end

/-- A byte shows the mask when it has every bit of the mask. -/
theorem and_mask_eq_iff {b m : Byte} :
    b &&& m = m ↔ ∀ k < 8, m.getLsbD k = true → b.getLsbD k = true := by
  constructor
  · intro h k _ hk
    rw [← h, BitVec.getLsbD_and, Bool.and_eq_true] at hk
    exact hk.1
  · intro h
    refine BitVec.eq_of_getLsbD_eq fun k hk => ?_
    rw [BitVec.getLsbD_and, Bool.and_eq_right_iff_imp]
    exact h k hk

/-- A predicate that counts to two below `n` holds at exactly two places. -/
theorem exists_two_of_countP_range {p : Nat → Bool} {n : Nat} (h : (List.range n).countP p = 2) :
    ∃ i j, i < j ∧ j < n ∧ ∀ k < n, p k = true ↔ k = i ∨ k = j := by
  rw [List.countP_eq_length_filter] at h
  obtain ⟨i, j, hij⟩ := List.length_eq_two.1 h
  have hmem : ∀ k, k < n ∧ p k = true ↔ k = i ∨ k = j := fun k => by
    rw [← List.mem_range, ← List.mem_filter, hij, List.mem_pair]
  have hsorted : [i, j].Pairwise (· < ·) := hij ▸ List.pairwise_lt_range.filter p
  exact ⟨i, j, List.pairwise_pair.1 hsorted, ((hmem j).2 (.inr rfl)).1, fun k hk => by
    rw [← hmem k, and_iff_right hk]⟩

/-- `LOCK_MASK` stands for two bits of the status (rule R257). -/
theorem TunerDevice.lockMask_two_bits {dev : TunerDevice} (h : dev.masksTwoBits = true) :
    ∃ i j : Nat, i < j ∧ j < 8 ∧ ∀ b : Byte,
      b &&& dev.lockMask = dev.lockMask ↔ b.getLsbD i = true ∧ b.getLsbD j = true := by
  obtain ⟨i, j, hij, hj, hmask⟩ := exists_two_of_countP_range (beq_iff_eq.1 h)
  refine ⟨i, j, hij, hj, fun b => ?_⟩
  rw [and_mask_eq_iff]
  constructor
  · intro hb
    exact ⟨hb i (hij.trans hj) ((hmask i (hij.trans hj)).2 (.inl rfl)),
      hb j hj ((hmask j hj).2 (.inr rfl))⟩
  · rintro ⟨hbi, hbj⟩ k hk hmk
    rcases (hmask k hk).1 hmk with rfl | rfl
    · exact hbi
    · exact hbj

theorem TunerDevice.wf_iff {dev : TunerDevice} :
    dev.wf = true ↔ dev.carriesWord = true ∧ dev.masksTwoBits = true := by
  rw [TunerDevice.wf, Bool.and_eq_true]

/-- Settles O59: the state after polls without lock, and the two bits that the mask has. -/
theorem tunePollsAtMostHundredTimes : Obligations.TunePollsAtMostHundredTimes := by
  refine ⟨fun dev polls b tx e hpolls hlength => ?_,
    fun dev hwf => TunerDevice.lockMask_two_bits (TunerDevice.wf_iff.1 hwf).2⟩
  have hstate := foldl_polls_of_no_lock hpolls hlength
  refine ⟨hstate, fun hhundred => ⟨?_, rfl, rfl⟩,
    fun _ => ⟨rfl, fun hlock => tuneNext_of_lock hlock _, rfl, rfl⟩, rfl, rfl, rfl⟩
  rw [hstate, if_pos hhundred]
  rfl

/-! ### The register program: one transfer after the other (rules R251, R256) -/

/-- The state in which the transfers `todo` of the register program are still to be made. -/
def programmingState : List Transaction → TuneState
  | [] => .polling 0
  | tx :: txs => .programming (tx :: txs)

section
variable {dev : TunerDevice}

/-- A transfer that succeeds leaves those after it to be made. -/
theorem tuneNext_programmingState (tx : Transaction) (txs : List Transaction) (r : Transaction) :
    tuneNext dev (programmingState (tx :: txs)) .ok r = programmingState txs := by
  cases txs <;> rfl

/-- A transfer that fails ends the machine, whatever is left to be made. -/
theorem tuneNext_programmingState_error (tx : Transaction) (txs : List Transaction) (e : BusError)
    (r : Transaction) : tuneNext dev (programmingState (tx :: txs)) (.error e) r = .failed e := by
  cases txs <;> rfl

/-- The state after the transfers `done`, which leave the rest of the program to be made. -/
theorem foldl_programmingState {done todo : List Transaction} (h : done.length ≤ todo.length) :
    done.foldl (fun st r => tuneNext dev st .ok r) (programmingState todo) =
      programmingState (todo.drop done.length) := by
  induction done generalizing todo with
  | nil => rfl
  | cons r done ih =>
    cases todo with
    | nil => simp at h
    | cons tx todo =>
      rw [List.foldl_cons, tuneNext_programmingState, ih (Nat.le_of_succ_le_succ h), List.length_cons,
        List.drop_succ_cons]

end

/-! ### The register program: its messages (rules R254, R256) -/

/-- The messages of a program are those that were grouped, in order. -/
theorem tunerProgram_flatten (dev : TunerDevice) (f : Nat) (shift : SpurShift) :
    (tunerProgram dev f shift).flatten = programMessages dev f shift := by
  rw [tunerProgram, groupMessages_flatten, List.nil_append]

theorem tunerProgram_ne_nil (dev : TunerDevice) (f : Nat) (shift : SpurShift) :
    tunerProgram dev f shift ≠ [] := by
  intro h
  have hflatten := tunerProgram_flatten dev f shift
  rw [h, programMessages] at hflatten
  simp at hflatten

/-- A program has a transaction, so that `tune` starts with its transfers. -/
theorem tuneStart_eq (dev : TunerDevice) (targetHz : BitVec 32) :
    tuneStart dev targetHz = programmingState (tunerProgram dev (freqWord targetHz)
      (spurLookup dev.spurTable dev.inert targetHz.toNat)) := by
  obtain ⟨tx, txs, h⟩ := List.exists_cons_of_ne_nil (tunerProgram_ne_nil dev (freqWord targetHz)
    (spurLookup dev.spurTable dev.inert targetHz.toNat))
  rw [tuneStart, h, programmingState]

/-- Each transaction of a program has one to three messages, all writes. -/
theorem tunerProgram_valid (dev : TunerDevice) (f : Nat) (shift : SpurShift) :
    ∀ tx ∈ tunerProgram dev f shift, validate tx = true := by
  intro tx htx
  obtain ⟨hne, hlength⟩ := groupMessages_length (by decide) tx htx
  refine validate_writes hne hlength fun m hm => programMessages_write dev f shift m ?_
  rw [← tunerProgram_flatten]
  exact List.mem_flatten_of_mem htx hm

/-! ### The two bytes of the frequency word (rule R254) -/

section
variable {dev : TunerDevice} {f : Nat}

theorem frequencyBytes_of_lt (h : f < 2 ^ 16) :
    frequencyBytes dev f = (layoutByte dev.frequencyFirst f, layoutByte dev.frequencySecond f) :=
  if_pos h

/-- A byte determines the bits of the word that its layout carries. -/
theorem testBit_eq_of_layoutByte_eq {l : ByteLayout} {g : Nat} (h : layoutByte l f = layoutByte l g)
    {k : Fin 16} (hk : k ∈ l.toList) : f.testBit k.val = g.testBit k.val := by
  obtain ⟨i, hi, rfl⟩ := Vector.mem_iff_getElem.1 (Vector.mem_toList_iff.1 hk)
  rw [← layoutByte_bit l f i hi, ← layoutByte_bit l g i hi, h]

theorem TunerDevice.mem_layouts (h : dev.carriesWord = true) (k : Fin 16) :
    k ∈ dev.frequencyFirst.toList ∨ k ∈ dev.frequencySecond.toList :=
  List.mem_append.1 (of_decide_eq_true (List.all_eq_true.1 h k (List.mem_finRange k)))

/-- Layouts that carry all sixteen bits cut none: bit by bit, a higher one being 0 in both words. -/
theorem frequencyBytes_injective {g : Nat} (h : dev.carriesWord = true) (hf : f < 2 ^ 16)
    (hg : g < 2 ^ 16) (heq : frequencyBytes dev f = frequencyBytes dev g) : f = g := by
  rw [frequencyBytes_of_lt hf, frequencyBytes_of_lt hg, Prod.mk.injEq] at heq
  obtain ⟨hfirst, hsecond⟩ := heq
  refine Nat.eq_of_testBit_eq fun k => ?_
  rcases lt_or_ge k 16 with hk | hk
  · rcases TunerDevice.mem_layouts h ⟨k, hk⟩ with hmem | hmem
    · exact testBit_eq_of_layoutByte_eq hfirst hmem
    · exact testBit_eq_of_layoutByte_eq hsecond hmem
  · have hpow : 2 ^ 16 ≤ 2 ^ k := Nat.pow_le_pow_right (by decide) hk
    rw [Nat.testBit_lt_two_pow (hf.trans_le hpow), Nat.testBit_lt_two_pow (hg.trans_le hpow)]

end

/-- Settles O60: the grouped program, whose messages stand in the order of `programMessages`, and the state
after each number of its transfers. -/
theorem tunerProgramIsInOrder : Obligations.TunerProgramIsInOrder := by
  refine ⟨fun dev targetHz => ?_, fun dev f i hi hf => ?_,
    fun dev f g hwf => frequencyBytes_injective (TunerDevice.wf_iff.1 hwf).1⟩
  · have hstart := tuneStart_eq dev targetHz
    generalize spurLookup dev.spurTable dev.inert targetHz.toNat = shift at hstart
    refine ⟨tunerProgram dev (freqWord targetHz) shift, spurMessages shift 0, spurMessages shift 1,
      spurMessages shift 2, spurMessages shift 3,
      dev.frequency.messages (frequencyBytes dev (freqWord targetHz)).1
        (frequencyBytes dev (freqWord targetHz)).2 (spurMessages shift 2),
      tunerProgram_ne_nil dev _ shift, tunerProgram_valid dev _ shift, ?_, ?_, ?_,
      fun done hdone => ?_⟩
    · rw [tunerProgram_flatten]
      simp [programMessages, RegisterWrite.message]
    · simp only [List.mem_append]
      rintro m (((h | h) | h) | h) <;> exact spurMessages_write shift _ m h
    · generalize dev.frequency = writes
      cases writes <;> rfl
    · rw [hstart, foldl_programmingState hdone]
      refine ⟨fun hall => ?_, fun tx htx => ?_⟩
      · rw [hall, List.drop_length, programmingState]
      · obtain ⟨hlt, rfl⟩ := List.getElem?_eq_some_iff.1 htx
        rw [List.drop_eq_getElem_cons hlt]
        exact ⟨rfl, tuneNext_programmingState_error _ _⟩
  · rw [frequencyBytes_of_lt hf]
    exact ⟨layoutByte_bit _ f i hi, layoutByte_bit _ f i hi⟩

end Sys2Proof.Machine
end

section
/-! PROOFS. What acknowledge samples leave in the acknowledgement bits, what a whole transfer reports of them,
and the hang of an unbounded wait: the statements of file 60_exceptions.md. -/

namespace Sys2Proof.Machine

variable {s t u : State}

/-! ### The exit actions (rules R192, R287) -/

/-- Settles O35: the last step of `execute`, its exit actions written out. -/
theorem exitActions : Obligations.ExitActions := fun _ _ _ => sequencerStep_done

/-! ### The hang of an unbounded wait (rule R293) -/

/-- With the engine not enabled a step is the sequencer's (rule R226). -/
theorem step_of_engine_disabled (h : s.engineEnabled = false) : step s = sequencerStep s := by
  cases hs : s.sequencerEnabled with
  | false => rw [step_of_nobody_enabled h hs, sequencerStep_of_disabled hs]
  | true => exact step_of_sequencer_turn (by simp [State.turn, h, hs])

/-- Beside a stuck engine, a wait whose every poll polls again goes on for as many steps as one likes. -/
theorem run_of_endless_wait {wait : Nat → Phase} {k : Nat}
    (hpoll : ∀ (u : State) (j : Nat), u.dev = s.dev → u.busy = true → u.phase = wait j →
      sequencerStep u = .next { u.afterStatusRead with phase := wait (j + 1) })
    (hstuck : s.dev.cbCapacity ≤ s.fp / 2) (hbusy : s.busy = true) (hp : s.phase = wait k) (n : Nat) :
    ∃ t, run n s = .next t ∧ t = { s with phase := wait (k + n), draws := t.draws } := by
  induction n generalizing s k with
  | zero => exact ⟨s, rfl, by rw [Nat.add_zero, ← hp]⟩
  | succ n ih =>
    have hstep : step s = .next { s.afterStatusRead with phase := wait (k + 1) } :=
      (step_of_engine_disabled (engineEnabled_past_buffer hstuck)).trans (hpoll s k rfl hbusy hp)
    obtain ⟨t, hrun, ht⟩ := ih (s := { s.afterStatusRead with phase := wait (k + 1) }) (k := k + 1)
      hpoll hstuck hbusy rfl
    refine ⟨t, by rw [run, hstep, andThen_next, hrun], ?_⟩
    rw [ht, Nat.add_right_comm, Nat.add_assoc]
    rfl

/-- Settles O32: without a bound each poll of either wait that reads a running engine polls again. -/
theorem unboundedWaitHangs : Obligations.UnboundedWaitHangs := by
  intro s k n hbusy hstuck
  refine ⟨fun hp hinf => run_of_endless_wait (fun u j hdev hu hj => ?pre) hstuck hbusy hp n,
    fun hp hinf => run_of_endless_wait (fun u j hdev hu hj => ?post) hstuck hbusy hp n⟩
  case pre =>
    have hagain : u.afterPrePoll j = .preWait (j + 1) := by
      simp [State.afterPrePoll, hu, hdev, hinf]
    rw [sequencerStep_prePoll hj, hagain]
  case post =>
    have hagain : u.afterPostPoll j = .postWait (j + 1) := by
      simp [State.afterPostPoll, hu, hdev, hinf]
    rw [sequencerStep_postPoll hj, hagain]

/-! ### Acknowledge samples and the acknowledgement bits (rules R35, R132) -/

/-- From `s` to `t` the events `es` have been recorded, and an acknowledgement bit is set exactly when one
was before or an acknowledge sample among them was 1. -/
structure AcksNoted (es : List BusEvent) (s t : State) : Prop where
  wire : t.wire = s.wire ++ es
  missed : t.ackf ≠ 0#2 ↔ s.ackf ≠ 0#2 ∨ BusEvent.acks true ∈ es

theorem AcksNoted.trans {es fs : List BusEvent} (h₁ : AcksNoted es s u) (h₂ : AcksNoted fs u t) :
    AcksNoted (es ++ fs) s t :=
  ⟨by rw [h₂.wire, h₁.wire, List.append_assoc],
    by rw [h₂.missed, h₁.missed, List.mem_append, or_assoc]⟩

/-- Events without an acknowledge sample leave the acknowledgement bits alone. -/
theorem AcksNoted.of_no_sample {es : List BusEvent} (hwire : t.wire = s.wire ++ es)
    (hackf : t.ackf = s.ackf) (hes : BusEvent.acks true ∉ es) : AcksNoted es s t :=
  ⟨hwire, by simp only [hackf, hes, or_false]⟩

/-- A change of the data line is a START, a STOP or no event. -/
theorem State.acks_not_mem_edge (s : State) (v w : Level) : BusEvent.acks w ∉ s.edge v := by
  cases v
  · rw [s.edge_false]
    split <;> simp
  · rw [s.edge_true]
    split <;> simp

/-- Collecting a bit records nothing and notes no acknowledgement. -/
theorem collectBit_bus {v : Level} (h : collectBit v s = .next t) :
    t.wire = s.wire ∧ t.ackf = s.ackf := by
  rcases collectBit_eq_next.1 h with ⟨-, rfl⟩ | ⟨-, -, rfl⟩ <;> simp

/-- A sample of 1 adds a bit, a sample of 0 adds none. -/
theorem ackAfterSample_ne_zero_iff (v : Level) (e : AckSubset) (a : BitVec 2) :
    ackAfterSample v e a ≠ 0#2 ↔ a ≠ 0#2 ∨ v = true := by
  cases v with
  | false => simp [ackAfterSample]
  | true => simp [ackAfterSample_failed]

/-- `DataHighAck0` notes the level it samples (rule R132). -/
theorem exec_dataHighAck0_acksNoted (h : exec .dataHighAck0 s = .next t) :
    AcksNoted (s.edge true ++ [.acks s.slaveDrive]) s t := by
  have hexec : exec .dataHighAck0 s = execDataHighAck0 s := rfl
  rw [hexec, execDataHighAck0_eq, s.releasedSample_eq] at h
  injection h with h
  subst h
  refine ⟨?_, ?_⟩
  · rw [State.edge_true, ← List.append_assoc]
    rfl
  · rw [State.setScl_ackf, State.noteAck_ackf, ackAfterSample_ne_zero_iff]
    have hackf : (s.releasedSample (.acks s.slaveDrive)).ackf = s.ackf := rfl
    rw [hackf, List.mem_append, List.mem_singleton, BusEvent.acks.injEq, eq_comm (a := true)]
    simp only [s.acks_not_mem_edge, false_or]

/-- `DataHighRead` samples data and no acknowledgement (rule R131). -/
theorem exec_dataHighRead_acksNoted (h : exec .dataHighRead s = .next t) :
    AcksNoted (s.edge true ++ [.rbit s.slaveDrive]) s t := by
  rw [exec_dataHighRead_eq] at h
  obtain ⟨u, hu, h⟩ := andThen_eq_next.1 h
  injection h with h
  subst h
  obtain ⟨hwire, hackf⟩ := collectBit_bus hu
  refine .of_no_sample ?_ hackf (by simp [s.acks_not_mem_edge])
  rw [State.edge_true, ← List.append_assoc]
  exact hwire

/-- A bit command samples nothing (rules R129, R130). -/
theorem exec_bitCommand_acksNoted {v : Bool} (h : exec (bitCommand v).toInstr s = .next t) :
    AcksNoted (s.edge v ++ [.wbit v]) s t := by
  have hpulse : exec (bitCommand v).toInstr s =
      .next ((((s.setSda v).setScl true).record (.wbit v)).setScl false) := by cases v <;> rfl
  rw [hpulse] at h
  injection h with h
  subst h
  refine .of_no_sample ?_ rfl (by simp [s.acks_not_mem_edge])
  rw [← List.append_assoc]
  rfl

/-- A command that goes on notes the acknowledge sample it takes, if it takes one. -/
theorem exec_command_acksNoted {c : Command} (h : exec c.toInstr s = .next t) :
    ∃ es, AcksNoted es s t := by
  cases c
  case setAddress | reset | idle | dataHighAck1 => cases h
  case dataHighRead => exact ⟨_, exec_dataHighRead_acksNoted h⟩
  case dataHighAck0 => exact ⟨_, exec_dataHighAck0_acksNoted h⟩
  case endCmd | clockLow | clockHigh =>
    cases h
    exact ⟨[], .of_no_sample (List.append_nil _).symm rfl nofun⟩
  case dataLow | dataHigh =>
    cases h
    exact ⟨_, .of_no_sample rfl rfl (s.acks_not_mem_edge _ _)⟩
  case dataLowNoAck => exact ⟨_, exec_bitCommand_acksNoted (v := false) h⟩
  case dataHighNoAck => exact ⟨_, exec_bitCommand_acksNoted (v := true) h⟩

/-- Playing notes every acknowledge sample. -/
theorem play_acksNoted {cs : List Command} (h : play cs s = .next t) : ∃ es, AcksNoted es s t := by
  induction cs generalizing s with
  | nil =>
    cases h
    exact ⟨[], .of_no_sample (List.append_nil _).symm rfl nofun⟩
  | cons c cs ih =>
    obtain ⟨u, hu, hrest⟩ := andThen_eq_next.1 h
    obtain ⟨es, hes⟩ := exec_command_acksNoted hu
    obtain ⟨fs, hfs⟩ := ih hrest
    exact ⟨es ++ fs, hes.trans hfs⟩

/-! ### The result buffers, whatever the slaves have sent (rule R200) -/

theorem sameShape_of_filled {tx tx' : Transaction} (h : List.Forall₂ Message.Filled tx tx') :
    sameShape tx tx' := by
  induction h with
  | nil => trivial
  | @cons m m' _ _ hm _ ih =>
    rw [hm.eq_withResult]
    cases m with
    | write a p => exact ⟨rfl, rfl, ih⟩
    | read a r => exact ⟨rfl, hm.received_length.symm, ih⟩

/-- A message holds the received bytes, if they are as many as it reads. -/
theorem Message.received_withResult {m : Message} {bs : List Byte} (h : bs.length = m.readLength) :
    (m.withResult bs).received = bs := by
  cases m with
  | write a p => exact (List.length_eq_zero_iff.1 h).symm
  | read a r => rfl

theorem Message.filled_withResult {m : Message} {bs : List Byte} (h : bs.length = m.readLength) :
    m.Filled (m.withResult bs) :=
  ⟨by rw [Message.received_withResult h, h], by rw [Message.received_withResult h]⟩

/-- Received bytes, if they are as many as the transaction reads, are the contents of its result buffers. -/
theorem exists_filled (tx : Transaction) {bs : List Byte} (h : bs.length = readBytes tx) :
    ∃ tx', List.Forall₂ Message.Filled tx tx' ∧ receivedData tx' = bs := by
  induction tx generalizing bs with
  | nil => exact ⟨[], .nil, (List.length_eq_zero_iff.1 h).symm⟩
  | cons m ms ih =>
    have hbytes : readBytes (m :: ms) = m.readLength + readBytes ms := rfl
    have hfirst : (bs.take m.readLength).length = m.readLength := by rw [List.length_take]; omega
    obtain ⟨ms', hms', hdata⟩ := ih (bs := bs.drop m.readLength) (by rw [List.length_drop]; omega)
    refine ⟨_, .cons (Message.filled_withResult hfirst) hms', ?_⟩
    rw [receivedData_eq] at hdata ⊢
    rw [List.flatMap_cons, hdata, Message.received_withResult hfirst, List.take_append_drop]

/-! ### From the status to the return, whatever the slaves have answered (rules R227, R229, R288) -/

theorem reaches_ackFailure {c : Call} {k : Nat} (hidle : s.busy = false) (hmissed : s.ackf ≠ 0#2)
    (hp : s.phase = .postWait k) (hc : s.call = some c) :
    Reaches s (leave c (.error .ackFailure) { s with draws := s.draws + 2 }) := by
  have hpolled := sequencerStep_postWait hp hidle
  have hdecoded := sequencerStep_decode (s := { s.afterStatusRead with phase := .decoding }) rfl
  rw [decodeStatus_of_missed_ack hidle hmissed] at hdecoded
  exact (Reaches.of_sequencerStep hpolled hidle).trans
    ((Reaches.of_sequencerStep hdecoded hidle).trans
      (Reaches.of_sequencerStep (sequencerStep_done rfl hc) hidle))

/-- With every acknowledgement given, the call returns `Ok` with whatever the readback window holds. -/
theorem reaches_ok_unspecified {c : Call} {k : Nat} (hidle : s.busy = false) (hacked : s.ackf = 0#2)
    (hp : s.phase = .postWait k) (hc : s.call = some c) (hpos : 0 < c.tx.length)
    (hroom : readBytes c.tx ≤ s.dev.rbCapacity) :
    ∃ tx', Reaches s (leave { c with tx := tx' } .ok { s with draws := s.draws + 2 }) ∧
      sameShape c.tx tx' := by
  obtain ⟨tx', hfilled, hdata⟩ := exists_filled c.tx (s.rbBytes_length 0 (readBytes c.tx))
  refine ⟨tx', reaches_ok hidle hacked hp hc hpos hfilled hroom fun k d hd => ?_,
    sameShape_of_filled hfilled⟩
  rw [hdata] at hd
  have hk : k < readBytes c.tx := by
    simpa using (List.getElem?_eq_some_iff.1 hd).1
  rw [s.rbBytes_getElem? hk, Nat.zero_add] at hd
  exact Option.some.inj hd

/-- Behind a stopped playback the call returns, with the result that the acknowledgement bits give. -/
theorem reaches_returned {c : Call} {k : Nat} (hidle : s.busy = false) (hp : s.phase = .postWait k)
    (hc : s.call = some c) (hpos : 0 < c.tx.length) (hroom : readBytes c.tx ≤ s.dev.rbCapacity) :
    ∃ r tx', Reaches s (leave { c with tx := tx' } r { s with draws := s.draws + 2 }) ∧
      (s.ackf = 0#2 → r = .ok ∧ sameShape c.tx tx') ∧
      (s.ackf ≠ 0#2 → r = .error .ackFailure ∧ tx' = c.tx) := by
  by_cases hackf : s.ackf = 0#2
  · obtain ⟨tx', hreach, hshape⟩ := reaches_ok_unspecified hidle hackf hp hc hpos hroom
    exact ⟨.ok, tx', hreach, fun _ => ⟨rfl, hshape⟩, fun hne => absurd hackf hne⟩
  · exact ⟨.error .ackFailure, c.tx, reaches_ackFailure hidle hackf hp hc,
      fun hzero => absurd hzero hackf, fun _ => ⟨rfl, rfl⟩⟩

/-! ### The whole of a transfer -/

/-- Settles O54: the playback notes every acknowledge sample in bits that the trigger has cleared, and they
decide the return. -/
theorem transferReportsAckFailure : Obligations.TransferReportsAckFailure := by
  intro s c later hs _ _ hw hv hfits hsched
  obtain ⟨-, hroom⟩ := fits_iff.1 hfits
  obtain ⟨t, hcalled, htriggered⟩ := hs.reaches_triggered hw hv hfits
  have ht := htriggered.frame
  obtain ⟨u, -, hplay, huclock, hudata, hubits, hbusy, -⟩ :=
    busIsIdleAfterPlayback t c.tx hv (by rw [ht]; exact hs.clock) (by rw [ht]; exact hs.data)
      (by rw [ht]) (by rw [ht, Nat.zero_add]; exact hroom)
  have hu := play_changes hplay
  obtain ⟨es, hwire, hmissed⟩ := play_acksNoted hplay
  have hmissed : u.ackf ≠ 0#2 ↔ BusEvent.acks true ∈ es := by
    rw [hmissed, ht]
    simp
  have hplayed := htriggered.reaches_played hsched hplay hbusy
  obtain ⟨r, tx', hreturned, hok, hfailed⟩ := reaches_returned (c := c) (k := 0)
    (s := { u with
      fp := t.fp + (streamCommands c.tx).length + 1, sched := later, busy := false })
    rfl (by rw [hu, ht]) (by rw [hu, ht]) (validate_length_pos hv) (by rw [hu, ht]; exact hroom)
  have hreach := hcalled.trans (hplayed.trans hreturned)
  have ⟨n, hrun⟩ := hreach
  refine ⟨n, _, es, r, tx', hrun, ?returned, hwire.trans (by rw [ht]), fun hacked => ?ok,
    fun hack => ?failed, ?waiting, rfl, rfl, hreach.keeps_inv hs.inv, rfl, rfl, huclock, hudata,
    hubits⟩
  case returned =>
    rw [hu, ht]
    rfl
  case ok =>
    have hzero : u.ackf = 0#2 := not_not.1 (mt hmissed.1 hacked)
    obtain ⟨hr, hshape⟩ := hok hzero
    exact ⟨hr, hzero, hshape⟩
  case failed =>
    have hne : u.ackf ≠ 0#2 := hmissed.2 hack
    obtain ⟨hr, hsame⟩ := hfailed hne
    exact ⟨hr, hne, hsame⟩
  case waiting =>
    rw [hu, ht]
    rfl

end Sys2Proof.Machine
end

section
/-! PROOFS. What runs after reset, and how many steps a started engine takes: the statements of file
70_reset_and_hazards.md. -/

namespace Sys2Proof.Machine

variable {s t u : State}

/-! ### After reset (rule R313) -/

/-- With `busy` 0 the engine has no step (rules R31, R226). -/
theorem engineEnabled_of_idle (h : s.busy = false) : s.engineEnabled = false := by
  simp [State.engineEnabled, h]

/-- A call starts no playback. -/
@[simp] theorem transfer_busy (c : Call) (s : State) : (transfer c s).busy = s.busy := by
  rw [transfer]
  split <;> rfl

theorem transfer_of_thread {c : Call} (h : c.thread < s.dev.nThreads) :
    transfer c s = { s with waiting := s.waiting ++ [c] } :=
  if_pos h

/-- After reset nobody waits for the free lock. -/
theorem sequencerEnabled_resetWith (p : Params) : (State.resetWith p).sequencerEnabled = false := rfl

/-- Settles O38: at reset neither agent has a step; the one call that then waits gets the free lock. -/
theorem nothingRunsBeforeACall : Obligations.NothingRunsBeforeACall := by
  intro p c
  refine ⟨?quiescent, fun hthread => ?called, engineEnabled_of_idle (transfer_busy c _)⟩
  case quiescent =>
    exact step_of_nobody_enabled (engineEnabled_of_idle rfl) (sequencerEnabled_resetWith p)
  case called =>
    have hstep := step_of_engine_idle (transfer_busy c (State.resetWith p))
    rw [transfer_of_thread hthread] at hstep ⊢
    rw [hstep, sequencerStep_idle rfl]
    exact acquire_of_one_waiting rfl rfl

/-! ### The steps of a playback (rules R120, R322) -/

/-- A command of a stream's body goes on with the engine running: only `End` stops it (rules R34, R121). -/
theorem exec_playedCommand_busy {c : Command} (hc : playedCommand c = true)
    (h : exec c.toInstr s = .next t) : t.busy = s.busy := by
  have hne : c ≠ .endCmd := by
    rintro rfl
    cases hc
  rw [(exec_command_next h).2, if_neg hne]

theorem engineRun_succ (hen : s.engineEnabled = true) (h : engineStep s = .next t) (n : Nat) :
    engineRun (n + 1) s = engineRun n t := by
  rw [engineRun, if_pos hen, h, andThen_next]

/-- The engine's step at a stream executes the stream's first command and moves past it (rule R120). -/
theorem AtStream.engineStep_eq {cs ds : List Command} {c : Command} (h : AtStream cs s)
    (hc : cs ++ [.endCmd] = c :: ds) (ht : exec c.toInstr s = .next t) :
    engineStep s = .next (t.atFetch (s.fp + 1) t.sched) := by
  have hsched : t.sched = s.sched := (exec_command_next ht).1.sched
  rw [hsched]
  exact (engineStep_of_decoded (h.decoded hc)).trans (exec_atFetch ht (s.fp + 1) s.sched)

/-- The engine and `play` go through a stream side by side: `play` knows no fetch pointer, the engine's
moves on by one with each command and past the `End`, which stops it. -/
theorem AtStream.engineRun_eq {cs : List Command} (h : AtStream cs s)
    (hplayed : ∀ c ∈ cs, playedCommand c = true) (hplay : play cs s = .next u) :
    engineRun (cs.length + 1) s = .next { u with fp := s.fp + cs.length + 1, busy := false } := by
  induction cs generalizing s u with
  | nil =>
    injection hplay with hplay
    subst hplay
    exact engineRun_succ h.engineEnabled (h.engineStep_eq rfl rfl) 0
  | cons c cs ih =>
    obtain ⟨v, hv, hrest⟩ := andThen_eq_next.1 hplay
    obtain ⟨hc, hcs⟩ := List.forall_mem_cons.1 hplayed
    have hbusy : v.busy = true := (exec_playedCommand_busy hc hv).trans h.busy
    have hsched : u.sched = v.sched := by rw [play_changes hrest]
    have hrun := ih (h.tail hv hbusy v.sched) hcs (play_atFetch hrest _ _)
    rw [List.length_cons, engineRun_succ h.engineEnabled (h.engineStep_eq rfl hv), hrun, ← hsched,
      ← Nat.add_assoc, Nat.add_right_comm s.fp]
    rfl

/-- Settles O52: the body of the stream and the `End` behind it are one list of nibbles. -/
theorem engineFinishesStream : Obligations.EngineFinishesStream := by
  intro s u cs hparams hbusy hroom hnibbles hend hplayed hplay
  refine AtStream.engineRun_eq ⟨hparams, hbusy, hroom, fun k c hk => ?_⟩ hplayed hplay
  rcases Nat.lt_or_ge k cs.length with hlt | hge
  · rw [List.getElem?_append_left hlt] at hk
    exact hnibbles k c hk
  · rw [List.getElem?_append_right hge, List.getElem?_singleton] at hk
    obtain ⟨hlast, ⟨⟩⟩ := Option.ite_none_right_eq_some.1 hk
    have hk : k = cs.length := by omega
    rw [hk, hend]

end Sys2Proof.Machine
end
